-- ==== Sys2Proof/Word.lean ====
section
/-! DEFINITION. The word types of the FRAMER: the widths that spec/00_scope.md rule R6 fixes (ADDR_BITS = 6,
VALUE_BITS = 8, SYNC_BITS = 16) and the bit of a frame (rule R10). -/

namespace Sys2Proof

/-- One bus byte or register value: `VALUE_BITS` = 8 (R6, R10). -/
abbrev Byte := BitVec 8

/-- A 6-bit register address or strobe code: `ADDR_BITS` = 6 (R6). -/
abbrev Addr := BitVec 6

/-- The 16-bit sync word: `SYNC_BITS` = 16 (R6). -/
abbrev SyncWord := BitVec 16

/-- One bit of a frame or of a decoded packet (R10); `true` is 1. -/
abbrev Bit := Bool

end Sys2Proof
end

