-- ==== Sys2Proof/Syntax.lean ====
section
/-! DEFINITION. What can be said to the FRAMER and what it answers: the commands of the command port
(spec/30_encoding.md R86), the instructions of spec/opcode_table.json (one constructor a row), the words in which a
command is presented, the failures (spec/60_exceptions.md R200) and the results (spec/10_state.md R27). -/

namespace Sys2Proof

/-- The four access modes: header bits 7:6 (R80). -/
inductive AccessMode where
  | writeSingle
  | writeBurst
  | readSingle
  | readBurst
  deriving DecidableEq, Repr, Inhabited

/-- The commands of the command port, one per value of `op` (R86), each with the operands that command carries.
It is also the type of the operand latch `OP` (R28, R29): a field the latched command does not use holds no defined
value, and here it is not there at all. -/
inductive Command where
  /-- `op` = 0 (R140). -/
  | strobe (code : Addr)
  /-- `op` = 1 (R122). -/
  | writeSingle (addr : Addr) (value : Byte)
  /-- `op` = 2 (R123). -/
  | readSingle (addr : Addr)
  /-- `op` = 3 (R124). -/
  | writeBurst (addr : Addr) (data : List Byte)
  /-- `op` = 4 (R125). -/
  | readBurst (addr : Addr) (length : Nat)
  /-- `op` = 5 (R160). -/
  | frameTx (payload : List Bit) (sync : SyncWord)
  /-- `op` = 6 (R167). -/
  | decodeRx (raw : List Byte)
  /-- `op` = 7, reserved (R93). -/
  | reserved7
  deriving DecidableEq, Repr, Inhabited

/-- The instructions: one constructor per row of spec/opcode_table.json, in the table's order. The rows of format HDR
(the header byte of a bus transaction, R80) come first: the four access modes, whose word is the whole wire layout of
the command (R82 to R85), then the fourteen strobes by name (R142 to R155, layout R81). The rows of format CMD (the
command port, R86) follow. Where the table has one mnemonic in both formats, the HDR row's constructor begins with
`wire`: the same command, presented by its wire layout. -/
inductive Instr where
  /-- HDR `00aaaaaa`, layout TXN.WS (R82). -/
  | wireWriteSingle (addr : Addr) (value : Byte)
  /-- HDR `01aaaaaa`, layout TXN.WB (R84). -/
  | wireWriteBurst (addr : Addr) (data : List Byte)
  /-- HDR `10aaaaaa`, layout TXN.RS (R83). -/
  | wireReadSingle (addr : Addr)
  /-- HDR `11aaaaaa`, layout TXN.RB (R85). -/
  | wireReadBurst (addr : Addr) (length : Nat)
  /-- `0x30`, reset (R142). -/
  | sReset
  /-- `0x31`, enable and calibrate synthesizer (R143). -/
  | sFstxon
  /-- `0x32`, crystal off (R144). -/
  | sXoff
  /-- `0x33`, calibrate (R145). -/
  | sCal
  /-- `0x34`, RX enable (R146). -/
  | sRx
  /-- `0x35`, TX enable (R147). -/
  | sTx
  /-- `0x36`, idle (R148). -/
  | sIdle
  /-- `0x37`, the code the source leaves unnamed (R149). -/
  | s37
  /-- `0x38`, wake-on-radio start (R150). -/
  | sWor
  /-- `0x39`, power down (R151). -/
  | sPwd
  /-- `0x3A`, flush RX (R152). -/
  | sFlushRx
  /-- `0x3B`, flush TX (R153). -/
  | sFlushTx
  /-- `0x3C`, wake-on-radio reset (R154). -/
  | sWorrst
  /-- `0x3D`, no operation (R155). -/
  | sNop
  /-- CMD `000` (R140). -/
  | strobe (code : Addr)
  /-- CMD `001` (R122). -/
  | writeSingle (addr : Addr) (value : Byte)
  /-- CMD `010` (R123). -/
  | readSingle (addr : Addr)
  /-- CMD `011` (R124). -/
  | writeBurst (addr : Addr) (data : List Byte)
  /-- CMD `100` (R125). -/
  | readBurst (addr : Addr) (length : Nat)
  /-- CMD `101` (R160). -/
  | frameTx (payload : List Bit) (sync : SyncWord)
  /-- CMD `110` (R167). -/
  | decodeRx (raw : List Byte)
  /-- CMD `111`, reserved (R93). -/
  | reserved7
  deriving DecidableEq, Repr, Inhabited

/-- The two formats of spec/opcode_table.json in which a command is presented: `cmd`, the command port (R86), and
`hdr`, the wire layout that begins with the header byte (R80 to R85). -/
inductive Format where
  | cmd
  | hdr
  deriving DecidableEq, Repr, Inhabited

/-- One presented command: its format and all its bytes, the table's word first. DESIGN CHOICE (log 2): the spec gives
the port's operands as parallel lines without a layout, so the bytes that follow the table's word are the model's. -/
structure PortWord where
  fmt : Format
  bytes : List Byte
  deriving DecidableEq, Repr, Inhabited

/-- The failures (R200), each with the `info` that R204 to R207 record with it. -/
inductive Failure where
  /-- Code 1, raised by TRANSACT (R201). -/
  | transportFailure
  /-- Code 2, raised by the HOST's poll loops (R202). -/
  | protocolTimeout
  /-- Code 3, raised by the HOST's `APPLY_CONFIG` (R203). -/
  | partialConfigFailure
  /-- Code 4, raised by FRAME_TX with the payload's bit count (R204). -/
  | frameOverflow (payloadLen : Nat)
  /-- Code 5, raised by FRAME_TX with the payload's bit count (R205). -/
  | frameNotByteAligned (payloadLen : Nat)
  /-- Code 6, raised by STROBE with the code (R206). -/
  | illegalStrobe (code : Addr)
  /-- Code 7, raised by READ_BURST with the length (R207). -/
  | burstAddressOverflow (length : Nat)
  /-- Code 8, raised by DECODE_RX (R208). -/
  | emptyBurst
  /-- Code 9, raised by `op` = 7 (R209). -/
  | illegalCommand
  deriving DecidableEq, Repr, Inhabited

/-- What the result port carries (R27). `okFrame` is FRAME_TX's pair of the frame bytes and `FRAME_LEN` (R160). -/
inductive Result where
  | okNone
  | okByte (b : Byte)
  | okBytes (bs : List Byte)
  | okFrame (bs : List Byte) (frameLen : Nat)
  | okBits (bits : List Bit)
  | err (f : Failure)
  deriving DecidableEq, Repr, Inhabited

/-- One event on the bus port as an observer of it sees it (R110, R222): the select signal asserted, one byte
exchanged, an exchange that failed, the select signal released. -/
inductive BusEvent where
  | select
  | exchange (out inp : Byte)
  | broken (out : Byte)
  | release
  deriving DecidableEq, Repr, Inhabited

end Sys2Proof
end

