-- ==== Sys2Proof/Config.lean ====
section
/-! DEFINITION. What is fixed for the machine: the constants of spec/00_scope.md R6, the named parameters that R7 leaves
OPEN, and the free values, which are constants without a body so that no proof can see what they are. -/

namespace Sys2Proof.Config

/-- `STROBE_MIN` (R6). -/
abbrev strobeMin : Addr := 0x30#6

/-- `STROBE_MAX` (R6). -/
abbrev strobeMax : Addr := 0x3D#6

/-- `FILLER` (R6): the second byte of a strobe and of a single read. -/
abbrev filler : Byte := 0x00#8

/-- `BURST_STRIDE` (R6). -/
abbrev burstStride : Nat := 8

/-- `MAX_FRAME_BITS` (R6). -/
abbrev maxFrameBits : Nat := 512

/-- `SYNC_BITS` (R6). -/
abbrev syncBits : Nat := 16

/-- `PREAMBLE_PATTERN` (R6): one unit of padding, `10101010`, first bit first. -/
abbrev preamblePattern : List Bit := [true, false, true, false, true, false, true, false]

/-- `MARC_MASK` (R6). -/
abbrev marcMask : Byte := 0x1F#8

/-- `MARC_IDLE` (R6). -/
abbrev marcIdle : Byte := 0x01#8

/-- `MARC_RX` (R6). -/
abbrev marcRx : Byte := 0x0D#8

/-- `TXBYTES_MASK` (R6). -/
abbrev txbytesMask : Byte := 0x7F#8

/-- `MAX_WBURST` (R7, D4): payload bytes of one WRITE_BURST. -/
abbrev maxWBurst : Nat := 255

/-- `MAX_RBURST` (R7, D4): the largest `length` of READ_BURST. -/
abbrev maxRBurst : Nat := 255

/-- `MAX_PAYLOAD_BITS` (R7, D4). -/
abbrev maxPayloadBits : Nat := 65535

/-- `MAX_RAW` (R7, D4). -/
abbrev maxRaw : Nat := 256

/-- The two values of `BURST_ADDR_OVERFLOW` (R7, R127). -/
inductive BurstOverflow where
  | fault
  | wrap
  deriving DecidableEq, Repr, Inhabited

/-- The order of the 8 bits of a byte on the wire, `BUS_BIT_ORDER` (R7, R58). -/
inductive BitOrder where
  | msbFirst
  | lsbFirst
  deriving DecidableEq, Repr, Inhabited

/-- Clock polarity and phase, `BUS_CLOCK_MODE` (R7, R58). No rule reads it. -/
structure ClockMode where
  idleHigh : Bool
  sampleSecondEdge : Bool
  deriving DecidableEq, Repr, Inhabited

/-- Which command reads a CHIP status register: the two forms R184 names, open for each register by itself (R185). -/
inductive StatusRead where
  | single
  | burst
  deriving DecidableEq, Repr, Inhabited

/-- How `round` breaks an exact tie in R181 (OPEN, D26). -/
inductive TieRule where
  | up
  | down
  | toEven
  deriving DecidableEq, Repr, Inhabited

/-- Which of the three bytes of the frequency word (R181). -/
inductive FreqByte where
  | high
  | middle
  | low
  deriving DecidableEq, Repr, Inhabited

/-- In which order the three bytes of the frequency word are written, each once (R181; OPEN, D26). -/
inductive FreqOrder where
  | highMiddleLow
  | highLowMiddle
  | middleHighLow
  | middleLowHigh
  | lowHighMiddle
  | lowMiddleHigh
  deriving DecidableEq, Repr, Inhabited

/-- Where and in which order the frequency word goes (R181): one register for each of its three bytes. -/
structure FreqPlan where
  highAddr : Addr
  middleAddr : Addr
  lowAddr : Addr
  order : FreqOrder
  deriving DecidableEq, Repr, Inhabited

/-- Where and in which order the sync word goes (R182: the source gives neither). DESIGN CHOICE (log 15): its two bytes are its high and
its low eight bits. -/
structure SyncPlan where
  highAddr : Addr
  lowAddr : Addr
  highFirst : Bool
  deriving DecidableEq, Repr, Inhabited

/-- The parameters R7 leaves OPEN, which the model takes as an argument: they stand in `State.params`, no step changes
them, and a statement about every state holds for every choice of them. -/
structure Params where
  /-- `BURST_ADDR_OVERFLOW` (R127). -/
  burstAddrOverflow : BurstOverflow
  /-- `SEL_ACTIVE_LEVEL` (R22): the electrical level of "asserted". -/
  selActiveLevel : Bool
  /-- `BUS_BIT_ORDER` (R58). -/
  busBitOrder : BitOrder
  /-- `BUS_CLOCK_MODE` (R58); no rule reads it. -/
  busClockMode : ClockMode
  /-- `BUS_CLOCK_HZ` (R32); no rule reads it. -/
  busClockHz : Nat
  /-- `FIFO_ADDR` (R52). -/
  fifoAddr : Addr
  /-- `PATABLE_ADDR` (R52). -/
  patableAddr : Addr
  /-- `MARCSTATE_ADDR` (R34). -/
  marcstateAddr : Addr
  /-- `TXBYTES_ADDR` (R34). -/
  txbytesAddr : Addr
  /-- `PKTLEN_ADDR` (R191). -/
  pktlenAddr : Addr
  /-- `FIFO_DEPTH` (R129, R245): a HOST obligation only, the FRAMER does not check it. -/
  fifoDepth : Nat
  /-- `MAX_POLL` (R193). -/
  maxPoll : Nat
  /-- `T_SETTLE` (R194): a duration; no rule of the block depends on time (R252). -/
  tSettle : Nat
  /-- `CRYSTAL_HZ` (R181). -/
  crystalHz : Nat
  /-- The command that reads the main-state-machine status register (R184, N9). -/
  marcstateRead : StatusRead
  /-- The command that reads the TX byte-count register (R185, N9). -/
  txbytesRead : StatusRead
  /-- The tie rule of `round` (R181). -/
  tieRule : TieRule
  /-- The three frequency registers and the order in which they are written (R181, D26). -/
  freqPlan : FreqPlan
  /-- The two sync-word registers and the order in which they are written (R182). -/
  syncPlan : SyncPlan
  deriving DecidableEq, Repr, Inhabited

/-- The parameters of `State.reset`. `burstAddrOverflow` and `crystalHz` are the defaults of R7, `patableAddr` equals
`fifoAddr` as R7 says; the rest are OPEN in the spec and PRESUMED here from spec/93_implementation_defined.md G3 and
G4, or DESIGN CHOICE (log 9). -/
def defaultParams : Params where
  burstAddrOverflow := .fault
  selActiveLevel := false
  busBitOrder := .msbFirst
  busClockMode := ⟨false, false⟩
  busClockHz := 1000000
  fifoAddr := 0x3F#6
  patableAddr := 0x3F#6
  marcstateAddr := 0x35#6
  txbytesAddr := 0x3A#6
  pktlenAddr := 0x06#6
  fifoDepth := 64
  maxPoll := 10
  tSettle := 1
  crystalHz := 26000000
  marcstateRead := .burst
  txbytesRead := .burst
  tieRule := .up
  freqPlan := ⟨0x0D#6, 0x0E#6, 0x0F#6, .highMiddleLow⟩
  syncPlan := ⟨0x04#6, 0x05#6, true⟩

/-- The contents R39 leaves unspecified after `rst`. -/
structure Leftovers where
  idx : Nat
  txbuf : List Byte
  rxbuf : List Byte
  bitbuf : List Bit
  result : Result
  op : Command
  deriving DecidableEq, Repr, Inhabited

/-- FREE VALUE (log 5): the CHIP's answer to one exchange, from the whole history of the bus and the byte sent: a byte,
or `none` where the bus primitive fails (R110, R116, R201). Nothing constrains it. -/
opaque chipAnswer : List BusEvent → Byte → Option Byte

/-- FREE VALUE (log 6): the level the HOST reads on the level-signal pin (R36, R187), fresh at every read. -/
opaque pinLevel : Nat → Bool

/-- FREE VALUE (log 7): what the buffers, the index, the result and the operand latch hold after `rst` (R39:
"unspecified"), fresh at every reset. -/
opaque afterReset : Nat → Leftovers

end Sys2Proof.Config
end

