-- ==== Sys2Proof/Machine/Operands.lean ====
section
/-! DEFINITION. Operand assembly (spec/30_encoding.md section 2): bit strings and bytes, the header byte, the address
bytes of READ_BURST, the frame of FRAME_TX, the decoded bits of DECODE_RX, and the HOST's masks and frequency word.
Every function here is about operands alone and reads no state. -/

namespace Sys2Proof.Machine

open Sys2Proof.Config

/-! Bits and bytes (spec/00_scope.md R13, spec/20_memory.md R55, R56). -/

/-- `bits8(b)`: the bits of a byte, most significant first (R13). -/
def bits8 (b : Byte) : List Bit :=
  [b.getLsbD 7, b.getLsbD 6, b.getLsbD 5, b.getLsbD 4, b.getLsbD 3, b.getLsbD 2, b.getLsbD 1, b.getLsbD 0]

/-- `bits16(w)`: the bits of a 16-bit value, bit 15 first (R13, R56). -/
def bits16 (w : SyncWord) : List Bit :=
  bits8 (w.extractLsb' 8 8) ++ bits8 (w.extractLsb' 0 8)

/-- `byte_of(g)` for the eight bits of a group, the first bit being bit 7 (R13, R55). -/
def byteOf (b7 b6 b5 b4 b3 b2 b1 b0 : Bit) : Byte :=
  BitVec.ofNat 8 (128 * b7.toNat + 64 * b6.toNat + 32 * b5.toNat + 16 * b4.toNat
    + 8 * b3.toNat + 4 * b2.toNat + 2 * b1.toNat + b0.toNat)

/-- Slices a bit list into 8-bit groups and converts each to a byte (R165). A last group of fewer than 8 bits is
dropped; FRAME_TX never has one (R163). -/
def packBits : List Bit → List Byte
  | b7 :: b6 :: b5 :: b4 :: b3 :: b2 :: b1 :: b0 :: rest => byteOf b7 b6 b5 b4 b3 b2 b1 b0 :: packBits rest
  | _ => []

/-- Concatenates the bits of each byte (R167). -/
def unpackBytes (bs : List Byte) : List Bit :=
  bs.flatMap bits8

/-- The 8 bits of a byte in the order they travel on the wire (R58). No rule depends on it. -/
def wireBits (o : BitOrder) (b : Byte) : List Bit :=
  match o with
  | .msbFirst => bits8 b
  | .lsbFirst => (bits8 b).reverse

/-! The header byte (R80, R88, R91, R121). -/

/-- The mode bits as a byte value (R6, R80). -/
def modeBits : AccessMode → Byte
  | .writeSingle => 0x00#8
  | .writeBurst => 0x40#8
  | .readSingle => 0x80#8
  | .readBurst => 0xC0#8

/-- ENCODE: `a | mode` (R88, R121). -/
def encodeHeader (a : Addr) (m : AccessMode) : Byte :=
  a.setWidth 8 ||| modeBits m

/-- The mode field of a header byte, bits 7:6 (R80). -/
def headerMode (h : Byte) : AccessMode :=
  match h.getLsbD 7, h.getLsbD 6 with
  | false, false => .writeSingle
  | false, true => .writeBurst
  | true, false => .readSingle
  | true, true => .readBurst

/-- The address field of a header byte, bits 5:0 (R80). -/
def headerAddr (h : Byte) : Addr :=
  h.setWidth 6

/-- Membership in the fourteen strobe codes `0x30` to `0x3D` (R51, R141). -/
def isStrobeCode (code : Addr) : Bool :=
  decide (strobeMin ≤ code) && decide (code ≤ strobeMax)

/-! The address bytes of READ_BURST (R89, R125 to R127). -/

/-- `s[i] = addr + 8 * i`, on unbounded integers (R125). -/
def burstSum (a : Addr) (i : Nat) : Nat :=
  a.toNat + burstStride * i

/-- `tx[i] = s[i] | 0xC0` (R126). The reduction modulo 256 that the width brings is the `wrap` form of R127; while
`s[i] ≤ 255` it changes nothing. -/
def burstByte (a : Addr) (i : Nat) : Byte :=
  BitVec.ofNat 8 (burstSum a i) ||| modeBits .readBurst

/-- The `length + 1` bytes out of READ_BURST (R85, R126). -/
def burstBytes (a : Addr) (length : Nat) : List Byte :=
  (List.range (length + 1)).map (burstByte a)

/-- The reject condition of R127: `addr + 8 * length > 255`. -/
def burstOverflows (a : Addr) (length : Nat) : Bool :=
  decide (255 < burstSum a length)

/-- Whether READ_BURST is rejected: the sums overflow and `BURST_ADDR_OVERFLOW` is `fault` (R127). -/
def burstRejected (p : Params) (a : Addr) (length : Nat) : Bool :=
  burstOverflows a length && decide (p.burstAddrOverflow = .fault)

/-! The outbound frame (R87, R90, R160 to R165) and the decoded packet (R167). -/

/-- `paddingBits = 512 - 16 - L` (R161); used only where `L ≤ 496`. -/
def paddingBits (len : Nat) : Nat :=
  maxFrameBits - syncBits - len

/-- `paddingBytes = floor(paddingBits / 8)` (R161). -/
def paddingBytes (len : Nat) : Nat :=
  paddingBits len / 8

/-- The condition of FrameOverflow: `16 + L > 512` (R162). -/
def frameOverflows (len : Nat) : Bool :=
  decide (maxFrameBits < syncBits + len)

/-- The condition of FrameNotByteAligned: the total bit length is not a multiple of 8 (R163). -/
def frameMisaligned (len : Nat) : Bool :=
  decide ((8 * paddingBytes len + syncBits + len) % 8 ≠ 0)

/-- Padding of `n` units of the preamble pattern (R160). -/
def padding (n : Nat) : List Bit :=
  (List.replicate n preamblePattern).flatten

/-- The bit sequence of an outbound frame: padding, sync word, payload (R160). -/
def frameBits (payload : List Bit) (sync : SyncWord) : List Bit :=
  padding (paddingBytes payload.length) ++ bits16 sync ++ payload

/-- The bits of a received burst without its leading status byte (R167). -/
def decodedBits (raw : List Byte) : List Bit :=
  unpackBytes raw.tail

/-! The HOST's reading of the two status registers (R34, R184, R185) and its frequency word (R181). -/

/-- `state = v & 0x1F` (R184). -/
def marcState (v : Byte) : Byte :=
  v &&& marcMask

/-- `pending = v & 0x7F` (R185). -/
def txPending (v : Byte) : Byte :=
  v &&& txbytesMask

/-- `round(num / den)`, an exact tie broken by the rule given (R181, D26). -/
def roundDiv (rule : TieRule) (num den : Nat) : Nat :=
  let q := num / den
  let r := num % den
  if 2 * r < den then q
  else if den < 2 * r then q + 1
  else
    match rule with
    | .down => q
    | .up => q + 1
    | .toEven => if q % 2 = 0 then q else q + 1

/-- The frequency word `round((targetHz + offsetHz) * 2^16 / CRYSTAL_HZ)`, or none where it does not fit 24 bits
(R181: "explicit 24-bit range check"). The offset is an integer (log 14); a negative sum, or a crystal of 0 Hz, has no
word. -/
def frequencyWord (p : Params) (targetHz : Nat) (offsetHz : Int) : Option (BitVec 24) :=
  let f := (targetHz : Int) + offsetHz
  if f < 0 ∨ p.crystalHz = 0 then none
  else
    let word := roundDiv p.tieRule (f.toNat * 65536) p.crystalHz
    if word < 16777216 then some (BitVec.ofNat 24 word) else none

/-- One of the three bytes of the frequency word (R181). -/
def freqByte (w : BitVec 24) : FreqByte → Byte
  | .high => w.extractLsb' 16 8
  | .middle => w.extractLsb' 8 8
  | .low => w.extractLsb' 0 8

/-- The three bytes in the order written (R181). -/
def freqOrderBytes : FreqOrder → List FreqByte
  | .highMiddleLow => [.high, .middle, .low]
  | .highLowMiddle => [.high, .low, .middle]
  | .middleHighLow => [.middle, .high, .low]
  | .middleLowHigh => [.middle, .low, .high]
  | .lowHighMiddle => [.low, .high, .middle]
  | .lowMiddleHigh => [.low, .middle, .high]

/-- The register a byte of the frequency word goes to (R181). -/
def freqAddr (plan : FreqPlan) : FreqByte → Addr
  | .high => plan.highAddr
  | .middle => plan.middleAddr
  | .low => plan.lowAddr

/-- The three writes of SET_FREQUENCY, each byte once (R181). -/
def freqRows (plan : FreqPlan) (w : BitVec 24) : List (Addr × Byte) :=
  (freqOrderBytes plan.order).map fun b => (freqAddr plan b, freqByte w b)

/-- The two writes of the sync word (R182). -/
def syncRows (plan : SyncPlan) (sync : SyncWord) : List (Addr × Byte) :=
  let high := (plan.highAddr, sync.extractLsb' 8 8)
  let low := (plan.lowAddr, sync.extractLsb' 0 8)
  if plan.highFirst then [high, low] else [low, high]

end Sys2Proof.Machine
end

