-- ==== Sys2Proof/WellFormed.lean ====
section
/-! DEFINITION. Which instructions can be presented: the list bounds of spec/00_scope.md R7 (D4), and, for the wire
layout of a single write, that its two bytes are not those of a strobe (spec/30_encoding.md R95). -/

namespace Sys2Proof

open Sys2Proof.Config

/-- The operands a command port can carry (R28, R86): list lengths within the bounds of R7. -/
def Command.wf : Command → Bool
  | .strobe _ => true
  | .writeSingle _ _ => true
  | .readSingle _ => true
  | .writeBurst _ data => decide (data.length ≤ maxWBurst)
  | .readBurst _ length => decide (length ≤ maxRBurst)
  | .frameTx payload _ => decide (payload.length ≤ maxPayloadBits)
  | .decodeRx raw => decide (raw.length ≤ maxRaw)
  | .reserved7 => true

/-- A well-formed instruction: one that some presented word stands for. -/
def Instr.wf : Instr → Bool
  | .wireWriteSingle addr value => !(Machine.isStrobeCode addr && decide (value = filler))
  | .wireWriteBurst _ data => decide (data.length ≤ maxWBurst)
  | .wireReadSingle _ => true
  | .wireReadBurst _ length => decide (length ≤ maxRBurst)
  | .sReset => true
  | .sFstxon => true
  | .sXoff => true
  | .sCal => true
  | .sRx => true
  | .sTx => true
  | .sIdle => true
  | .s37 => true
  | .sWor => true
  | .sPwd => true
  | .sFlushRx => true
  | .sFlushTx => true
  | .sWorrst => true
  | .sNop => true
  | .strobe _ => true
  | .writeSingle _ _ => true
  | .readSingle _ => true
  | .writeBurst _ data => decide (data.length ≤ maxWBurst)
  | .readBurst _ length => decide (length ≤ maxRBurst)
  | .frameTx payload _ => decide (payload.length ≤ maxPayloadBits)
  | .decodeRx raw => decide (raw.length ≤ maxRaw)
  | .reserved7 => true

/-- The command of R86 that an instruction names: a named strobe is STROBE with its code (R142 to R155), a wire layout
is the command that puts it on the bus (R91). -/
def Instr.command : Instr → Command
  | .wireWriteSingle addr value => .writeSingle addr value
  | .wireWriteBurst addr data => .writeBurst addr data
  | .wireReadSingle addr => .readSingle addr
  | .wireReadBurst addr length => .readBurst addr length
  | .sReset => .strobe 0x30#6
  | .sFstxon => .strobe 0x31#6
  | .sXoff => .strobe 0x32#6
  | .sCal => .strobe 0x33#6
  | .sRx => .strobe 0x34#6
  | .sTx => .strobe 0x35#6
  | .sIdle => .strobe 0x36#6
  | .s37 => .strobe 0x37#6
  | .sWor => .strobe 0x38#6
  | .sPwd => .strobe 0x39#6
  | .sFlushRx => .strobe 0x3A#6
  | .sFlushTx => .strobe 0x3B#6
  | .sWorrst => .strobe 0x3C#6
  | .sNop => .strobe 0x3D#6
  | .strobe code => .strobe code
  | .writeSingle addr value => .writeSingle addr value
  | .readSingle addr => .readSingle addr
  | .writeBurst addr data => .writeBurst addr data
  | .readBurst addr length => .readBurst addr length
  | .frameTx payload sync => .frameTx payload sync
  | .decodeRx raw => .decodeRx raw
  | .reserved7 => .reserved7

end Sys2Proof
end

