-- ==== Sys2Proof/Decode.lean ====
section
/-! DEFINITION. Reading a presented word as an instruction, total on any bytes and rejecting by name, and after it the
encoder. The format HDR is the wire layout of spec/30_encoding.md R80 to R85 and R91; the format CMD is the command
port of R86, whose operand bytes after the table's word are the model's own layout (log 2). A word is read whole: every
byte of it has a meaning. -/

namespace Sys2Proof

open Sys2Proof.Config
open Sys2Proof.Machine

/-- Why a presented word is no instruction. -/
inductive DecodeError where
  /-- No byte at all. -/
  | empty
  /-- Fewer bytes than the instruction's operands need. -/
  | truncated
  /-- More bytes than the instruction has. -/
  | trailingBytes
  /-- A bit is set above a 3-bit `op`, above a 6-bit operand, or after the last payload bit. -/
  | reservedBits
  /-- A list operand longer than its bound (R7: it cannot be presented, D4). -/
  | tooLong
  /-- The second byte of a strobe-less single read is not the zero filler (R83). -/
  | badFiller
  /-- A later byte of a burst read is not its address byte (R85, R126). -/
  | badBurstAddress
  deriving DecidableEq, Repr, Inhabited

/-- What decoding answers. -/
inductive Decoded where
  | instr (i : Instr)
  | rejected (e : DecodeError)
  deriving DecidableEq, Repr, Inhabited

/-- The strobe a code names (R142 to R155), none outside `0x30` to `0x3D`. -/
def namedStrobe (code : Addr) : Option Instr :=
  match code.toNat with
  | 0x30 => some .sReset
  | 0x31 => some .sFstxon
  | 0x32 => some .sXoff
  | 0x33 => some .sCal
  | 0x34 => some .sRx
  | 0x35 => some .sTx
  | 0x36 => some .sIdle
  | 0x37 => some .s37
  | 0x38 => some .sWor
  | 0x39 => some .sPwd
  | 0x3A => some .sFlushRx
  | 0x3B => some .sFlushTx
  | 0x3C => some .sWorrst
  | 0x3D => some .sNop
  | _ => none

/-- Reads a word that has exactly one operand byte. -/
def oneByte (rest : List Byte) (k : Byte → Decoded) : Decoded :=
  match rest with
  | [] => .rejected .truncated
  | [a] => k a
  | _ :: _ :: _ => .rejected .trailingBytes

/-- Reads a word that has exactly two operand bytes. -/
def twoBytes (rest : List Byte) (k : Byte → Byte → Decoded) : Decoded :=
  match rest with
  | [] => .rejected .truncated
  | [_] => .rejected .truncated
  | [a, b] => k a b
  | _ :: _ :: _ :: _ => .rejected .trailingBytes

/-- Reads a 6-bit operand from a byte whose bits 7:6 must be 0. -/
def sixBits (b : Byte) (k : Addr → Decoded) : Decoded :=
  if b.toNat < 64 then k (b.setWidth 6) else .rejected .reservedBits

/-- Reads a list of exactly `n` bytes. -/
def exactly (n : Nat) (bs : List Byte) (k : List Byte → Decoded) : Decoded :=
  if bs.length < n then .rejected .truncated
  else if n < bs.length then .rejected .trailingBytes
  else k bs

/-- A 16-bit number from its two bytes, the high one first (log 2). -/
def word16 (hi lo : Byte) : Nat :=
  256 * hi.toNat + lo.toNat

/-- The bytes of FRAME_TX's payload: the bits packed as in a frame, the last byte filled up with zeros (log 2). -/
def packPayload (payload : List Bit) : List Byte :=
  packBits (payload ++ List.replicate ((8 - payload.length % 8) % 8) false)

/-- The operands of WRITE_BURST: address, count, data bytes. -/
def decodeWriteBurst (rest : List Byte) : Decoded :=
  match rest with
  | a :: n :: data => sixBits a fun addr => exactly n.toNat data fun data => .instr (.writeBurst addr data)
  | _ => .rejected .truncated

/-- The operands of FRAME_TX: sync word, bit count, payload bits. -/
def decodeFrameTx (rest : List Byte) : Decoded :=
  match rest with
  | sh :: sl :: lh :: ll :: packed =>
    exactly ((word16 lh ll + 7) / 8) packed fun packed =>
      if ((unpackBytes packed).drop (word16 lh ll)).any id then .rejected .reservedBits
      else .instr (.frameTx ((unpackBytes packed).take (word16 lh ll)) (BitVec.ofNat 16 (word16 sh sl)))
  | _ => .rejected .truncated

/-- The operands of DECODE_RX: count, raw bytes. -/
def decodeDecodeRx (rest : List Byte) : Decoded :=
  match rest with
  | mh :: ml :: raw =>
    if maxRaw < word16 mh ml then .rejected .tooLong
    else exactly (word16 mh ml) raw fun raw => .instr (.decodeRx raw)
  | _ => .rejected .truncated

/-- Reads a word of format CMD: `op` in bits 2:0 of the first byte, then the operands (R86). -/
def decodeCmd (bytes : List Byte) : Decoded :=
  match bytes with
  | [] => .rejected .empty
  | op :: rest =>
    match op.toNat with
    | 0 => oneByte rest fun c => sixBits c fun code => .instr (.strobe code)
    | 1 => twoBytes rest fun a v => sixBits a fun addr => .instr (.writeSingle addr v)
    | 2 => oneByte rest fun a => sixBits a fun addr => .instr (.readSingle addr)
    | 3 => decodeWriteBurst rest
    | 4 => twoBytes rest fun a n => sixBits a fun addr => .instr (.readBurst addr n.toNat)
    | 5 => decodeFrameTx rest
    | 6 => decodeDecodeRx rest
    | 7 => if rest.isEmpty then .instr .reserved7 else .rejected .trailingBytes
    | _ => .rejected .reservedBits

/-- Two bytes with mode bits `00`: a strobe, or a single write (R91, R95). DESIGN CHOICE (log 12): the two bytes a strobe
and a single write of 0 share are read as the strobe. -/
def decodeSingleWrite (addr : Addr) (value : Byte) : Decoded :=
  if value = filler then
    match namedStrobe addr with
    | some i => .instr i
    | none => .instr (.wireWriteSingle addr value)
  else .instr (.wireWriteSingle addr value)

/-- Reads a word of format HDR: a header byte and the bytes that follow it on the wire (R81 to R85, R91). -/
def decodeHdr (bytes : List Byte) : Decoded :=
  match bytes with
  | [] => .rejected .empty
  | h :: rest =>
    match headerMode h with
    | .writeSingle => oneByte rest fun value => decodeSingleWrite (headerAddr h) value
    | .writeBurst =>
      if maxWBurst < rest.length then .rejected .tooLong
      else .instr (.wireWriteBurst (headerAddr h) rest)
    | .readSingle =>
      oneByte rest fun f =>
        if f = filler then .instr (.wireReadSingle (headerAddr h)) else .rejected .badFiller
    | .readBurst =>
      if maxRBurst < rest.length then .rejected .tooLong
      else if rest = (burstBytes (headerAddr h) rest.length).tail then
        .instr (.wireReadBurst (headerAddr h) rest.length)
      else .rejected .badBurstAddress

/-- Reads a presented word. -/
def decode (w : PortWord) : Decoded :=
  match w.fmt with
  | .cmd => decodeCmd w.bytes
  | .hdr => decodeHdr w.bytes

/-! The encoder. -/

/-- A 6-bit operand in a byte of its own. -/
def addrByte (a : Addr) : Byte :=
  a.setWidth 8

/-- The high byte of a 16-bit number. -/
def highByte (n : Nat) : Byte :=
  BitVec.ofNat 8 (n / 256)

/-- The low byte of a number. -/
def lowByte (n : Nat) : Byte :=
  BitVec.ofNat 8 n

/-- A word of format CMD. -/
def cmdWord (op : Nat) (operands : List Byte) : PortWord :=
  ⟨.cmd, BitVec.ofNat 8 op :: operands⟩

/-- The wire layout TXN.STROBE of a code (R81). -/
def strobeWord (code : Addr) : PortWord :=
  ⟨.hdr, [encodeHeader code .writeSingle, filler]⟩

/-- The word of an instruction, from the layouts of R80 to R86. -/
def encode (i : Instr) : PortWord :=
  match i with
  | .wireWriteSingle addr value => ⟨.hdr, [encodeHeader addr .writeSingle, value]⟩
  | .wireWriteBurst addr data => ⟨.hdr, encodeHeader addr .writeBurst :: data⟩
  | .wireReadSingle addr => ⟨.hdr, [encodeHeader addr .readSingle, filler]⟩
  | .wireReadBurst addr length => ⟨.hdr, burstBytes addr length⟩
  | .sReset => strobeWord 0x30#6
  | .sFstxon => strobeWord 0x31#6
  | .sXoff => strobeWord 0x32#6
  | .sCal => strobeWord 0x33#6
  | .sRx => strobeWord 0x34#6
  | .sTx => strobeWord 0x35#6
  | .sIdle => strobeWord 0x36#6
  | .s37 => strobeWord 0x37#6
  | .sWor => strobeWord 0x38#6
  | .sPwd => strobeWord 0x39#6
  | .sFlushRx => strobeWord 0x3A#6
  | .sFlushTx => strobeWord 0x3B#6
  | .sWorrst => strobeWord 0x3C#6
  | .sNop => strobeWord 0x3D#6
  | .strobe code => cmdWord 0 [addrByte code]
  | .writeSingle addr value => cmdWord 1 [addrByte addr, value]
  | .readSingle addr => cmdWord 2 [addrByte addr]
  | .writeBurst addr data => cmdWord 3 (addrByte addr :: lowByte data.length :: data)
  | .readBurst addr length => cmdWord 4 [addrByte addr, lowByte length]
  | .frameTx payload sync =>
    cmdWord 5 (highByte sync.toNat :: lowByte sync.toNat :: highByte payload.length :: lowByte payload.length ::
      packPayload payload)
  | .decodeRx raw => cmdWord 6 (highByte raw.length :: lowByte raw.length :: raw)
  | .reserved7 => cmdWord 7 []

/-! The opcode table's own words. -/

/-- One row of spec/opcode_table.json: its format, and the `mask` and `match` of its first byte. -/
structure Row where
  fmt : Format
  mask : Byte
  pattern : Byte
  deriving DecidableEq, Repr, Inhabited

/-- The row of spec/opcode_table.json that an instruction stands for. -/
def Instr.row : Instr → Row
  | .wireWriteSingle _ _ => ⟨.hdr, 0xC0#8, 0x00#8⟩
  | .wireWriteBurst _ _ => ⟨.hdr, 0xC0#8, 0x40#8⟩
  | .wireReadSingle _ => ⟨.hdr, 0xC0#8, 0x80#8⟩
  | .wireReadBurst _ _ => ⟨.hdr, 0xC0#8, 0xC0#8⟩
  | .sReset => ⟨.hdr, 0xFF#8, 0x30#8⟩
  | .sFstxon => ⟨.hdr, 0xFF#8, 0x31#8⟩
  | .sXoff => ⟨.hdr, 0xFF#8, 0x32#8⟩
  | .sCal => ⟨.hdr, 0xFF#8, 0x33#8⟩
  | .sRx => ⟨.hdr, 0xFF#8, 0x34#8⟩
  | .sTx => ⟨.hdr, 0xFF#8, 0x35#8⟩
  | .sIdle => ⟨.hdr, 0xFF#8, 0x36#8⟩
  | .s37 => ⟨.hdr, 0xFF#8, 0x37#8⟩
  | .sWor => ⟨.hdr, 0xFF#8, 0x38#8⟩
  | .sPwd => ⟨.hdr, 0xFF#8, 0x39#8⟩
  | .sFlushRx => ⟨.hdr, 0xFF#8, 0x3A#8⟩
  | .sFlushTx => ⟨.hdr, 0xFF#8, 0x3B#8⟩
  | .sWorrst => ⟨.hdr, 0xFF#8, 0x3C#8⟩
  | .sNop => ⟨.hdr, 0xFF#8, 0x3D#8⟩
  | .strobe _ => ⟨.cmd, 0x07#8, 0x00#8⟩
  | .writeSingle _ _ => ⟨.cmd, 0x07#8, 0x01#8⟩
  | .readSingle _ => ⟨.cmd, 0x07#8, 0x02#8⟩
  | .writeBurst _ _ => ⟨.cmd, 0x07#8, 0x03#8⟩
  | .readBurst _ _ => ⟨.cmd, 0x07#8, 0x04#8⟩
  | .frameTx _ _ => ⟨.cmd, 0x07#8, 0x05#8⟩
  | .decodeRx _ => ⟨.cmd, 0x07#8, 0x06#8⟩
  | .reserved7 => ⟨.cmd, 0x07#8, 0x07#8⟩

/-- How many bytes a word has whose operands are all zero and whose lists are empty. -/
def zeroLength (fmt : Format) (first : Byte) : Nat :=
  match fmt with
  | .cmd =>
    match first.toNat with
    | 0 => 2
    | 1 => 3
    | 2 => 2
    | 3 => 3
    | 4 => 3
    | 5 => 5
    | 6 => 3
    | _ => 1
  | .hdr =>
    match headerMode first with
    | .writeSingle => 2
    | .writeBurst => 1
    | .readSingle => 2
    | .readBurst => 1

/-- The presented word whose bits are `w`, as the opcode table numbers them: the first byte is the table's word, the
operands above it are zero. The numbers 0 to 7 are words of both formats of the table (an `op`, and the header of a
single write to addresses 0 to 7); they are read as an `op` (log 3). -/
def tableWord (nbits w : Nat) : PortWord :=
  let first : Byte := BitVec.ofNat 8 w
  let fmt : Format := if nbits < 8 ∨ w < 8 then .cmd else .hdr
  let given : List Byte := (List.range (nbits / 8 - 1)).map fun k => BitVec.ofNat 8 (w / 256 ^ (k + 1))
  let bytes := first :: given
  ⟨fmt, bytes ++ List.replicate (zeroLength fmt first - bytes.length) 0x00#8⟩

/-- The instruction the decoder reads from the table's bits `w`, none where it rejects them. -/
def decodeTableWord (nbits w : Nat) : Option Instr :=
  match decode (tableWord nbits w) with
  | .instr i => some i
  | .rejected _ => none

end Sys2Proof
end

