-- ==== Sys2Proof/Machine/State.lean ====
section
/-! DEFINITION. The state of the machine: every element spec/10_state.md gives the FRAMER (R21 to R28), the inputs the
environment holds for it (R28 reset input and command port, R36 pin, R110 the CHIP's answers), the HOST agent
(spec/44_host_sequences.md), and the OPEN parameters (R7); the reasons a step can stop; and the state after reset. -/

namespace Sys2Proof.Machine

open Sys2Proof.Config

/-- The sequencer's phase (R21). -/
inductive Phase where
  | idle
  | select
  | xfer
  | release
  | done
  deriving DecidableEq, Repr, Inhabited

/-- The select signal (R22). -/
inductive Sel where
  | asserted
  | released
  deriving DecidableEq, Repr, Inhabited

/-! The HOST agent. -/

/-- The HOST's two modes (R182, R236). -/
inductive RadioMode where
  | rx
  | tx
  deriving DecidableEq, Repr, Inhabited

/-- The two externally supplied profiles, each an APPLY_CONFIG table (R182). -/
structure Profiles where
  rx : List (Addr × Byte)
  tx : List (Addr × Byte)
  deriving DecidableEq, Repr, Inhabited

/-- A parameter the configuration loader sets before packets, beside the profile (R181, R182, R235 (3) and (4)). -/
inductive LinkPart where
  | frequency
  | syncWord
  | packetLength
  | powerRamp
  deriving DecidableEq, Repr, Inhabited

/-- What R235 asks for before a path, beside the profile: which of it has been done. -/
structure Preparation where
  /-- (1): the CHIP was brought to a known state. -/
  knownState : Bool
  /-- (3). -/
  frequency : Bool
  syncWord : Bool
  packetLength : Bool
  /-- (4). -/
  powerRamp : Bool
  deriving DecidableEq, Repr, Inhabited

/-- Nothing has been done. -/
def Preparation.nothing : Preparation :=
  ⟨false, false, false, false, false⟩

/-- A sequence the HOST can run: a single command, or a pseudo-instruction of R100. -/
inductive HostSeq where
  /-- One command of the block. -/
  | command (i : Instr)
  /-- `APPLY_CONFIG table` (R180). -/
  | applyConfig (table : List (Addr × Byte))
  /-- Recovery: `S_RESET`, then the whole table (R183). -/
  | recover (table : List (Addr × Byte))
  /-- `APPLY_CONFIG` of a mode's profile (R182, R236). -/
  | applyProfile (mode : RadioMode)
  /-- Recovery with a mode's profile as the table (R183, R235). -/
  | recoverProfile (mode : RadioMode)
  /-- `SET_FREQUENCY target, offset` (R181). -/
  | setFrequency (targetHz : Nat) (offsetHz : Int)
  /-- Write the 16-bit sync word to its CHIP registers (R182). -/
  | setSyncWord (sync : SyncWord)
  /-- Write the packet length to its CHIP register (R182). -/
  | setPacketLength (n : Byte)
  /-- Load the power-ramp table, eight bytes (R182). -/
  | loadPowerRamp (table : Vector Byte 8)
  /-- `READ_STATE` (R184). -/
  | readState
  /-- `READ_TXBYTES` (R185). -/
  | readTxBytes
  /-- `WAIT_IDLE` (R186). -/
  | waitIdle
  /-- `WAIT_PIN_HIGH` and `WAIT_PIN_LOW` (R187). -/
  | waitPin (level : Bool)
  /-- `RX_PATH packetLength` (R189). -/
  | rxPath (packetLength : Nat)
  /-- `TX_PATH payload, sync` (R191). -/
  | txPath (payload : List Bit) (sync : SyncWord)
  deriving DecidableEq, Repr, Inhabited

/-- What the HOST reports of a sequence. -/
inductive HostReport where
  | success
  /-- The result of a single command. -/
  | result (r : Result)
  /-- The sequence failed (R201 to R209 surface to the caller). -/
  | failed (f : Failure)
  /-- TX path: the byte count read last is not zero (R191, line 14). -/
  | residualBytes (pending : Byte)
  /-- The frequency word does not fit 24 bits (R181). -/
  | frequencyOutOfRange
  /-- `READ_STATE`'s value (R184). -/
  | marcState (v : Byte)
  /-- `READ_TXBYTES`'s value (R185). -/
  | txPending (v : Byte)
  /-- The received packet's bits (R190). -/
  | packet (bits : List Bit)
  /-- The command exceeds the bounds of R7: it cannot be presented (D4) and was not (log 12). -/
  | notPresentable (i : Instr)
  /-- The sequence would use the CHIP while its configuration is in doubt (R239), or is a path that R235's preparation has
  not come before: it was not begun (logs 20, 23). -/
  | withheld (seq : HostSeq)
  deriving DecidableEq, Repr, Inhabited

/-- One line of a HOST sequence. -/
inductive HostOp where
  /-- Present a command and report its result. -/
  | command (i : Instr)
  /-- Present a command inside a sequence; its result is dropped unless it is a failure. -/
  | quiet (i : Instr)
  /-- Present a command of the configuration loader outside APPLY_CONFIG: a byte of the frequency or sync word, the
  packet length, the power-ramp table, a recovery's `S_RESET` (R181 to R183). A failure is reported as it is and leaves
  the CHIP's configuration in doubt. -/
  | loader (i : Instr)
  /-- One WRITE_SINGLE of a configuration table; a failure is PartialConfigFailure (R180). -/
  | configWrite (addr : Addr) (value : Byte)
  /-- `repeat READ_STATE until = 0x01`, with the reads still allowed (R186, R193). -/
  | pollIdle (left : Nat)
  /-- `repeat READ_TXBYTES until = 0`, with the reads still allowed (R191, R193). -/
  | pollDrained (left : Nat)
  /-- Read the pin until it has the level, with the reads still allowed (R187, R193). -/
  | pollPin (level : Bool) (left : Nat)
  | readState
  | readTxBytes
  /-- `delay T_SETTLE` (R194). -/
  | settle
  /-- TX path line 1 (R191). -/
  | frame (payload : List Bit) (sync : SyncWord)
  /-- TX path line 2: the framed length to `PKTLEN_ADDR`. -/
  | writePacketLength
  /-- TX path line 7: the frame to the FIFO. -/
  | loadFrame
  /-- RX path line 7: the burst from the FIFO (R189). -/
  | readPacket (packetLength : Nat)
  /-- RX path line 11. -/
  | decodePacket
  /-- TX path lines 13 and 14. -/
  | verifyDrained
  /-- The end of `APPLY_CONFIG` (R180): the whole table is written, and whose profile it is, if it is one. -/
  | configDone (profile : Option RadioMode)
  /-- The end of a sequence of the configuration loader outside APPLY_CONFIG (R181, R182): the parameter is set. -/
  | loaderDone (part : LinkPart)
  | report (r : HostReport)
  deriving DecidableEq, Repr, Inhabited

/-- What the HOST may do with the CHIP after a configuration that stopped part way (R183, R239). -/
inductive ConfigTrust where
  /-- Nothing has failed, or everything has been recovered. -/
  | trusted
  /-- The configuration is in doubt: an `S_RESET` must come first. -/
  | needsReset
  /-- `S_RESET` has been done: a complete `APPLY_CONFIG` must follow. -/
  | needsTable
  deriving DecidableEq, Repr, Inhabited

/-- The HOST's own state: what it has still to do and what it holds between commands. -/
structure HostState where
  /-- Sequences not yet begun, first one first. -/
  queue : List HostSeq
  /-- The rest of the sequence running. -/
  ops : List HostOp
  /-- A command was presented for the head of `ops` and its result has not been taken. -/
  waiting : Bool
  /-- What FRAME_TX returned (R191, line 1). -/
  frame : List Byte
  frameLen : Nat
  /-- What READ_BURST returned (R189, line 7). -/
  raw : List Byte
  /-- The result taken last (R116, phase DONE). -/
  taken : Option Result
  /-- The reports, oldest first. -/
  reports : List HostReport
  /-- Whether the CHIP's configuration is in doubt (R183, R239). -/
  trust : ConfigTrust
  /-- The two profiles the HOST has been given (R182). -/
  profiles : Profiles
  /-- The mode whose profile was applied last and is in force, if one is (R236). -/
  mode : Option RadioMode
  /-- What has been done of the rest of R235's preparation (log 23). -/
  prepared : Preparation
  deriving DecidableEq, Repr, Inhabited

/-- The HOST with nothing to do. -/
def HostState.start : HostState where
  queue := []
  ops := []
  waiting := false
  frame := []
  frameLen := 0
  raw := []
  taken := none
  reports := []
  trust := .trusted
  profiles := ⟨[], []⟩
  mode := none
  prepared := .nothing

/-! The machine. -/

/-- The state. The first eight fields are the FRAMER (R21 to R28). -/
structure State where
  /-- `phase` (R21). -/
  phase : Phase
  /-- `SEL` (R22). -/
  sel : Sel
  /-- `idx` (R23). -/
  idx : Nat
  /-- `TXBUF` (R24). -/
  txbuf : List Byte
  /-- `RXBUF` (R25). -/
  rxbuf : List Byte
  /-- `BITBUF` (R26). -/
  bitbuf : List Bit
  /-- `RESULT` (R27). -/
  result : Result
  /-- The operand latch `OP` (R28). -/
  op : Command
  /-- The command port (R28): the word the HOST presents; `cmd_valid` is its presence. DESIGN CHOICE (log 21): a word
  that is not accepted stays here until it is. -/
  port : Option PortWord
  /-- The reset input `rst` (R28, R230), one entry a step, first one first; released when the list is used up. -/
  rst : List Bool
  /-- The HOST agent (R9). -/
  host : HostState
  /-- Answers the CHIP is known to give, first one first (`none`: the exchange fails). When the list is used up the
  answer is the free value `Config.chipAnswer`. The model's own field (log 5). -/
  answers : List (Option Byte)
  /-- Levels of the pin the HOST is known to read, first one first; after them `Config.pinLevel`. The model's own
  field (log 6). -/
  pinLevels : List Bool
  /-- Everything that happened on the bus port, oldest first: what the oracle of R110 may see. -/
  bus : List BusEvent
  /-- Counter that makes each free value fresh. The model's own field (logs 6, 7). -/
  draws : Nat
  /-- The OPEN parameters (R7). -/
  params : Params
  deriving DecidableEq, Repr, Inhabited

/-- The machine stops: the spec gives it no step. No instruction raises one, and no state that keeps
`Safety.FramerInv` does. -/
inductive Fault where
  /-- Raised by the sequencer in `XFER` with `idx ≥ len(TXBUF)`, for which R116 has no step. Safe. -/
  | noByteLeft
  /-- Raised by the sequencer in `RELEASE` when the command's result cannot be computed from `RXBUF` (R101): a response
  byte is missing or the command is no bus command. Safe. -/
  | noBusResult
  deriving DecidableEq, Repr, Inhabited

/-- No meaning. -/
inductive Refusal where
  /-- Raised by `exec` for an instruction that is rejected by name. Safe. -/
  | notModelled (mnemonic : String)
  /-- Raised by `step` when the presented word is no instruction: such a word cannot be presented at the port of R28
  (D4). Safe. -/
  | undecodable (e : DecodeError)
  deriving DecidableEq, Repr, Inhabited

/-- The state after reset (R39, R230). `phase` and `SEL` are the spec's; the elements R39 leaves unspecified hold the
values of log 8, the parameters those of log 9, and nothing is presented, scripted or past. -/
def State.reset : State where
  phase := .idle
  sel := .released
  idx := 0
  txbuf := []
  rxbuf := []
  bitbuf := []
  result := .okNone
  op := .reserved7
  port := none
  rst := []
  host := HostState.start
  answers := []
  pinLevels := []
  bus := []
  draws := 0
  params := defaultParams

end Sys2Proof.Machine
end

