-- ==== Sys2Proof/Machine/Flags.lean ====
section
/-! DEFINITION. The status outputs and port views (spec/10_state.md R28, R31): the FRAMER has no flag register, and
these are functions of the state, none of them sticky. -/

namespace Sys2Proof.Machine

/-- Whether a result is a failure, `err(_)` (R27). -/
def isErr : Result → Bool
  | .err _ => true
  | _ => false

/-- The reset input in the coming step (R28). -/
def rstAsserted (s : State) : Bool :=
  s.rst.head?.getD false

/-- `busy = (phase != IDLE)` (R31). -/
def busy (s : State) : Bool :=
  decide (s.phase ≠ .idle)

/-- `err = (phase = DONE and RESULT = err(_))` (R31). -/
def errOut (s : State) : Bool :=
  decide (s.phase = .done) && isErr s.result

/-- `cmd_ready = (phase = IDLE)` (R28), true once `rst` is released (R39). -/
def cmdReady (s : State) : Bool :=
  decide (s.phase = .idle) && !rstAsserted s

/-- `cmd_valid` (R28): the HOST presents a command. -/
def cmdValid (s : State) : Bool :=
  s.port.isSome

/-- `res_valid = (phase = DONE)` (R28). -/
def resValid (s : State) : Bool :=
  decide (s.phase = .done)

/-- What may be read on the result port: `RESULT` in `DONE`, nothing in any other phase (R27). -/
def resultPort (s : State) : Option Result :=
  if s.phase = .done then some s.result else none

/-- The output `FRAME_LEN` (R27, R160), present with FRAME_TX's result. -/
def frameLenOut (s : State) : Option Nat :=
  match resultPort s with
  | some (.okFrame _ n) => some n
  | _ => none

/-- The electrical level of the select signal (R22). -/
def selLevel (s : State) : Bool :=
  match s.sel with
  | .asserted => s.params.selActiveLevel
  | .released => !s.params.selActiveLevel

/-- The failure codes of R200. -/
def failureCode : Failure → Nat
  | .transportFailure => 1
  | .protocolTimeout => 2
  | .partialConfigFailure => 3
  | .frameOverflow _ => 4
  | .frameNotByteAligned _ => 5
  | .illegalStrobe _ => 6
  | .burstAddressOverflow _ => 7
  | .emptyBurst => 8
  | .illegalCommand => 9

/-- The code of a result: 0 for `ok` (R200). -/
def resultCode : Result → Nat
  | .err f => failureCode f
  | _ => 0

end Sys2Proof.Machine
end

