-- ==== Sys2Proof/Machine/Ops.lean ====
section
/-! DEFINITION. The named operations every meaning and every sequencer step is made of: accepting a command, starting a
transaction, completing without the bus, failing (the hardware's only exception, spec/60_exceptions.md R213), the
return to `IDLE` beside it (R215), one byte exchange (spec/40_bus_transaction.md R116), and the reset input (R230). -/

namespace Sys2Proof.Machine

open Sys2Proof.Config

/-- A step's answer. -/
abbrev Answer := Host.Outcome State Fault Refusal

/-- Acceptance (R28, R115): a command is accepted only in `IDLE`; presented in any other phase it is not accepted, and
that is no failure and changes nothing. -/
def accept (s : State) (k : State → State) : Answer :=
  if s.phase = .idle then .next (k s) else .next s

/-- Starts a transaction (R116, first case; R111): the operands are latched, `TXBUF` is complete, `RXBUF` is empty,
`idx` is 0, the select signal is asserted. `RESULT` is set to no failure, so that `RELEASE` sees only a failure of this
transaction (log 4). -/
def startTransaction (c : Command) (tx : List Byte) (s : State) : State :=
  { s with
    op := c
    txbuf := tx
    rxbuf := []
    idx := 0
    sel := .asserted
    phase := .select
    result := .okNone
    bus := s.bus ++ [.select] }

/-- Latches the operands of an accepted command that does not use the bus (R28). -/
def latch (c : Command) (s : State) : State :=
  { s with op := c }

/-- Completes an accepted command without the bus (R116, last case). -/
def complete (r : Result) (s : State) : State :=
  { s with result := r, phase := .done }

/-- Writes the working bit sequence (R26). -/
def setBits (bits : List Bit) (s : State) : State :=
  { s with bitbuf := bits }

/-- `raise F(info)` (R213), the one way a command fails: `RESULT` is `err`, and the sequencer goes to `DONE`, through
`RELEASE` if the select signal is asserted. -/
def raise (f : Failure) (s : State) : State :=
  match s.sel with
  | .asserted => { s with result := .err f, phase := .release }
  | .released => { s with result := .err f, phase := .done }

/-- The HOST has taken the result and the sequencer is idle again (R116, phase DONE; R215: the only return there is). -/
def returnToIdle (s : State) : State :=
  { s with phase := .idle }

/-- Asserted select is released, and the bus sees it (R112). -/
def releaseSelect (s : State) : State :=
  { s with sel := .released, bus := s.bus ++ [.release] }

/-- The CHIP's answer to a byte (R110, R116 `BusByte`): the next known answer, or the free value. -/
def chipAnswers (b : Byte) (s : State) : Option Byte :=
  match s.answers with
  | a :: _ => a
  | [] => chipAnswer s.bus b

/-- A known answer is given once. -/
def dropAnswer (s : State) : State :=
  { s with answers := s.answers.tail }

/-- A successful exchange (R116, `XFER`, `ok(r)`): the response is appended, `idx` moves on, and after the last byte the
phase is `RELEASE`. -/
def recordExchange (b r : Byte) (s : State) : State :=
  { s with
    rxbuf := s.rxbuf ++ [r]
    idx := s.idx + 1
    phase := if s.idx + 1 = s.txbuf.length then .release else .xfer
    bus := s.bus ++ [.exchange b r] }

/-- A failed exchange as the bus sees it (R114). -/
def recordBroken (b : Byte) (s : State) : State :=
  { s with bus := s.bus ++ [.broken b] }

/-- The result of a bus command from `RXBUF` (R101): both bytes of a strobe, nothing of a write, the second byte of a
single read, every byte of a burst read. -/
def busResult (c : Command) (rx : List Byte) : Option Result :=
  match c with
  | .strobe _ => some (.okBytes rx)
  | .writeSingle _ _ => some .okNone
  | .readSingle _ => rx[1]?.map Result.okByte
  | .writeBurst _ _ => some .okNone
  | .readBurst _ _ => some (.okBytes rx)
  | .frameTx _ _ => none
  | .decodeRx _ => none
  | .reserved7 => none

/-- The reset input moves on by one step. -/
def tick (s : State) : State :=
  { s with rst := s.rst.tail }

/-- Takes the word off the command port (R28: it was accepted). -/
def takePort (s : State) : State :=
  { s with port := none }

/-- The word presented at the command port. -/
def fetchWord (s : State) : Option PortWord :=
  s.port

/-- `rst` asserted (R38, R39, R230, R231): `phase` is `IDLE`, an asserted select signal is released at once, no result
is delivered; the other elements are unspecified, so they hold a free value. The CHIP and the HOST are not reset (R40,
R232). DESIGN CHOICE (log 21): a word at the port that was not yet accepted stays there. -/
def resetFramer (s : State) : State :=
  { s with
    phase := .idle
    sel := .released
    idx := (afterReset s.draws).idx
    txbuf := (afterReset s.draws).txbuf
    rxbuf := (afterReset s.draws).rxbuf
    bitbuf := (afterReset s.draws).bitbuf
    result := (afterReset s.draws).result
    op := (afterReset s.draws).op
    bus := match s.sel with
      | .asserted => s.bus ++ [.release]
      | .released => s.bus
    draws := s.draws + 1 }

/-- Presents a word so that the very next step accepts it: the block idle, the reset input released. -/
def placeWord (w : PortWord) (s : State) : State :=
  { s with phase := .idle, sel := .released, port := some w, rst := [] }

end Sys2Proof.Machine
end

