-- ==== Sys2Proof/Machine/PacketFramer.lean ====
section
/-! DEFINITION. The packet bit-framer (spec/43_packet_framer.md) and the reserved `op` = 7 (spec/30_encoding.md R93).
None of them touches the bus: each goes from `IDLE` to `DONE` in one step. -/

namespace Sys2Proof.Machine

/-- FRAME_TX (R160): overflow is checked first (R162), then alignment (R163); an accepted payload gives the frame bytes
and `FRAME_LEN`. -/
def execFrameTx (payload : List Bit) (sync : SyncWord) (s : State) : Answer :=
  accept s fun s =>
    if frameOverflows payload.length then
      raise (.frameOverflow payload.length) (latch (.frameTx payload sync) s)
    else if frameMisaligned payload.length then
      raise (.frameNotByteAligned payload.length) (latch (.frameTx payload sync) s)
    else
      complete
        (.okFrame (packBits (frameBits payload sync)) ((frameBits payload sync).length / 8))
        (setBits (frameBits payload sync) (latch (.frameTx payload sync) s))

/-- DECODE_RX (R167): an empty list is rejected (R168), otherwise the bits of every byte but the first. -/
def execDecodeRx (raw : List Byte) (s : State) : Answer :=
  accept s fun s =>
    if raw.isEmpty then raise .emptyBurst (latch (.decodeRx raw) s)
    else complete (.okBits (decodedBits raw)) (setBits (decodedBits raw) (latch (.decodeRx raw) s))

/-- `op` = 7 (R93): accepted, and fails at once with IllegalCommand. -/
def execReserved7 (s : State) : Answer :=
  accept s fun s => raise .illegalCommand (latch .reserved7 s)

end Sys2Proof.Machine
end

