-- ==== Sys2Proof/Machine/RegisterAccess.lean ====
section
/-! DEFINITION. The register access commands (spec/41_register_access.md). Each builds `TXBUF` whole and starts one
transaction (R120); the result is taken from `RXBUF` in `RELEASE` (R101, `busResult`). -/

namespace Sys2Proof.Machine

open Sys2Proof.Config

/-- WRITE_SINGLE's transaction (R122, layout R82). -/
def startWriteSingle (addr : Addr) (value : Byte) (s : State) : State :=
  startTransaction (.writeSingle addr value) [encodeHeader addr .writeSingle, value] s

/-- READ_SINGLE's transaction (R123, layout R83). -/
def startReadSingle (addr : Addr) (s : State) : State :=
  startTransaction (.readSingle addr) [encodeHeader addr .readSingle, filler] s

/-- WRITE_BURST's transaction (R124, layout R84). -/
def startWriteBurst (addr : Addr) (data : List Byte) (s : State) : State :=
  startTransaction (.writeBurst addr data) (encodeHeader addr .writeBurst :: data) s

/-- READ_BURST (R125, layout R85): where the largest sum exceeds 255 the parameter `BURST_ADDR_OVERFLOW` decides between
BurstAddressOverflow with no bus activity and the sums modulo 256 (R127). -/
def startReadBurst (addr : Addr) (length : Nat) (s : State) : State :=
  match burstRejected s.params addr length with
  | true => raise (.burstAddressOverflow length) (latch (.readBurst addr length) s)
  | false => startTransaction (.readBurst addr length) (burstBytes addr length) s

/-- WRITE_SINGLE at the command port (R122). -/
def execWriteSingle (addr : Addr) (value : Byte) (s : State) : Answer :=
  accept s (startWriteSingle addr value)

/-- READ_SINGLE at the command port (R123). -/
def execReadSingle (addr : Addr) (s : State) : Answer :=
  accept s (startReadSingle addr)

/-- WRITE_BURST at the command port (R124). -/
def execWriteBurst (addr : Addr) (data : List Byte) (s : State) : Answer :=
  accept s (startWriteBurst addr data)

/-- READ_BURST at the command port (R125). -/
def execReadBurst (addr : Addr) (length : Nat) (s : State) : Answer :=
  accept s (startReadBurst addr length)

/-- WRITE_SINGLE presented by its wire layout (R82). -/
def execWireWriteSingle (addr : Addr) (value : Byte) (s : State) : Answer :=
  accept s (startWriteSingle addr value)

/-- READ_SINGLE presented by its wire layout (R83). -/
def execWireReadSingle (addr : Addr) (s : State) : Answer :=
  accept s (startReadSingle addr)

/-- WRITE_BURST presented by its wire layout (R84). -/
def execWireWriteBurst (addr : Addr) (data : List Byte) (s : State) : Answer :=
  accept s (startWriteBurst addr data)

/-- READ_BURST presented by its wire layout (R85). -/
def execWireReadBurst (addr : Addr) (length : Nat) (s : State) : Answer :=
  accept s (startReadBurst addr length)

end Sys2Proof.Machine
end

