-- ==== Sys2Proof/Machine/Strobe.lean ====
section
/-! DEFINITION. The command strobes (spec/42_strobes.md): STROBE with any code, and the fourteen named codes. The FRAMER
puts `[code, 0x00]` on the bus and returns both response bytes; what the CHIP does is the oracle's (R35, R140). -/

namespace Sys2Proof.Machine

open Sys2Proof.Config

/-- STROBE (R140): a code outside the fourteen is rejected before any bus activity (R141). -/
def execStrobe (code : Addr) (s : State) : Answer :=
  accept s fun s =>
    if isStrobeCode code then startTransaction (.strobe code) [encodeHeader code .writeSingle, filler] s
    else raise (.illegalStrobe code) (latch (.strobe code) s)

/-- The transaction of a strobe whose code is one of the fourteen (R81). -/
def startStrobe (code : Addr) (s : State) : Answer :=
  accept s (startTransaction (.strobe code) [encodeHeader code .writeSingle, filler])

/-- `S_RESET` (R142). -/
def execSReset (s : State) : Answer := startStrobe 0x30#6 s

/-- `S_FSTXON` (R143). -/
def execSFstxon (s : State) : Answer := startStrobe 0x31#6 s

/-- `S_XOFF` (R144). -/
def execSXoff (s : State) : Answer := startStrobe 0x32#6 s

/-- `S_CAL` (R145). -/
def execSCal (s : State) : Answer := startStrobe 0x33#6 s

/-- `S_RX` (R146). -/
def execSRx (s : State) : Answer := startStrobe 0x34#6 s

/-- `S_TX` (R147). -/
def execSTx (s : State) : Answer := startStrobe 0x35#6 s

/-- `S_IDLE` (R148). -/
def execSIdle (s : State) : Answer := startStrobe 0x36#6 s

/-- `S_37` (R149): accepted and sent like any other code. -/
def execS37 (s : State) : Answer := startStrobe 0x37#6 s

/-- `S_WOR` (R150). -/
def execSWor (s : State) : Answer := startStrobe 0x38#6 s

/-- `S_PWD` (R151). -/
def execSPwd (s : State) : Answer := startStrobe 0x39#6 s

/-- `S_FLUSH_RX` (R152). -/
def execSFlushRx (s : State) : Answer := startStrobe 0x3A#6 s

/-- `S_FLUSH_TX` (R153). -/
def execSFlushTx (s : State) : Answer := startStrobe 0x3B#6 s

/-- `S_WORRST` (R154). -/
def execSWorrst (s : State) : Answer := startStrobe 0x3C#6 s

/-- `S_NOP` (R155): a real transaction, not a hint (R96). -/
def execSNop (s : State) : Answer := startStrobe 0x3D#6 s

end Sys2Proof.Machine
end

