-- ==== Sys2Proof/Machine/Dispatch.lean ====
section
/-! DEFINITION. The meaning of every instruction, one arm per constructor of Instr. -/

namespace Sys2Proof.Machine

def exec (i : Instr) (s : State) : Host.Outcome State Fault Refusal :=
  match i with
  -- the header byte's access modes
  | .wireWriteSingle addr value => Sys2Proof.Machine.execWireWriteSingle addr value s
  | .wireWriteBurst addr data => Sys2Proof.Machine.execWireWriteBurst addr data s
  | .wireReadSingle addr => Sys2Proof.Machine.execWireReadSingle addr s
  | .wireReadBurst addr length => Sys2Proof.Machine.execWireReadBurst addr length s
  -- the fourteen strobes
  | .sReset => Sys2Proof.Machine.execSReset s
  | .sFstxon => Sys2Proof.Machine.execSFstxon s
  | .sXoff => Sys2Proof.Machine.execSXoff s
  | .sCal => Sys2Proof.Machine.execSCal s
  | .sRx => Sys2Proof.Machine.execSRx s
  | .sTx => Sys2Proof.Machine.execSTx s
  | .sIdle => Sys2Proof.Machine.execSIdle s
  | .s37 => Sys2Proof.Machine.execS37 s
  | .sWor => Sys2Proof.Machine.execSWor s
  | .sPwd => Sys2Proof.Machine.execSPwd s
  | .sFlushRx => Sys2Proof.Machine.execSFlushRx s
  | .sFlushTx => Sys2Proof.Machine.execSFlushTx s
  | .sWorrst => Sys2Proof.Machine.execSWorrst s
  | .sNop => Sys2Proof.Machine.execSNop s
  -- the command port
  | .strobe code => Sys2Proof.Machine.execStrobe code s
  | .writeSingle addr value => Sys2Proof.Machine.execWriteSingle addr value s
  | .readSingle addr => Sys2Proof.Machine.execReadSingle addr s
  | .writeBurst addr data => Sys2Proof.Machine.execWriteBurst addr data s
  | .readBurst addr length => Sys2Proof.Machine.execReadBurst addr length s
  | .frameTx payload sync => Sys2Proof.Machine.execFrameTx payload sync s
  | .decodeRx raw => Sys2Proof.Machine.execDecodeRx raw s
  | .reserved7 => Sys2Proof.Machine.execReserved7 s

end Sys2Proof.Machine
end

