-- ==== Sys2Proof/Machine/HostAgent.lean ====
section
/-! DEFINITION. The HOST agent (spec/44_host_sequences.md): the sequences of R180 to R191 as lists of lines, the turn
the HOST has while the block is idle and nothing is presented, and what it does with a result it takes. The HOST is
surrounding software (spec/00_scope.md R5 a); nothing here adds behaviour to the FRAMER. -/

namespace Sys2Proof.Machine

open Sys2Proof.Config

/-! The sequences. -/

/-- The command that reads a CHIP status register (R184, R185). -/
def statusRead (form : StatusRead) (addr : Addr) : Instr :=
  match form with
  | .single => .readSingle addr
  | .burst => .readBurst addr 1

/-- `READ_STATE`'s command (R184). -/
def readStateCommand (p : Params) : Instr :=
  statusRead p.marcstateRead p.marcstateAddr

/-- `READ_TXBYTES`'s command (R185). -/
def readTxBytesCommand (p : Params) : Instr :=
  statusRead p.txbytesRead p.txbytesAddr

/-- The status register's value in the result of `statusRead` (R184): the byte itself, or byte 1 of the burst. -/
def statusValue : Result → Option Byte
  | .okByte v => some v
  | .okBytes bs => bs[1]?
  | _ => none

/-- The profile of a mode (R182). -/
def profileFor (profiles : Profiles) : RadioMode → List (Addr × Byte)
  | .rx => profiles.rx
  | .tx => profiles.tx

/-- `APPLY_CONFIG table` (R180): one WRITE_SINGLE per row, in order. -/
def applyConfigOps (profile : Option RadioMode) (table : List (Addr × Byte)) : List HostOp :=
  table.map (fun row => HostOp.configWrite row.1 row.2) ++ [.configDone profile]

/-- Register writes of the configuration loader outside APPLY_CONFIG, in order, and success (R181, R182). DESIGN CHOICE
(log 15): one that fails is reported as its own failure, since R203 keeps PartialConfigFailure to APPLY_CONFIG. -/
def loaderOps (part : LinkPart) (rows : List (Addr × Byte)) : List HostOp :=
  rows.map (fun row => HostOp.loader (.writeSingle row.1 row.2)) ++ [.loaderDone part]

/-- `SET_FREQUENCY` (R181): three WRITE_SINGLE, or the range failure and nothing written. -/
def setFrequencyOps (p : Params) (targetHz : Nat) (offsetHz : Int) : List HostOp :=
  match frequencyWord p targetHz offsetHz with
  | none => [.report .frequencyOutOfRange]
  | some w => loaderOps .frequency (freqRows p.freqPlan w)

/-- `WAIT_IDLE` (R186). -/
def waitIdleOps (p : Params) : List HostOp :=
  [.quiet .sIdle, .pollIdle p.maxPoll]

/-- `RX_PATH packetLength` (R189), its eleven lines. -/
def rxPathOps (p : Params) (packetLength : Nat) : List HostOp :=
  let receive : List HostOp :=
    [.quiet .sFlushRx, .quiet .sRx, .pollPin true p.maxPoll, .pollPin false p.maxPoll, .readPacket packetLength]
  let finish : List HostOp := [.quiet .sFlushRx, .decodePacket]
  waitIdleOps p ++ receive ++ waitIdleOps p ++ finish

/-- `TX_PATH payload, sync` (R191), its fourteen lines. -/
def txPathOps (p : Params) (payload : List Bit) (sync : SyncWord) : List HostOp :=
  let prepare : List HostOp := [.frame payload sync, .writePacketLength]
  let send : List HostOp := [.quiet .sFlushTx, .settle, .loadFrame, .quiet .sTx, .pollDrained p.maxPoll]
  let finish : List HostOp := [.quiet .sFlushTx, .quiet .sFlushRx, .settle, .verifyDrained]
  prepare ++ waitIdleOps p ++ send ++ finish

/-- The lines of a sequence (R100). -/
def expand (p : Params) (profiles : Profiles) : HostSeq → List HostOp
  | .command i => [.command i]
  | .applyConfig table => applyConfigOps none table
  | .recover table => .loader .sReset :: applyConfigOps none table
  | .applyProfile mode => applyConfigOps (some mode) (profileFor profiles mode)
  | .recoverProfile mode => .loader .sReset :: applyConfigOps (some mode) (profileFor profiles mode)
  | .setFrequency targetHz offsetHz => setFrequencyOps p targetHz offsetHz
  | .setSyncWord sync => loaderOps .syncWord (syncRows p.syncPlan sync)
  | .setPacketLength n => loaderOps .packetLength [(p.pktlenAddr, n)]
  | .loadPowerRamp table => [.loader (.writeBurst p.patableAddr table.toList), .loaderDone .powerRamp]
  | .readState => [.readState]
  | .readTxBytes => [.readTxBytes]
  | .waitIdle => waitIdleOps p ++ [.report .success]
  | .waitPin level => [.pollPin level p.maxPoll, .report .success]
  | .rxPath packetLength => rxPathOps p packetLength
  | .txPath payload sync => txPathOps p payload sync

/-- The sequences that start the CHIP up for a mode (R235): a known state and the profile, then frequency, sync word and
packet length, then the power-ramp table. The order of the last three is a DESIGN CHOICE (log 15): R235 does not state
it. -/
def startUp (mode : RadioMode) (targetHz : Nat) (offsetHz : Int) (sync : SyncWord)
    (packetLength : Byte) (ramp : Vector Byte 8) : List HostSeq :=
  [.recoverProfile mode, .setFrequency targetHz offsetHz, .setSyncWord sync,
    .setPacketLength packetLength, .loadPowerRamp ramp]

/-- The sequence of a change to a mode (R236): its profile is applied again. -/
def modeSwitch (mode : RadioMode) : HostSeq :=
  .applyProfile mode

/-- The mode a path is for (R189, R191); no other sequence needs one. -/
def pathMode : HostSeq → Option RadioMode
  | .rxPath _ => some .rx
  | .txPath _ _ => some .tx
  | _ => none

/-- The mode the HOST must change to before it begins a sequence, if it must (R235, R236): a path is begun only with its
mode's profile in force. DESIGN CHOICE (log 22): a HOST that has applied no profile yet is treated as one in the other
mode. -/
def switchNeeded (mode : Option RadioMode) (q : HostSeq) : Option RadioMode :=
  (pathMode q).filter fun m => decide (mode ≠ some m)

/-- `MemWrite(a, n, vs)` (R14): a single write for one byte, a burst write otherwise. -/
def memWrite (addr : Addr) (vs : List Byte) : Instr :=
  match vs with
  | [v] => .writeSingle addr v
  | vs => .writeBurst addr vs

/-- `MemRead(a, n)` (R14): a single read for one byte, a burst read otherwise. -/
def memRead (addr : Addr) (n : Nat) : Instr :=
  if n = 1 then .readSingle addr else .readBurst addr n

/-- The bytes `MemRead` gives: the register's value, or the burst without its status byte (R14). -/
def memReadBytes : Result → Option (List Byte)
  | .okByte b => some [b]
  | .okBytes bs => some bs.tail
  | _ => none

/-! The HOST's turn. -/

/-- A report is added at the end. -/
def addReport (r : HostReport) (h : HostState) : HostState :=
  { h with reports := h.reports ++ [r] }

/-- A failure ends the sequence (R180, R193, R215): its remaining lines are not done, and it is reported. -/
def hostFail (f : Failure) (h : HostState) : HostState :=
  { h with ops := [], waiting := false, reports := h.reports ++ [.failed f] }

/-- The command a line presents, if it presents one. -/
def hostCommand (p : Params) (h : HostState) : HostOp → Option Instr
  | .command i => some i
  | .quiet i => some i
  | .loader i => some i
  | .configWrite addr value => some (.writeSingle addr value)
  | .pollIdle 0 => none
  | .pollIdle (_ + 1) => some (readStateCommand p)
  | .pollDrained 0 => none
  | .pollDrained (_ + 1) => some (readTxBytesCommand p)
  | .pollPin _ _ => none
  | .readState => some (readStateCommand p)
  | .readTxBytes => some (readTxBytesCommand p)
  | .settle => none
  | .frame payload sync => some (.frameTx payload sync)
  | .writePacketLength => some (.writeSingle p.pktlenAddr (BitVec.ofNat 8 h.frameLen))
  | .loadFrame => some (.writeBurst p.fifoAddr h.frame)
  | .readPacket packetLength => some (.readBurst p.fifoAddr packetLength)
  | .decodePacket => some (.decodeRx h.raw)
  | .verifyDrained => some (readTxBytesCommand p)
  | .configDone _ => none
  | .loaderDone _ => none
  | .report _ => none

/-- The level the HOST reads on the pin (R36, R187): the next known level, or the free value. -/
def pinRead (s : State) : Bool :=
  match s.pinLevels with
  | l :: _ => l
  | [] => pinLevel s.draws

/-- A known level is read once, and each read is fresh. -/
def dropPin (s : State) : State :=
  { s with pinLevels := s.pinLevels.tail, draws := s.draws + 1 }

/-- Replaces the HOST's state. -/
def setHost (h : HostState) (s : State) : State :=
  { s with host := h }

/-- The command-port instruction of a command (R86). -/
def portInstr : Command → Instr
  | .strobe code => .strobe code
  | .writeSingle addr value => .writeSingle addr value
  | .readSingle addr => .readSingle addr
  | .writeBurst addr data => .writeBurst addr data
  | .readBurst addr length => .readBurst addr length
  | .frameTx payload sync => .frameTx payload sync
  | .decodeRx raw => .decodeRx raw
  | .reserved7 => .reserved7

/-- The HOST presents a command at the command port and waits for its result (R28). DESIGN CHOICE (log 12): whatever
its instruction's format, the HOST presents the command it names in format CMD, the port the spec gives it; so a single
write of 0 to `0x30` to `0x3D` runs as WRITE_SINGLE, which R95 and D31 do not forbid, and is not read as the strobe with
the same two bytes. -/
def present (i : Instr) (s : State) : State :=
  { s with port := some (encode (portInstr i.command)), host := { s.host with waiting := true } }

/-- A command beyond the bounds of R7 cannot be presented (D4): nothing is presented, the line's sequence ends, and it
is reported. DESIGN CHOICE (log 12): the spec says nothing of a HOST that has such a command. -/
def hostCannotPresent (i : Instr) (h : HostState) : HostState :=
  { h with ops := [], reports := h.reports ++ [.notPresentable i] }

/-! What the HOST does while the CHIP's configuration is in doubt (R183, R239). -/

/-- The command is an `S_RESET` (R142). -/
def isChipReset (i : Instr) : Bool :=
  decide (i.command = .strobe 0x30#6)

/-- The command never uses the bus (R116, last case), so it is no use of the CHIP. -/
def avoidsChip (i : Instr) : Bool :=
  match i.command with
  | .frameTx _ _ => true
  | .decodeRx _ => true
  | .reserved7 => true
  | _ => false

/-- Everything of R235's preparation but the profile has been done. -/
def preparationComplete (prep : Preparation) : Bool :=
  decide (prep = ⟨true, true, true, true, true⟩)

/-- Whether the HOST may begin a sequence: while the configuration is in doubt only an `S_RESET`, a whole recovery
(R183), a command that does not use the CHIP, and, once the CHIP is reset, an APPLY_CONFIG (R239); a path only after
R235's preparation, whose profile is `switchNeeded`'s concern. -/
def mayBegin (t : ConfigTrust) (prep : Preparation) (q : HostSeq) : Bool :=
  match q with
  | .recover _ => true
  | .recoverProfile _ => true
  | .command i => decide (t = .trusted) || isChipReset i || avoidsChip i
  | .applyConfig _ => decide (t ≠ .needsReset)
  | .applyProfile _ => decide (t ≠ .needsReset)
  | .rxPath _ => decide (t = .trusted) && preparationComplete prep
  | .txPath _ _ => decide (t = .trusted) && preparationComplete prep
  | _ => decide (t = .trusted)

/-- The next sequence of the queue is begun, after the profile of its mode where that is not in force (R236; that it
waits in the queue meanwhile is a DESIGN CHOICE, log 22), or withheld and reported (R235, R239; what becomes of it
then is a DESIGN CHOICE, logs 20 and 23). -/
def beginSeq (p : Params) (q : HostSeq) (queue : List HostSeq) (h : HostState) : HostState :=
  if mayBegin h.trust h.prepared q then
    match switchNeeded h.mode q with
    | none => { h with queue := queue, ops := expand p h.profiles q }
    | some mode => { h with queue := q :: queue, ops := expand p h.profiles (modeSwitch mode) }
  else { h with queue := queue, reports := h.reports ++ [.withheld q] }

/-- The line presents an `S_RESET`. -/
def lineResetsChip : HostOp → Bool
  | .command i => isChipReset i
  | .loader i => isChipReset i
  | _ => false

/-- After a line's command succeeded: an `S_RESET` is the first half of a recovery (R183). -/
def trustAfterSuccess (op : HostOp) (t : ConfigTrust) : ConfigTrust :=
  if t = .needsReset ∧ lineResetsChip op = true then .needsTable else t

/-- After a line's command failed: a write of the configuration loader leaves the configuration in doubt (R183, R239).
DESIGN CHOICE (log 20): R183 lists no cases; the packet length that TX_PATH itself writes (line 2) is no write of the
loader and leaves the doubt as it was. -/
def trustAfterFailure (op : HostOp) (t : ConfigTrust) : ConfigTrust :=
  match op with
  | .configWrite _ _ => .needsReset
  | .loader _ => .needsReset
  | _ => t

/-- After a complete APPLY_CONFIG: it ends the doubt if `S_RESET` came before it (R239). DESIGN CHOICE (log 20): neither
R239 nor R183 says of which table; the HOST takes any table that was applied whole as the one that was meant. -/
def trustAfterTable : ConfigTrust → ConfigTrust
  | .trusted => .trusted
  | .needsReset => .needsReset
  | .needsTable => .trusted

/-- The mode in force after a line's command succeeded: an `S_RESET` takes the profile away (R232).
DESIGN CHOICE (log 22): no other command does. -/
def modeAfterSuccess (op : HostOp) (mode : Option RadioMode) : Option RadioMode :=
  if lineResetsChip op then none else mode

/-- A failure of the line leaves nothing of the configuration to rely on: a write of the configuration loader (R180: a
partial state) or an `S_RESET` that the CHIP may have executed (R214). DESIGN CHOICE (logs 22, 23): no other line's. -/
def failureUndoes : HostOp → Bool
  | .configWrite _ _ => true
  | .loader _ => true
  | op => lineResetsChip op

/-- The mode in force after a line's command failed. -/
def modeAfterFailure (op : HostOp) (mode : Option RadioMode) : Option RadioMode :=
  if failureUndoes op then none else mode

/-- The mode in force after a complete APPLY_CONFIG. DESIGN CHOICE (log 22): a table that is no profile leaves it. -/
def modeAfterTable (profile mode : Option RadioMode) : Option RadioMode :=
  profile.orElse fun _ => mode

/-- R235's preparation after a line's command succeeded: an `S_RESET` is its first step, and the CHIP needs the rest
again (R232). -/
def preparedAfterSuccess (op : HostOp) (prep : Preparation) : Preparation :=
  if lineResetsChip op then { Preparation.nothing with knownState := true } else prep

/-- R235's preparation after a line's command failed. -/
def preparedAfterFailure (op : HostOp) (prep : Preparation) : Preparation :=
  if failureUndoes op then .nothing else prep

/-- R235's preparation after a sequence of the configuration loader. DESIGN CHOICE (log 23): these sequences alone set
the parameters; a table or a command that writes the same registers does not count. -/
def preparedAfterPart (part : LinkPart) (prep : Preparation) : Preparation :=
  match part with
  | .frequency => { prep with frequency := true }
  | .syncWord => { prep with syncWord := true }
  | .packetLength => { prep with packetLength := true }
  | .powerRamp => { prep with powerRamp := true }

/-- A line that needs no command: a poll that has used up its bound (R193), a pin read (R187), a delay (R194), a
report. -/
def hostLocal (op : HostOp) (rest : List HostOp) (s : State) : State :=
  match op with
  | .pollIdle 0 => setHost (hostFail .protocolTimeout s.host) s
  | .pollDrained 0 => setHost (hostFail .protocolTimeout s.host) s
  | .pollPin _ 0 => setHost (hostFail .protocolTimeout s.host) s
  | .pollPin level (n + 1) =>
    if pinRead s = level then setHost { s.host with ops := rest } (dropPin s)
    else setHost { s.host with ops := .pollPin level n :: rest } (dropPin s)
  | .report r => setHost (addReport r { s.host with ops := rest }) s
  | .configDone profile =>
    setHost (addReport .success { s.host with
      ops := rest, trust := trustAfterTable s.host.trust, mode := modeAfterTable profile s.host.mode }) s
  | .loaderDone part =>
    setHost (addReport .success { s.host with
      ops := rest, prepared := preparedAfterPart part s.host.prepared }) s
  | _ => setHost { s.host with ops := rest } s

/-- The HOST's turn, while the block is idle and nothing is presented: the next line of the sequence running, or the
next sequence. A HOST that waits for a result that a reset has taken away (R231) does nothing more (log 10). -/
def hostTurn (s : State) : State :=
  if s.host.waiting then s
  else
    match s.host.ops with
    | [] =>
      match s.host.queue with
      | [] => s
      | q :: queue => setHost (beginSeq s.params q queue s.host) s
    | op :: rest =>
      match hostCommand s.params s.host op with
      | none => hostLocal op rest s
      | some i => if i.command.wf then present i s else setHost (hostCannotPresent i s.host) s

/-! Taking a result. -/

/-- What the HOST reports when a line's command fails: PartialConfigFailure for a row of a configuration table (R180,
R203), otherwise the failure itself. -/
def surfacedFailure : HostOp → Failure → Failure
  | .configWrite _ _, _ => .partialConfigFailure
  | _, f => f

/-- A poll's verdict (R186, R191): done, or once more with one read fewer. -/
def pollAgain (isDone : Bool) (again : HostOp) (h : HostState) : HostState :=
  if isDone then h else { h with ops := again :: h.ops }

/-- What the HOST does with a result that is no failure; `h.ops` are the lines after this one. -/
def afterResult (op : HostOp) (r : Result) (h : HostState) : HostState :=
  match op with
  | .command _ => addReport (.result r) h
  | .quiet _ => h
  | .loader _ => h
  | .configWrite _ _ => h
  | .pollIdle n => pollAgain ((statusValue r).any fun v => marcState v = marcIdle) (.pollIdle (n - 1)) h
  | .pollDrained n => pollAgain ((statusValue r).any fun v => txPending v = 0) (.pollDrained (n - 1)) h
  | .pollPin _ _ => h
  | .readState => (statusValue r).elim h fun v => addReport (.marcState (marcState v)) h
  | .readTxBytes => (statusValue r).elim h fun v => addReport (.txPending (txPending v)) h
  | .settle => h
  | .frame _ _ =>
    match r with
    | .okFrame bs n => { h with frame := bs, frameLen := n }
    | _ => h
  | .writePacketLength => h
  | .loadFrame => h
  | .readPacket _ =>
    match r with
    | .okBytes bs => { h with raw := bs }
    | _ => h
  | .decodePacket =>
    match r with
    | .okBits bits => addReport (.packet bits) h
    | _ => h
  | .verifyDrained =>
    (statusValue r).elim h fun v =>
      addReport (if txPending v = 0 then .success else .residualBytes (txPending v)) h
  | .configDone _ => h
  | .loaderDone _ => h
  | .report _ => h

/-- The HOST takes the result (R116, phase DONE): the line that waited for it goes on, or the sequence ends. DESIGN
CHOICE (log 10): a HOST whose own result a reset took away (R231) is still waiting, and takes the result of the next
command at the port as the one it waited for; R231 says nothing of it. -/
def hostTake (r : Result) (h : HostState) : HostState :=
  let h := { h with taken := some r }
  if h.waiting then
    match h.ops with
    | [] => { h with waiting := false }
    | op :: rest =>
      match r with
      | .err f =>
        hostFail (surfacedFailure op f)
          { h with
            trust := trustAfterFailure op h.trust, mode := modeAfterFailure op h.mode,
            prepared := preparedAfterFailure op h.prepared }
      | r =>
        afterResult op r
          { h with
            ops := rest, waiting := false, trust := trustAfterSuccess op h.trust,
            mode := modeAfterSuccess op h.mode, prepared := preparedAfterSuccess op h.prepared }
  else h

/-- `DONE` (R116): the HOST takes the result and the block is idle. -/
def doneStep (s : State) : Answer :=
  .next (returnToIdle (setHost (hostTake s.result s.host) s))

/-- The HOST's own state names (R188). DEDUCED (log 13): R188 gives the natural reading of four of them. -/
inductive HostPhase where
  | idle
  | calibrating
  | rxWait
  | rxReceiving
  | txLoading
  | txSending
  | done
  deriving DecidableEq, Repr, Inhabited

/-- The HOST's state while it is at a command of its own: CALIBRATING at an `S_CAL`, however it is presented. -/
def commandPhase (i : Instr) : HostPhase :=
  if i.command = .strobe 0x33#6 then .calibrating else .idle

/-- The name of the HOST's state, from the line it is at. -/
def hostPhase (h : HostState) : HostPhase :=
  match h.ops with
  | .pollPin true _ :: _ => .rxWait
  | .pollPin false _ :: _ => .rxReceiving
  | .loadFrame :: _ => .txLoading
  | .pollDrained _ :: _ => .txSending
  | .command i :: _ => commandPhase i
  | [] => if h.reports.isEmpty then .idle else .done
  | _ => .idle

end Sys2Proof.Machine
end

