-- ==== Sys2Proof/Machine/Transaction.lean ====
section
/-! DEFINITION. The sequencer's steps outside `IDLE` (spec/40_bus_transaction.md R116), and the internal primitive
TRANSACT in its large-step form (R110, R111), which the sequencer refines (R117). -/

namespace Sys2Proof.Machine

/-- `SELECT` (R116). -/
def selectStep (s : State) : Answer :=
  .next { s with phase := .xfer }

/-- `XFER` (R116): one byte is exchanged, or the exchange fails and TransportFailure is raised (R114). -/
def xferStep (s : State) : Answer :=
  match s.txbuf[s.idx]? with
  | none => .fault .noByteLeft
  | some b =>
    match chipAnswers b s with
    | some r => .next (recordExchange b r (dropAnswer s))
    | none => .next (raise .transportFailure (recordBroken b (dropAnswer s)))

/-- `RELEASE` (R116): the select signal is released; unless the transfer failed, `RESULT` is the command's result. -/
def releaseStep (s : State) : Answer :=
  if isErr s.result then .next { releaseSelect s with phase := .done }
  else
    match busResult s.op s.rxbuf with
    | some r => .next (complete r (releaseSelect s))
    | none => .fault .noBusResult

/-- `BusXfer(tx)` (R110): the bytes are exchanged in index order until the last or the first failure; the answer is the
list of responses, or none where the primitive fails. `rx` is what was received so far. -/
def busXfer : List Byte → List Byte → State → Option (List Byte) × State
  | [], rx, s => (some rx, s)
  | b :: tx, rx, s =>
    match chipAnswers b s with
    | some r => busXfer tx (rx ++ [r]) { dropAnswer s with bus := s.bus ++ [.exchange b r] }
    | none => (none, recordBroken b (dropAnswer s))

/-- TRANSACT (R111): the select signal is asserted, the bytes are exchanged, the select signal is released, also after
a failure; none stands for TransportFailure. -/
def transact (tx : List Byte) (s : State) : Option (List Byte) × State :=
  let r := busXfer tx [] { s with sel := .asserted, bus := s.bus ++ [.select] }
  (r.1, releaseSelect r.2)

end Sys2Proof.Machine
end

