-- ==== Sys2Proof/Machine/Step.lean ====
section
/-! DEFINITION. One step of the machine (spec/00_scope.md R8: the acceptance of a command, the exchange of one byte, or
the completion of a command), by the phases of spec/40_bus_transaction.md R116; `rst` comes before everything
(spec/70_reset_and_hazards.md R230). The HOST's turns are steps of their own, while the block is idle. -/

namespace Sys2Proof.Machine

/-- `IDLE`: a presented word is decoded and its command accepted; with nothing presented it is the HOST's turn. -/
def idleStep (s : State) : Answer :=
  match fetchWord s with
  | none => .next (hostTurn s)
  | some w =>
    match decode w with
    | .instr i => exec i (takePort s)
    | .rejected e => .refused (.undecodable e)

/-- One step. DESIGN CHOICE (log 21): a word presented while the block is busy or under reset is not accepted (R28, R115)
and stays at the port, and the first step in `IDLE` with `rst` released accepts it. -/
def step (s : State) : Host.Outcome State Fault Refusal :=
  if rstAsserted s then .next (resetFramer (tick s))
  else
    match s.phase with
    | .idle => idleStep (tick s)
    | .select => selectStep (tick s)
    | .xfer => xferStep (tick s)
    | .release => releaseStep (tick s)
    | .done => doneStep (tick s)

/-- `k` steps, ending at the first fault or refusal. -/
def run : Nat → State → Host.Outcome State Fault Refusal
  | 0, s => .next s
  | k + 1, s =>
    match step s with
    | .next t => run k t
    | .fault r => .fault r
    | .refused r => .refused r

/-- `s` with the opcode table's word `w` presented at the command port, so that the very next step accepts it (log
11). -/
def State.withFetchWord (s : State) (nbits w : Nat) : State :=
  placeWord (tableWord nbits w) s

end Sys2Proof.Machine
end

