-- ==== Sys2Proof/Safety.lean ====
section
/-! DEFINITION. The terms in which claims about the machine are made: the invariant, the wire layout of a command, the
shape of a result, what an observer sees, a transaction's effect in one piece, and the HOST's obligations. -/

namespace Sys2Proof.Safety

open Sys2Proof.Config
open Sys2Proof.Machine

/-! The invariant. -/

/-- The bytes a bus command puts on the wire (layouts R81 to R85), none for a command that is rejected or does not use
the bus. READ_BURST's sums are taken modulo 256, which changes nothing where none exceeds 255 (R127). -/
def wireLayout : Command → Option (List Byte)
  | .strobe code => if 0x30 ≤ code.toNat ∧ code.toNat ≤ 0x3D then some [code.setWidth 8, 0x00#8] else none
  | .writeSingle addr value => some [addr.setWidth 8, value]
  | .readSingle addr => some [addr.setWidth 8 ||| 0x80#8, 0x00#8]
  | .writeBurst addr data => some ((addr.setWidth 8 ||| 0x40#8) :: data)
  | .readBurst addr length =>
    some ((List.range (length + 1)).map fun i => BitVec.ofNat 8 (addr.toNat + 8 * i) ||| 0xC0#8)
  | .frameTx _ _ => none
  | .decodeRx _ => none
  | .reserved7 => none

/-- The bytes a command puts on the wire when it is presented under the parameters `p`: none where READ_BURST is
rejected (R127). -/
def acceptedLayout (p : Params) : Command → Option (List Byte)
  | .readBurst addr length => if burstRejected p addr length then none else wireLayout (.readBurst addr length)
  | c => wireLayout c

/-- The results a command can have (R27, R212): their form, and for each failure its condition and recorded
information (R201, R204 to R209). -/
def resultFits : Command → Result → Prop
  | .strobe code, .okBytes bs => 0x30 ≤ code.toNat ∧ code.toNat ≤ 0x3D ∧ bs.length = 2
  | .strobe code, .err (.illegalStrobe c) => c = code ∧ ¬(0x30 ≤ code.toNat ∧ code.toNat ≤ 0x3D)
  | .strobe code, .err .transportFailure => 0x30 ≤ code.toNat ∧ code.toNat ≤ 0x3D
  | .writeSingle _ _, .okNone => True
  | .writeSingle _ _, .err .transportFailure => True
  | .readSingle _, .okByte _ => True
  | .readSingle _, .err .transportFailure => True
  | .writeBurst _ _, .okNone => True
  | .writeBurst _ _, .err .transportFailure => True
  | .readBurst _ length, .okBytes bs => bs.length = length + 1
  | .readBurst addr length, .err (.burstAddressOverflow n) => n = length ∧ 255 < addr.toNat + 8 * length
  | .readBurst _ _, .err .transportFailure => True
  | .frameTx payload _, .okFrame bs n =>
    payload.length ≤ 496 ∧ payload.length % 8 = 0 ∧ bs.length = 64 ∧ n = 64
  | .frameTx payload _, .err (.frameOverflow n) => n = payload.length ∧ 496 < payload.length
  | .frameTx payload _, .err (.frameNotByteAligned n) =>
    n = payload.length ∧ payload.length ≤ 496 ∧ payload.length % 8 ≠ 0
  | .decodeRx raw, .okBits bits => raw ≠ [] ∧ bits.length = 8 * (raw.length - 1)
  | .decodeRx raw, .err .emptyBurst => raw = []
  | .reserved7, .err .illegalCommand => True
  | _, _ => False

/-- The select signal is asserted exactly in `SELECT`, `XFER` and `RELEASE` (R22). -/
def SelFollowsPhase (s : State) : Prop :=
  s.sel = .asserted ↔ (s.phase = .select ∨ s.phase = .xfer ∨ s.phase = .release)

/-- A transaction is under way: `TXBUF` is the latched command's wire layout, within its capacity (R24). -/
def OnWire (s : State) : Prop :=
  wireLayout s.op = some s.txbuf ∧ s.txbuf.length ≤ 256

/-- The FRAMER's invariant (R21 to R27), phase by phase. -/
def FramerInv (s : State) : Prop :=
  SelFollowsPhase s ∧
  match s.phase with
  | .idle => True
  | .select => OnWire s ∧ s.idx = 0 ∧ s.rxbuf = [] ∧ s.result = .okNone
  | .xfer => OnWire s ∧ s.idx < s.txbuf.length ∧ s.rxbuf.length = s.idx ∧ s.result = .okNone
  | .release =>
    OnWire s ∧
    (s.result = .err .transportFailure ∨
      (s.result = .okNone ∧ s.idx = s.txbuf.length ∧ s.rxbuf.length = s.txbuf.length))
  | .done => resultFits s.op s.result

/-- The lines the HOST may still have to do while the CHIP's configuration is in doubt (R183, R239): one command that
resets the CHIP or does not use it, a whole recovery from its first line, and, once `S_RESET` is done, the rest of an
APPLY_CONFIG. -/
def LinesWhileInDoubt : ConfigTrust → List HostOp → Prop
  | .trusted, _ => True
  | .needsReset, ops =>
    ops = [] ∨ (∃ i, (isChipReset i = true ∨ avoidsChip i = true) ∧ ops = [.command i]) ∨
    ∃ profile table, ops = .loader .sReset :: applyConfigOps profile table
  | .needsTable, ops =>
    ops = [] ∨ (∃ i, (isChipReset i = true ∨ avoidsChip i = true) ∧ ops = [.command i]) ∨
    (∃ profile table, ops = .loader .sReset :: applyConfigOps profile table) ∨
    ∃ profile table, ops = applyConfigOps profile table

/-- The HOST does not use the CHIP while its configuration is in doubt (R239). -/
def DoubtInv (s : State) : Prop :=
  LinesWhileInDoubt s.host.trust s.host.ops

/-- The path a line belongs to, if it stands in one path alone (R189, R191). -/
def lineMode : HostOp → Option RadioMode
  | .readPacket _ => some .rx
  | .decodePacket => some .rx
  | .frame _ _ => some .tx
  | .writePacketLength => some .tx
  | .settle => some .tx
  | .loadFrame => some .tx
  | .pollDrained _ => some .tx
  | .verifyDrained => some .tx
  | _ => none

/-- The line cannot change which profile is in force: it writes nothing of a configuration and is no command of its
own. -/
def keepsProfile : HostOp → Bool
  | .command _ => false
  | .loader _ => false
  | .configWrite _ _ => false
  | .configDone _ => false
  | .loaderDone _ => false
  | _ => true

/-- The HOST is in a path only under that path's profile (R236) and after the rest of R235's preparation, and leaves
both as they are until the path has ended. -/
def PathInv (s : State) : Prop :=
  (∀ op ∈ s.host.ops, lineMode op = none) ∨
  ∃ mode, s.host.mode = some mode ∧ s.host.prepared = ⟨true, true, true, true, true⟩ ∧
    ∀ op ∈ s.host.ops, (lineMode op = none ∨ lineMode op = some mode) ∧ keepsProfile op = true

/-- The sequence is the path of the mode (R189, R191). -/
def IsPathOf (mode : RadioMode) (q : HostSeq) : Prop :=
  (mode = .rx ∧ ∃ packetLength, q = .rxPath packetLength) ∨ (mode = .tx ∧ ∃ payload sync, q = .txPath payload sync)

/-- R236: the level-signal pin means "sync detected" and "packet complete" only under the RX profile. Its level is free
under any (log 6); a claim that reads those meanings takes this as a premise. -/
def pinMeansPacket (h : HostState) : Bool :=
  decide (h.mode = some .rx)

/-! A transaction in one piece. -/

/-- `rst` is released during the next `k` steps. -/
def NoReset (k : Nat) (s : State) : Prop :=
  ∀ b ∈ s.rst.take k, b = false

/-- The block at rest: `IDLE` with the select signal released (R20). -/
def AtRest (s : State) : Prop :=
  s.phase = .idle ∧ s.sel = .released

/-- The state after a bus command with the bytes `tx` was accepted (R116, first case). -/
def afterAccept (c : Command) (tx : List Byte) (s : State) : State :=
  { s with
    op := c
    txbuf := tx
    rxbuf := []
    idx := 0
    sel := .asserted
    phase := .select
    result := .okNone
    bus := s.bus ++ [.select] }

/-- The byte a bus event sends, if it sends one. -/
def outByte : BusEvent → Option Byte
  | .select => none
  | .exchange out _ => some out
  | .broken out => some out
  | .release => none

/-- The exchanges of the bytes `tx` for the responses `rx`, as the bus sees them. -/
def exchanges (tx rx : List Byte) : List BusEvent :=
  List.zipWith BusEvent.exchange tx rx

/-- The state in which a transaction with the bytes `tx` and the responses `rx` leaves the machine in `DONE`, `n` steps
after its acceptance in `s`, with the result `r` (R111, R116): one select window holds every exchange; the answers
given are `given`; nothing else changes (a word presented meanwhile stays at the port: log 21). -/
def afterTransaction (c : Command) (tx rx : List Byte) (events : List BusEvent) (r : Result) (given n : Nat)
    (s : State) : State :=
  { s with
    op := c
    txbuf := tx
    rxbuf := rx
    idx := rx.length
    sel := .released
    phase := .done
    result := r
    rst := s.rst.drop n
    answers := s.answers.drop given
    bus := s.bus ++ [.select] ++ events ++ [.release] }

/-- What it is for an instruction to run as a bus command (R111, R116): in every state in `IDLE` that meets `pre`, it is
accepted with `TXBUF` = `tx`; and when the CHIP answers each exchange, with the bytes `rx`, and `rst` stays released,
`len(tx) + 2` further steps end in `DONE` with the result `r rx`. -/
def RunsOnBus (pre : State → Prop) (i : Instr) (tx : List Byte) (r : List Byte → Result) : Prop :=
  ∀ s : State, s.phase = .idle → pre s →
    exec i s = .next (afterAccept i.command tx s) ∧
    ∀ rx rest, rx.length = tx.length → s.answers = rx.map some ++ rest → NoReset (tx.length + 2) s →
      run (tx.length + 2) (afterAccept i.command tx s) =
        .next (afterTransaction i.command tx rx (exchanges tx rx) (r rx) tx.length (tx.length + 2) s)

/-! What can be seen (R222) and what cannot (R20, R29). -/

/-- Everything outside the FRAMER's transient buffers, and of those only what the result port shows. -/
structure Visible where
  phase : Phase
  sel : Sel
  result : Option Result
  port : Option PortWord
  rst : List Bool
  host : HostState
  answers : List (Option Byte)
  pinLevels : List Bool
  bus : List BusEvent
  draws : Nat
  params : Params
  deriving DecidableEq, Repr

/-- What is visible of a state. -/
def visible (s : State) : Visible where
  phase := s.phase
  sel := s.sel
  result := resultPort s
  port := s.port
  rst := s.rst
  host := s.host
  answers := s.answers
  pinLevels := s.pinLevels
  bus := s.bus
  draws := s.draws
  params := s.params

/-- What is visible of an outcome. -/
def visibleOutcome : Answer → Host.Outcome Visible Fault Refusal
  | .next s => .next (visible s)
  | .fault f => .fault f
  | .refused r => .refused r

/-! The HOST's obligations that can be said of a single operand (spec/70_reset_and_hazards.md section 3). -/

/-- R245: no burst write to `FIFO_ADDR` of more bytes than the FIFO holds, and no burst read of more bytes than it
contains. How many it contains is the CHIP's and hidden (R37): a claim takes `contained` as a premise. -/
def withinFifo (p : Params) (contained : Nat) : Command → Bool
  | .writeBurst addr data => decide (addr = p.fifoAddr → data.length ≤ p.fifoDepth)
  | .readBurst addr length => decide (addr = p.fifoAddr → length ≤ contained)
  | _ => true

/-- R250: a payload FRAME_TX accepts. -/
def payloadAccepted (payload : List Bit) : Bool :=
  decide (payload.length ≤ 496) && decide (payload.length % 8 = 0)

/-- R251: a configuration table that puts no strobe header on the bus. -/
def tableWithoutStrobes (table : List (Addr × Byte)) : Bool :=
  table.all fun row => !isStrobeCode row.1

/-- The command's header byte may be a strobe to the CHIP: a strobe, or an access to `0x30` to `0x3D`. A single write of
0 there has a strobe's two bytes; of the other accesses the source does not say whether they are strobes (R95, N9). -/
def mayStrobe : Command → Bool
  | .strobe _ => true
  | .writeSingle addr _ => isStrobeCode addr
  | .readSingle addr => isStrobeCode addr
  | .writeBurst addr _ => isStrobeCode addr
  | .readBurst addr _ => isStrobeCode addr
  | .frameTx _ _ => false
  | .decodeRx _ => false
  | .reserved7 => false

/-- R237: a sequence that sends no strobe outside the orderings the spec vouches for, which are RX_PATH and TX_PATH
alone (R189, R191). Only then may a claim assume anything of the CHIP's answers (spec/93_implementation_defined.md U1).
READ_STATE and READ_TXBYTES are lines of those orderings, wherever their registers lie; a path may come after its
profile (R236), which must send no strobe. -/
def vouchedOrdering (p : Params) (profiles : Profiles) : HostSeq → Bool
  | .command i => !mayStrobe i.command
  | .applyConfig table => tableWithoutStrobes table
  | .recover _ => false
  | .applyProfile mode => tableWithoutStrobes (profileFor profiles mode)
  | .recoverProfile _ => false
  | .setFrequency _ _ => [FreqByte.high, .middle, .low].all fun b => !isStrobeCode (freqAddr p.freqPlan b)
  | .setSyncWord sync => tableWithoutStrobes (syncRows p.syncPlan sync)
  | .setPacketLength _ => !isStrobeCode p.pktlenAddr
  | .loadPowerRamp _ => !isStrobeCode p.patableAddr
  | .readState => true
  | .readTxBytes => true
  | .waitIdle => false
  | .waitPin _ => true
  | .rxPath _ => tableWithoutStrobes profiles.rx
  | .txPath _ _ => tableWithoutStrobes profiles.tx

/-! What may be assumed of the CHIP. -/

/-- One complete select window as the bus sees it. -/
def window (tx rx : List Byte) : List BusEvent :=
  .select :: exchanges tx rx ++ [.release]

/-- The two bytes that `READ_STATE` puts on the bus (R184). -/
def stateReadBytes (p : Params) : List Byte :=
  match p.marcstateRead with
  | .single => [encodeHeader p.marcstateAddr .readSingle, filler]
  | .burst => burstBytes p.marcstateAddr 1

/-- R156: in a bus history of the CHIP, an `S_NOP` between two reads of the main-state-machine status register leaves
its low five bits as they were. The free value of log 5 does not promise it: a claim that needs it takes it as a
premise. DESIGN CHOICE (log 5), narrower and stronger than R156: it speaks only of values that were read, by the
window just before one `S_NOP` window and by the window just after it; and R156 excepts any other cause of change
without saying what is one, while here nothing between those three adjacent windows counts as one, so also no
transition of the CHIP's own (a calibration that ends). -/
def NopKeepsState (p : Params) (bus : List BusEvent) : Prop :=
  ∀ before after st v nop0 nop1 st' v',
    bus = before ++ window (stateReadBytes p) [st, v] ++ window [0x3D#8, 0x00#8] [nop0, nop1] ++
      window (stateReadBytes p) [st', v'] ++ after →
    marcState v = marcState v'

end Sys2Proof.Safety
end

