-- ==== Sys2Proof/Certificates/Slice0/Obligations.lean ====
section
/-! DEFINITION. The statements for the provers. Each docstring says which rule of spec/ it formalises, or that it is
derived; OBLIGATIONS.json lists them with their citations. -/

open Sys2Proof
open Sys2Proof.Config
open Sys2Proof.Machine
open Sys2Proof.Safety

/-! Encoding. -/

/-- ENCODE (R88, R121): the four modes OR the address, no overlap, both fields recoverable, injective. -/
def Obligations.HeaderByteIsAddressOrMode : Prop :=
  (∀ a, encodeHeader a .writeSingle = a.setWidth 8) ∧
  (∀ a, encodeHeader a .writeBurst = a.setWidth 8 ||| 0x40#8) ∧
  (∀ a, encodeHeader a .readSingle = a.setWidth 8 ||| 0x80#8) ∧
  (∀ a, encodeHeader a .readBurst = a.setWidth 8 ||| 0xC0#8) ∧
  (∀ m, encodeHeader 0x00#6 m = modeBits m) ∧
  (∀ a m, (encodeHeader a m).toNat = a.toNat + (modeBits m).toNat ∧
    (encodeHeader a m).extractLsb' 0 6 = a ∧
    (encodeHeader a m).extractLsb' 6 2 = (modeBits m).extractLsb' 6 2) ∧
  (∀ a b m n, encodeHeader a m = encodeHeader b n → a = b ∧ m = n)

/-- Derived (R80 to R87, the model's operand bytes of log 2): decoding the word of any well-formed instruction gives the
instruction back, with every operand. -/
def Obligations.DecodeReadsEncodedInstruction : Prop :=
  ∀ i : Instr, i.wf = true → decode (encode i) = .instr i

/-- Derived (R80 to R87, D4): a word the decoder reads is the word of that instruction, and the instruction keeps the
bounds of R7; so no word has two readings and no bit of a word is ignored. -/
def Obligations.DecodedWordIsTheInstructionsWord : Prop :=
  ∀ (w : PortWord) (i : Instr), decode w = .instr i → i.wf = true ∧ encode i = w

/-- Derived (R81 to R86, spec/opcode_table.json): words written out from the spec's layouts decode to their
instructions. -/
def Obligations.TableWordsDecodeToTheirRows : Prop :=
  decode ⟨.hdr, [0b00110000#8, 0x00#8]⟩ = .instr .sReset ∧
  decode ⟨.hdr, [0b00110111#8, 0x00#8]⟩ = .instr .s37 ∧
  decode ⟨.hdr, [0b00111101#8, 0x00#8]⟩ = .instr .sNop ∧
  decode ⟨.hdr, [0b00000110#8, 0x40#8]⟩ = .instr (.wireWriteSingle 0x06#6 0x40#8) ∧
  decode ⟨.hdr, [0b01111110#8, 0xC0#8, 0x00#8]⟩ = .instr (.wireWriteBurst 0x3E#6 [0xC0#8, 0x00#8]) ∧
  decode ⟨.hdr, [0b10000110#8, 0x00#8]⟩ = .instr (.wireReadSingle 0x06#6) ∧
  decode ⟨.hdr, [0b11111111#8, 0b11000111#8, 0b11001111#8, 0b11010111#8]⟩ = .instr (.wireReadBurst 0x3F#6 3) ∧
  decode ⟨.cmd, [0b00000000#8, 0x3D#8]⟩ = .instr (.strobe 0x3D#6) ∧
  decode ⟨.cmd, [0b00000101#8, 0x12#8, 0x34#8, 0x00#8, 0x08#8, 0b01011100#8]⟩ =
    .instr (.frameTx [false, true, false, true, true, true, false, false] 0x1234#16) ∧
  decode ⟨.cmd, [0b00000111#8]⟩ = .instr .reserved7

/-- Derived (R95): STROBE of a code and WRITE_SINGLE of zero to the same number put the same bytes on the bus, and
neither is rejected. -/
def Obligations.StrobeAndZeroWriteShareWireBytes : Prop :=
  ∀ (code : Addr) (s : State), s.phase = .idle → 0x30 ≤ code.toNat → code.toNat ≤ 0x3D →
    ∃ t u, exec (.strobe code) s = .next t ∧ exec (.writeSingle code 0x00#8) s = .next u ∧
      t.phase = .select ∧ u.phase = .select ∧ t.txbuf = [code.setWidth 8, 0x00#8] ∧ u.txbuf = t.txbuf

/-! Reset and the step. -/

/-- R39: what reset leaves: the values the spec gives, and of the elements it leaves unspecified that no rule observes
them: whatever they hold, the block shows in every environment what it shows with the values of `State.reset` (log 8).
-/
def Obligations.ResetStateIsIdleAndReleased : Prop :=
  State.reset.phase = .idle ∧ State.reset.sel = .released ∧ busy State.reset = false ∧
  errOut State.reset = false ∧ cmdReady State.reset = true ∧ resValid State.reset = false ∧
  ∀ (s : State) (k : Nat), AtRest s →
    visibleOutcome (run k s) = visibleOutcome (run k { State.reset with
      port := s.port, rst := s.rst, host := s.host, answers := s.answers, pinLevels := s.pinLevels, bus := s.bus,
      draws := s.draws, params := s.params })

/-- Derived (R38, R40, R230 to R232): asserting `rst` puts the block in `IDLE` with the select signal released from
any phase; an asserted select is released at once and no other bus activity happens; no result is delivered; neither
the HOST nor the CHIP's side is reset, and that a presented word stays at the port is log 21's choice. Nothing is said
of the elements R39 leaves unspecified. -/
def Obligations.ResetInputReturnsBlockToIdle : Prop :=
  ∀ s : State, rstAsserted s = true →
    ∃ t, step s = .next t ∧ t.phase = .idle ∧ t.sel = .released ∧ resultPort t = none ∧ busy t = false ∧
      (s.sel = .asserted → t.bus = s.bus ++ [.release]) ∧ (s.sel = .released → t.bus = s.bus) ∧
      t.port = s.port ∧ t.host = s.host ∧ t.answers = s.answers ∧ t.pinLevels = s.pinLevels ∧
      t.params = s.params ∧ t.rst = s.rst.tail

/-- Derived (R28, R116): in `IDLE`, with `rst` released, a step on a presented word that decodes runs that instruction;
around it the step takes the word off the port and moves the reset input on by one step. -/
def Obligations.StepRunsPresentedInstruction : Prop :=
  ∀ (s : State) (w : PortWord) (i : Instr), s.phase = .idle → rstAsserted s = false → s.port = some w →
    decode w = .instr i → step s = exec i { s with rst := s.rst.tail, port := none }

/-- Derived (D4; the model's choice of log 2): a presented word that is no instruction is refused by name. -/
def Obligations.StepRefusesUndecodableWord : Prop :=
  ∀ (s : State) (w : PortWord) (e : DecodeError), s.phase = .idle → rstAsserted s = false → s.port = some w →
    decode w = .rejected e → step s = .refused (.undecodable e)

/-- Derived (R62, R115): outside `IDLE` no instruction is accepted: it changes nothing and is no failure, and
`cmd_ready` is false. That a step leaves a presented command at the port, so that it can still be accepted later, is
log 21's choice: the rules say only that it is not accepted. -/
def Obligations.CommandNotAcceptedWhileBusy : Prop :=
  ∀ s : State, s.phase ≠ .idle →
    (∀ i : Instr, exec i s = .next s) ∧ cmdReady s = false ∧ busy s = true ∧
    (∀ t, step s = .next t → t.port = s.port)

/-- Derived (R20, R29, R31, R86): every instruction completes in every state, and its frame: nothing outside the
FRAMER and the bus changes, and on the bus at most the select signal is asserted. -/
def Obligations.EveryInstructionAnswersWithItsFrame : Prop :=
  ∀ (i : Instr) (s : State), ∃ t, exec i s = .next t ∧
    t.port = s.port ∧ t.rst = s.rst ∧ t.host = s.host ∧ t.answers = s.answers ∧ t.pinLevels = s.pinLevels ∧
    t.draws = s.draws ∧ t.params = s.params ∧
    (s.phase = .idle → t.op = i.command) ∧
    (t.bitbuf = s.bitbuf ∨ (∃ payload sync, i = .frameTx payload sync) ∨ ∃ raw, i = .decodeRx raw) ∧
    ((t.phase = .select ∧ s.phase = .idle ∧ t.bus = s.bus ++ [.select]) ∨
      (t.bus = s.bus ∧ t.txbuf = s.txbuf ∧ t.rxbuf = s.rxbuf ∧ t.idx = s.idx ∧ t.sel = s.sel))

/-- Derived (R116): the sequencer's step in each phase but `IDLE`, with `rst` released. -/
def Obligations.SequencerStepsByPhase : Prop :=
  ∀ s : State, rstAsserted s = false →
    (s.phase = .select → step s = .next { s with rst := s.rst.tail, phase := .xfer }) ∧
    (∀ b r, s.phase = .xfer → s.txbuf[s.idx]? = some b → chipAnswers b s = some r →
      step s = .next { s with
        rst := s.rst.tail
        answers := s.answers.tail
        rxbuf := s.rxbuf ++ [r]
        idx := s.idx + 1
        bus := s.bus ++ [.exchange b r]
        phase := if s.idx + 1 = s.txbuf.length then .release else .xfer }) ∧
    (∀ b, s.phase = .xfer → s.sel = .asserted → s.txbuf[s.idx]? = some b → chipAnswers b s = none →
      step s = .next { s with
        rst := s.rst.tail
        answers := s.answers.tail
        result := .err .transportFailure
        bus := s.bus ++ [.broken b]
        phase := .release }) ∧
    (∀ f, s.phase = .release → s.result = .err f →
      step s = .next { s with
        rst := s.rst.tail, sel := .released, bus := s.bus ++ [.release], phase := .done }) ∧
    (∀ r, s.phase = .release → isErr s.result = false → busResult s.op s.rxbuf = some r →
      step s = .next { s with
        rst := s.rst.tail, sel := .released, bus := s.bus ++ [.release], result := r, phase := .done })

/-- Derived (R20, R31, R116, and R215, which the spec marks as its own inference): in `DONE` the HOST takes the result
and the block is idle again, with no failure left behind: not busy, `err` false, nothing on the result port. That a
presented word stays at the port is log 21's choice. -/
def Obligations.TakenResultLeavesNoFailure : Prop :=
  ∀ s : State, s.phase = .done → rstAsserted s = false →
    ∃ t, step s = .next t ∧ t.phase = .idle ∧ busy t = false ∧ errOut t = false ∧ resultPort t = none ∧
      t.host.taken = some s.result ∧ t.bus = s.bus ∧ t.sel = s.sel ∧ t.port = s.port ∧ t.answers = s.answers ∧
      t.params = s.params

/-! The transaction. -/

/-- Derived (R110, R111, R116, and R117, which the spec marks as its own inference): the sequencer and the primitive
TRANSACT describe the same transaction: after an instruction began one, the run ends in `DONE` with the bus history
and the CHIP's remaining answers that TRANSACT leaves, and its result is TransportFailure exactly where the primitive
fails, otherwise the command's result of the bytes the primitive returned, as many as were sent. -/
def Obligations.SequencerAgreesWithTransact : Prop :=
  ∀ (i : Instr) (s t : State), s.phase = .idle → exec i s = .next t → t.phase = .select →
    NoReset (t.txbuf.length + 2) s →
    ∃ k u, k ≤ t.txbuf.length + 2 ∧ run k t = .next u ∧ u.phase = .done ∧ u.sel = .released ∧
      u.bus = (transact t.txbuf s).2.bus ∧ u.answers = (transact t.txbuf s).2.answers ∧
      ((transact t.txbuf s).1 = none → u.result = .err .transportFailure) ∧
      (∀ rx, (transact t.txbuf s).1 = some rx →
        rx.length = t.txbuf.length ∧ busResult t.op rx = some u.result)

/-- Derived (R112; that the byte of a failed exchange counts as sent, and so is among the events, is log 19's choice):
one select window per transaction: the bus sees one assertion, then only exchanges of `TXBUF`'s bytes in index order
(all of them unless the transfer failed), then one release; and the select signal stays asserted in every state
between. -/
def Obligations.OneSelectWindowPerTransaction : Prop :=
  ∀ (i : Instr) (s t : State), s.phase = .idle → exec i s = .next t → t.phase = .select →
    NoReset (t.txbuf.length + 2) s →
    ∃ (k : Nat) (u : State) (events : List BusEvent), run k t = .next u ∧ u.phase = .done ∧ u.sel = .released ∧
      u.bus = s.bus ++ [BusEvent.select] ++ events ++ [BusEvent.release] ∧
      events.map outByte = (t.txbuf.take events.length).map some ∧
      (isErr u.result = false → events.length = t.txbuf.length) ∧
      (∀ j, j < k → ∃ v, run j t = .next v ∧ v.sel = .asserted)

/-- Derived (R249, and R97, which the spec marks as its own inference): every command ends, after at most a number of
steps fixed by its operands: two more than the bytes it puts on the wire, none for a command that is rejected or does
not use the bus. -/
def Obligations.EveryCommandEndsInBoundedSteps : Prop :=
  ∀ (i : Instr) (s t : State), AtRest s → exec i s = .next t →
    NoReset (((acceptedLayout s.params i.command).map List.length).getD 0 + 2) s →
    ∃ k u, k ≤ ((acceptedLayout s.params i.command).map fun tx => tx.length + 2).getD 0 ∧
      run k t = .next u ∧ u.phase = .done ∧ u.sel = .released ∧ resultFits i.command u.result

/-- Derived (R114, R201, R213, R216): where the bus primitive fails at byte `len(rx)`, the command ends with
TransportFailure and no data, the select signal is released, and nothing is sent again. That the failed byte counts as
sent is log 19's choice, and that `RXBUF` keeps the responses before it is log 4's: R114 says that they are discarded,
and no result shows them. -/
def Obligations.TransportFailureEndsTheCommand : Prop :=
  ∀ (i : Instr) (s t : State) (rx : List Byte) (rest : List (Option Byte)), s.phase = .idle →
    exec i s = .next t → t.phase = .select → rx.length < t.txbuf.length →
    s.answers = rx.map some ++ none :: rest → NoReset (rx.length + 3) s →
    run (rx.length + 3) t =
      .next (afterTransaction i.command t.txbuf rx
        (exchanges t.txbuf rx ++ [.broken (t.txbuf.getD rx.length 0x00#8)])
        (.err .transportFailure) (rx.length + 1) (rx.length + 3) s)

/-! Invariants. -/

/-- Derived (R21 to R27): every step keeps the FRAMER's invariant. -/
def Obligations.StepKeepsFramerInvariant : Prop :=
  ∀ s t : State, FramerInv s → step s = .next t → FramerInv t

/-- Derived (R39): the invariant holds after reset. -/
def Obligations.FramerInvariantHoldsAtReset : Prop :=
  FramerInv State.reset

/-- Derived (R116, R249): from a state that keeps the invariant no step faults. -/
def Obligations.InvariantRulesOutFaults : Prop :=
  ∀ (s : State) (f : Fault), FramerInv s → step s ≠ .fault f

/-- R22: the select signal is asserted exactly in `SELECT`, `XFER` and `RELEASE`: after reset, and every step keeps it
so, whatever the buffers hold. -/
def Obligations.SelectFollowsPhaseThroughEveryStep : Prop :=
  SelFollowsPhase State.reset ∧ ∀ s t : State, SelFollowsPhase s → step s = .next t → SelFollowsPhase t

/-- Derived (R24, R28, R29): while a transaction is under way no step changes `TXBUF`, the operand latch or the bit
buffer; only a reset does. -/
def Obligations.TransmitBufferFixedDuringTransaction : Prop :=
  ∀ s t : State, rstAsserted s = false → s.phase = .select ∨ s.phase = .xfer ∨ s.phase = .release →
    step s = .next t → t.txbuf = s.txbuf ∧ t.op = s.op ∧ t.bitbuf = s.bitbuf

/-- Derived (R7, and R41, which the spec marks as its own inference): no step changes a parameter. -/
def Obligations.ParametersNeverChange : Prop :=
  ∀ s t : State, step s = .next t → t.params = s.params

/-- Derived (R66, and R67, which the spec marks as its own inference): the bus history only grows, by at most one
event a step, and a byte is sent only in `XFER`. -/
def Obligations.BusHistoryOnlyGrows : Prop :=
  ∀ s t : State, step s = .next t →
    ∃ events, t.bus = s.bus ++ events ∧ events.length ≤ 1 ∧
      (s.phase ≠ .xfer → ∀ e ∈ events, outByte e = none)

/-- Derived (R20, R29, R31, and R215, which the spec marks as its own inference): between two commands the block holds
no information: two states at rest that agree on everything outside its buffers, operand latch and result go on to
show the same, for ever. -/
def Obligations.NothingRetainedBetweenCommands : Prop :=
  ∀ s t : State, AtRest s → visible s = visible t → ∀ k, visibleOutcome (run k s) = visibleOutcome (run k t)

/-- Derived (R36, R211): outside the HOST's own turn the pin has no effect: a step with other pin levels is the same
step. -/
def Obligations.PinNeverReachesTheFramer : Prop :=
  ∀ (s t : State) (levels : List Bool), s.phase ≠ .idle ∨ s.port.isSome = true ∨ rstAsserted s = true →
    step s = .next t → step { s with pinLevels := levels } = .next { t with pinLevels := levels }

/-! Strobes. -/

/-- R81: a strobe puts `[code, 0x00]` on the bus and returns both response bytes. -/
def Obligations.StrobeSendsCodeAndFiller : Prop :=
  ∀ code : Addr, 0x30 ≤ code.toNat → code.toNat ≤ 0x3D →
    RunsOnBus (fun _ => True) (.strobe code) [code.setWidth 8, 0x00#8] .okBytes

/-- R141: a code outside the fourteen is rejected with IllegalStrobe and nothing is sent; every code inside the range is
accepted. -/
def Obligations.IllegalStrobeIsRejected : Prop :=
  ∀ (code : Addr) (s : State), AtRest s →
    (code.toNat < 0x30 ∨ 0x3D < code.toNat →
      exec (.strobe code) s =
        .next { s with op := .strobe code, result := .err (.illegalStrobe code), phase := .done }) ∧
    (0x30 ≤ code.toNat ∧ code.toNat ≤ 0x3D → ∃ t, exec (.strobe code) s = .next t ∧ t.phase = .select)

/-- Derived (R142 to R148): the strobes `0x30` to `0x36` by name. -/
def Obligations.NamedStrobesResetToIdle : Prop :=
  RunsOnBus (fun _ => True) .sReset [0x30#8, 0x00#8] .okBytes ∧
  RunsOnBus (fun _ => True) .sFstxon [0x31#8, 0x00#8] .okBytes ∧
  RunsOnBus (fun _ => True) .sXoff [0x32#8, 0x00#8] .okBytes ∧
  RunsOnBus (fun _ => True) .sCal [0x33#8, 0x00#8] .okBytes ∧
  RunsOnBus (fun _ => True) .sRx [0x34#8, 0x00#8] .okBytes ∧
  RunsOnBus (fun _ => True) .sTx [0x35#8, 0x00#8] .okBytes ∧
  RunsOnBus (fun _ => True) .sIdle [0x36#8, 0x00#8] .okBytes

/-- Derived (R149 to R155): the strobes `0x37` to `0x3D` by name. -/
def Obligations.NamedStrobes37ToNop : Prop :=
  RunsOnBus (fun _ => True) .s37 [0x37#8, 0x00#8] .okBytes ∧
  RunsOnBus (fun _ => True) .sWor [0x38#8, 0x00#8] .okBytes ∧
  RunsOnBus (fun _ => True) .sPwd [0x39#8, 0x00#8] .okBytes ∧
  RunsOnBus (fun _ => True) .sFlushRx [0x3A#8, 0x00#8] .okBytes ∧
  RunsOnBus (fun _ => True) .sFlushTx [0x3B#8, 0x00#8] .okBytes ∧
  RunsOnBus (fun _ => True) .sWorrst [0x3C#8, 0x00#8] .okBytes ∧
  RunsOnBus (fun _ => True) .sNop [0x3D#8, 0x00#8] .okBytes

/-! Register access. -/

/-- Derived (R82; that the command can be presented by its wire layout is log 1's choice): WRITE_SINGLE puts the
address and the value on the bus and returns nothing. -/
def Obligations.WriteSingleSendsAddressAndValue : Prop :=
  ∀ (addr : Addr) (value : Byte),
    RunsOnBus (fun _ => True) (.writeSingle addr value) [addr.setWidth 8, value] (fun _ => .okNone) ∧
    RunsOnBus (fun _ => True) (.wireWriteSingle addr value) [addr.setWidth 8, value] (fun _ => .okNone)

/-- Derived (R83; that the command can be presented by its wire layout is log 1's choice): READ_SINGLE puts the
read-single header and a zero filler on the bus and returns the second byte. -/
def Obligations.ReadSingleReturnsSecondByte : Prop :=
  ∀ addr : Addr,
    RunsOnBus (fun _ => True) (.readSingle addr) [addr.setWidth 8 ||| 0x80#8, 0x00#8]
      (fun rx => .okByte (rx.getD 1 0x00#8)) ∧
    RunsOnBus (fun _ => True) (.wireReadSingle addr) [addr.setWidth 8 ||| 0x80#8, 0x00#8]
      (fun rx => .okByte (rx.getD 1 0x00#8))

/-- Derived (R84; that the command can be presented by its wire layout is log 1's choice): WRITE_BURST puts the
write-burst header and the data on the bus, in order, and returns nothing. -/
def Obligations.WriteBurstSendsHeaderAndData : Prop :=
  ∀ (addr : Addr) (data : List Byte),
    RunsOnBus (fun _ => True) (.writeBurst addr data) ((addr.setWidth 8 ||| 0x40#8) :: data) (fun _ => .okNone) ∧
    RunsOnBus (fun _ => True) (.wireWriteBurst addr data) ((addr.setWidth 8 ||| 0x40#8) :: data) (fun _ => .okNone)

/-- Derived (R85, R125; that the command can be presented by its wire layout is log 1's choice): READ_BURST whose sums
all fit a byte puts `length + 1` address bytes on the bus and returns every response byte, the status first. -/
def Obligations.ReadBurstSendsAddressBytes : Prop :=
  ∀ (addr : Addr) (length : Nat), addr.toNat + 8 * length ≤ 255 →
    RunsOnBus (fun _ => True) (.readBurst addr length)
      ((List.range (length + 1)).map fun k => BitVec.ofNat 8 (addr.toNat + 8 * k) ||| 0xC0#8) .okBytes ∧
    RunsOnBus (fun _ => True) (.wireReadBurst addr length)
      ((List.range (length + 1)).map fun k => BitVec.ofNat 8 (addr.toNat + 8 * k) ||| 0xC0#8) .okBytes

/-- Derived (R125, R127; that the command can be presented by its wire layout is log 1's choice): with
`BURST_ADDR_OVERFLOW` = `wrap` every READ_BURST runs, its sums taken modulo 256. -/
def Obligations.ReadBurstWrapsWhereItMay : Prop :=
  ∀ (addr : Addr) (length : Nat),
    RunsOnBus (fun s => s.params.burstAddrOverflow = .wrap) (.readBurst addr length)
      ((List.range (length + 1)).map fun k => BitVec.ofNat 8 ((addr.toNat + 8 * k) % 256) ||| 0xC0#8) .okBytes ∧
    RunsOnBus (fun s => s.params.burstAddrOverflow = .wrap) (.wireReadBurst addr length)
      ((List.range (length + 1)).map fun k => BitVec.ofNat 8 ((addr.toNat + 8 * k) % 256) ||| 0xC0#8) .okBytes

/-- Derived (R127, R207; that the command can be presented by its wire layout is log 1's choice): with
`BURST_ADDR_OVERFLOW` = `fault` a READ_BURST whose largest sum exceeds 255 is rejected before any bus activity; with
`wrap` it starts a transaction. -/
def Obligations.BurstAddressOverflowIsRejected : Prop :=
  ∀ (addr : Addr) (length : Nat) (s : State), AtRest s → 255 < addr.toNat + 8 * length →
    (s.params.burstAddrOverflow = .fault →
      exec (.readBurst addr length) s =
        .next { s with
          op := .readBurst addr length, result := .err (.burstAddressOverflow length), phase := .done } ∧
      exec (.wireReadBurst addr length) s = exec (.readBurst addr length) s) ∧
    (s.params.burstAddrOverflow = .wrap →
      ∃ t, exec (.readBurst addr length) s = .next t ∧ exec (.wireReadBurst addr length) s = .next t ∧
        t.phase = .select ∧ t.sel = .asserted ∧ t.txbuf.length = length + 1)

/-- Derived (the formula of R126; its consequences are the spec's own inference): the address sequence of an accepted
READ_BURST: every byte's low three bits are the address's, its mode bits are `11`, and while the sum fits a byte it is
`(addr + 8 * i) | 0xC0` and its bits 5:3 count up modulo 8. -/
def Obligations.BurstAddressSequence : Prop :=
  ∀ (addr : Addr) (length : Nat) (s t : State), s.phase = .idle → exec (.readBurst addr length) s = .next t →
    t.phase = .select →
    t.txbuf.length = length + 1 ∧ t.txbuf[0]? = some (addr.setWidth 8 ||| 0xC0#8) ∧
    ∀ k, k ≤ length → ∃ b, t.txbuf[k]? = some b ∧ b.extractLsb' 0 3 = addr.extractLsb' 0 3 ∧
      b.extractLsb' 6 2 = 0b11#2 ∧
      (addr.toNat + 8 * k ≤ 255 →
        b.toNat = (addr.toNat + 8 * k) ||| 0xC0 ∧
        (b.extractLsb' 3 3).toNat = ((addr.extractLsb' 3 3).toNat + k) % 8)

/-- Derived (R127, R246): under `fault` the bursts that run from an address are exactly those of at most
`floor((255 - a) / 8)` data bytes. -/
def Obligations.LongestBurstFromAnAddress : Prop :=
  ∀ (addr : Addr) (length : Nat) (s : State), AtRest s → s.params.burstAddrOverflow = .fault →
    ((∃ t, exec (.readBurst addr length) s = .next t ∧ t.phase = .select) ↔ length ≤ (255 - addr.toNat) / 8)

/-! The packet framer. -/

/-- Derived (the construction of R160; that its total is 512 bits is the spec's own inference, R164): an accepted
payload gives the 512 bits of padding, sync word and payload, packed into the frame, and `FRAME_LEN` = 64; nothing is
sent. -/
def Obligations.FrameTxBuildsTheFrame : Prop :=
  ∀ (payload : List Bit) (sync : SyncWord) (s : State), s.phase = .idle → payload.length ≤ 496 →
    payload.length % 8 = 0 →
    ∃ bits : List Bit,
      bits = (List.replicate ((496 - payload.length) / 8)
          [true, false, true, false, true, false, true, false]).flatten ++
        (List.range 16).map (fun k => sync.getLsbD (15 - k)) ++ payload ∧
      bits.length = 512 ∧ (packBits bits).length = 64 ∧
      exec (.frameTx payload sync) s =
        .next { s with
          op := .frameTx payload sync
          bitbuf := bits
          result := .okFrame (packBits bits) 64
          phase := .done }

/-- R165: the bytes of an accepted frame: `0xAA` through the padding, the sync word high byte first, then the payload
bit for bit, the earlier bit the more significant. -/
def Obligations.FrameByteLayout : Prop :=
  ∀ (payload : List Bit) (sync : SyncWord) (s : State), s.phase = .idle → payload.length ≤ 496 →
    payload.length % 8 = 0 →
    ∃ t bs, exec (.frameTx payload sync) s = .next t ∧ t.result = .okFrame bs 64 ∧ bs.length = 64 ∧
      (∀ k, k < 64 → (bs[k]?).map bits8 = some ((t.bitbuf.drop (8 * k)).take 8)) ∧
      (∀ k, k < (496 - payload.length) / 8 → bs[k]? = some 0xAA#8) ∧
      bs[(496 - payload.length) / 8]? = some (sync.extractLsb' 8 8) ∧
      bs[(496 - payload.length) / 8 + 1]? = some (sync.extractLsb' 0 8) ∧
      (∀ j m, j < payload.length / 8 → m < 8 →
        (bs[(496 - payload.length) / 8 + 2 + j]?).map (fun b => b.getLsbD (7 - m)) = payload[8 * j + m]?)

/-- R162: a payload over 496 bits is rejected with FrameOverflow, aligned or not. -/
def Obligations.FrameOverflowIsRejectedFirst : Prop :=
  ∀ (payload : List Bit) (sync : SyncWord) (s : State), AtRest s → 496 < payload.length →
    exec (.frameTx payload sync) s =
      .next { s with
        op := .frameTx payload sync, result := .err (.frameOverflow payload.length), phase := .done }

/-- R163: a shorter payload is rejected with FrameNotByteAligned where the total bit length is not a multiple of 8,
which is exactly where the payload is not a whole number of bytes; no frame is produced. -/
def Obligations.FrameNotByteAlignedIsRejected : Prop :=
  ∀ (payload : List Bit) (sync : SyncWord) (s : State), AtRest s → payload.length ≤ 496 →
    ((8 * ((496 - payload.length) / 8) + 16 + payload.length) % 8 ≠ 0 ↔ payload.length % 8 ≠ 0) ∧
    (payload.length % 8 ≠ 0 →
      exec (.frameTx payload sync) s =
        .next { s with
          op := .frameTx payload sync, result := .err (.frameNotByteAligned payload.length), phase := .done })

/-- Derived (R167, R169): DECODE_RX drops the first byte, whatever it is, and returns the eight bits of every other
byte, most significant first. -/
def Obligations.DecodeRxReturnsTheBits : Prop :=
  ∀ (status : Byte) (body : List Byte) (s : State), s.phase = .idle →
    ∃ bits : List Bit,
      bits = body.flatMap (fun b => (List.range 8).map fun k => b.getLsbD (7 - k)) ∧
      bits.length = 8 * body.length ∧
      exec (.decodeRx (status :: body)) s =
        .next { s with op := .decodeRx (status :: body), bitbuf := bits, result := .okBits bits, phase := .done }

/-- R168: an empty list is rejected with EmptyBurst. -/
def Obligations.EmptyBurstIsRejected : Prop :=
  ∀ s : State, AtRest s →
    exec (.decodeRx []) s = .next { s with op := .decodeRx [], result := .err .emptyBurst, phase := .done }

/-- Derived (R160, R167; the spec marks R170 as its own inference): decoding a status byte and an accepted frame
returns the bits that encoding packed, of which the payload is the end. -/
def Obligations.FrameRoundTrip : Prop :=
  ∀ (status : Byte) (payload : List Bit) (sync : SyncWord) (s v : State), s.phase = .idle → v.phase = .idle →
    payload.length ≤ 496 → payload.length % 8 = 0 →
    ∃ t frame u, exec (.frameTx payload sync) s = .next t ∧ t.result = .okFrame frame 64 ∧
      exec (.decodeRx (status :: frame)) v = .next u ∧ u.result = .okBits t.bitbuf ∧
      t.bitbuf = (List.replicate ((496 - payload.length) / 8)
          [true, false, true, false, true, false, true, false]).flatten ++
        (List.range 16).map (fun k => sync.getLsbD (15 - k)) ++ payload ∧
      t.bitbuf.drop (8 * ((496 - payload.length) / 8) + 16) = payload

/-- R93: `op` = 7 is accepted and fails at once with IllegalCommand; no bus activity occurs. -/
def Obligations.ReservedCommandFailsAtOnce : Prop :=
  ∀ s : State, AtRest s →
    exec .reserved7 s = .next { s with op := .reserved7, result := .err .illegalCommand, phase := .done }

/-! Failures. -/

/-- Derived (R200): the failure codes, 0 for success. -/
def Obligations.FailureCodesAsNumbered : Prop :=
  (∀ r, isErr r = false → resultCode r = 0) ∧
  resultCode (.err .transportFailure) = 1 ∧ resultCode (.err .protocolTimeout) = 2 ∧
  resultCode (.err .partialConfigFailure) = 3 ∧ (∀ n, resultCode (.err (.frameOverflow n)) = 4) ∧
  (∀ n, resultCode (.err (.frameNotByteAligned n)) = 5) ∧ (∀ c, resultCode (.err (.illegalStrobe c)) = 6) ∧
  (∀ n, resultCode (.err (.burstAddressOverflow n)) = 7) ∧ resultCode (.err .emptyBurst) = 8 ∧
  resultCode (.err .illegalCommand) = 9

/-- Derived (R212, R213, and R214, which the spec marks as its own inference): a failure raised at acceptance is
precise: no byte, no select, no answer of the CHIP used, every buffer as before; and it is never TransportFailure. -/
def Obligations.OperandCheckFailureIsPrecise : Prop :=
  ∀ (i : Instr) (s t : State) (f : Failure), AtRest s → exec i s = .next t → t.result = .err f →
    t = { s with op := i.command, result := .err f, phase := .done } ∧ f ≠ .transportFailure

/-! The HOST. -/

/-- Derived (R194, R9, R210; that the HOST's turn is a step of the machine is log 12's choice): the HOST's own turn
never stops the machine, whatever the HOST has to do, and the block stays as it is: `IDLE`, no bus activity, every
buffer, the result and the parameters untouched. -/
def Obligations.HostTurnLeavesTheBlockAlone : Prop :=
  ∀ s : State, s.phase = .idle → s.port = none → rstAsserted s = false →
    ∃ t, step s = .next t ∧ t.phase = .idle ∧ t.sel = s.sel ∧ t.idx = s.idx ∧ t.txbuf = s.txbuf ∧ t.rxbuf = s.rxbuf ∧
    t.bitbuf = s.bitbuf ∧ t.result = s.result ∧ t.op = s.op ∧ t.answers = s.answers ∧ t.bus = s.bus ∧
    t.params = s.params

/-- Derived (R180, R203, R239): a failing row of a configuration table ends the sequence as PartialConfigFailure; the
rows after it are not written, and the CHIP's configuration is in doubt. -/
def Obligations.FailedConfigRowEndsTheTable : Prop :=
  ∀ (s : State) (addr : Addr) (value : Byte) (rest : List HostOp) (f : Failure), s.phase = .done →
    rstAsserted s = false → s.result = .err f → s.host.waiting = true →
    s.host.ops = .configWrite addr value :: rest →
    ∃ t, step s = .next t ∧ t.host.ops = [] ∧ t.host.waiting = false ∧
      t.host.reports = s.host.reports ++ [.failed .partialConfigFailure] ∧ t.host.queue = s.host.queue ∧
      t.host.trust = .needsReset

/-- Derived (R28, R248; the turn is log 12's choice, the wire layouts log 1's): the command of the HOST's line is the
one the block runs: the HOST presents it in its turn, and the next step is the instruction itself. A command beyond the
bounds of R7 is not presented (D4): it is reported and its sequence ends, which is log 12's choice. -/
def Obligations.HostsCommandIsRun : Prop :=
  ∀ (s : State) (op : HostOp) (rest : List HostOp) (i : Instr), s.phase = .idle → s.port = none →
    s.host.waiting = false → s.host.ops = op :: rest → hostCommand s.params s.host op = some i →
    (i.command.wf = true → NoReset 2 s →
      run 2 s = exec i { s with rst := s.rst.drop 2, host := { s.host with waiting := true } }) ∧
    (i.command.wf = false → NoReset 1 s →
      ∃ t, step s = .next t ∧ t.phase = .idle ∧ t.port = none ∧ t.bus = s.bus ∧ t.host.ops = [] ∧
        t.host.waiting = false ∧ t.host.queue = s.host.queue ∧
        t.host.reports = s.host.reports ++ [.notPresentable i])

/-- Derived (R183, R235, R236, R239; that the HOST skips and reports a withheld sequence is the choice of logs 20 and
23, that it applies a path's profile itself and then begins the path log 22's): while the CHIP's configuration is in
doubt, of the queue's sequences only a recovery, an `S_RESET`, a command that does not use the bus and, after the
`S_RESET`, an APPLY_CONFIG is begun; any other is withheld and reported. Without doubt each is begun, but a path only
after the known state, the frequency, the sync word, the packet length and the power-ramp table of R235 (otherwise it
is withheld and reported) and with its mode's profile in force (otherwise that profile is applied first and the path
stays the next of the queue). -/
def Obligations.SequencesBeginAsDoubtAndPreparationAllow : Prop :=
  ∀ (s : State) (q : HostSeq) (queue : List HostSeq), s.phase = .idle → s.port = none → rstAsserted s = false →
    s.host.waiting = false → s.host.ops = [] → s.host.queue = q :: queue →
    ∃ t, step s = .next t ∧ t.host.trust = s.host.trust ∧ t.host.mode = s.host.mode ∧
      t.host.prepared = s.host.prepared ∧ t.port = none ∧
      (s.host.trust ≠ .trusted →
        t.host.queue = queue ∧
        ((∃ table, q = .recover table) ∨ (∃ mode, q = .recoverProfile mode) ∨
            (∃ i, q = .command i ∧
              (i.command = .strobe 0x30#6 ∨ (∃ payload sync, i.command = .frameTx payload sync) ∨
                (∃ raw, i.command = .decodeRx raw) ∨ i.command = .reserved7)) ∨
            (s.host.trust = .needsTable ∧ ((∃ table, q = .applyConfig table) ∨ ∃ mode, q = .applyProfile mode)) →
          t.host.ops = expand s.params s.host.profiles q ∧ t.host.reports = s.host.reports) ∧
        (¬((∃ table, q = .recover table) ∨ (∃ mode, q = .recoverProfile mode) ∨
            (∃ i, q = .command i ∧
              (i.command = .strobe 0x30#6 ∨ (∃ payload sync, i.command = .frameTx payload sync) ∨
                (∃ raw, i.command = .decodeRx raw) ∨ i.command = .reserved7)) ∨
            (s.host.trust = .needsTable ∧ ((∃ table, q = .applyConfig table) ∨ ∃ mode, q = .applyProfile mode))) →
          t.host.ops = [] ∧ t.host.reports = s.host.reports ++ [.withheld q])) ∧
      (s.host.trust = .trusted →
        ((∀ mode, IsPathOf mode q → s.host.mode = some mode ∧ s.host.prepared = ⟨true, true, true, true, true⟩) →
          t.host.queue = queue ∧ t.host.ops = expand s.params s.host.profiles q ∧ t.host.reports = s.host.reports) ∧
        (∀ mode, IsPathOf mode q → s.host.prepared ≠ ⟨true, true, true, true, true⟩ →
          t.host.queue = queue ∧ t.host.ops = [] ∧ t.host.reports = s.host.reports ++ [.withheld q]) ∧
        (∀ mode, IsPathOf mode q → s.host.prepared = ⟨true, true, true, true, true⟩ → s.host.mode ≠ some mode →
          t.host.queue = q :: queue ∧ t.host.reports = s.host.reports ∧
          t.host.ops = (profileFor s.host.profiles mode).map (fun row => HostOp.configWrite row.1 row.2) ++
            [.configDone (some mode)]))

/-- Derived (R183, R232, R235, R236, R239; logs 20, 22 and 23): after reset, and by every step, whatever fails and
wherever a reset falls: while the CHIP's configuration is in doubt the HOST has no line to do but those of
`LinesWhileInDoubt`, and it has lines of a path only while that path's profile is in force and the rest of R235's
preparation is done; so wherever it is still to read a received packet, the pin it polls before has the meaning
RX_PATH gives it. After an `S_RESET` of the HOST no profile is in force and of the preparation only the known state is
left. -/
def Obligations.StepKeepsHostObligations : Prop :=
  DoubtInv State.reset ∧ PathInv State.reset ∧
  (∀ s t : State, step s = .next t → (DoubtInv s → DoubtInv t) ∧ (PathInv s → PathInv t)) ∧
  (∀ (s : State) (packetLength : Nat), PathInv s → .readPacket packetLength ∈ s.host.ops →
    pinMeansPacket s.host = true) ∧
  ∀ (h : HostState) (r : Result) (op : HostOp) (rest : List HostOp) (i : Instr), h.waiting = true →
    h.ops = op :: rest → (op = .command i ∨ op = .loader i) → i.command = .strobe 0x30#6 → isErr r = false →
    (hostTake r h).mode = none ∧ (hostTake r h).prepared = ⟨true, false, false, false, false⟩

/-- Derived (R237, R95, R236, R251): a sequence the spec vouches for puts no header to a strobe's number on the bus,
unless it is RX_PATH or TX_PATH or one of the status reads those consist of; and the profile of such a path, which the
HOST may apply before it, puts none there. -/
def Obligations.VouchedSequencesSendNoStrobe : Prop :=
  ∀ (p : Params) (profiles : Profiles) (q : HostSeq), vouchedOrdering p profiles q = true →
    ∀ sequence : HostSeq,
      (sequence = q ∧ (∀ mode, ¬IsPathOf mode q) ∧ q ≠ .readState ∧ q ≠ .readTxBytes) ∨
        (∃ mode, IsPathOf mode q ∧ sequence = .applyProfile mode) →
      ∀ op ∈ expand p profiles sequence, ∀ (h : HostState) (i : Instr), hostCommand p h op = some i →
        ∀ (b : Byte) (tx : List Byte), wireLayout i.command = some (b :: tx) →
          b.toNat % 64 < 0x30 ∨ 0x3D < b.toNat % 64

/-- Derived (R180, R235, R236; that a path's profile is applied in a sequence of its own is log 22's choice, that a
table which is no profile leaves the mode too): `APPLY_CONFIG` of a table, of a mode's profile, or of the profile of a
path that is next while another mode is in force, when every exchange is answered, ends after seven steps a row with
every row's two bytes on the bus, in the table's order, reports success, leaves the configuration in no doubt and a
profile's mode in force, and changes nothing of the rest of R235's preparation (log 23's choice); the path is still
next. While an `S_RESET` is still due it is withheld (SequencesBeginAsDoubtAndPreparationAllow). -/
def Obligations.ApplyConfigWritesTheTableInOrder : Prop :=
  ∀ (s : State) (q : HostSeq) (table : List (Addr × Byte)) (queue after : List HostSeq) (mode : Option RadioMode)
    (rx : List Byte) (rest : List (Option Byte)),
    AtRest s → s.port = none → s.host.waiting = false → s.host.ops = [] → s.host.queue = q :: queue →
    (q = .applyConfig table ∧ s.host.trust ≠ .needsReset ∧ after = queue ∧ mode = s.host.mode) ∨
      (∃ m, q = .applyProfile m ∧ s.host.trust ≠ .needsReset ∧ table = profileFor s.host.profiles m ∧ after = queue ∧
        mode = some m) ∨
      (∃ m, IsPathOf m q ∧ s.host.trust = .trusted ∧ s.host.prepared = ⟨true, true, true, true, true⟩ ∧
        s.host.mode ≠ some m ∧ table = profileFor s.host.profiles m ∧ after = q :: queue ∧ mode = some m) →
    s.answers = rx.map some ++ rest → rx.length = 2 * table.length → NoReset (7 * table.length + 2) s →
    ∃ (t : State) (events : List BusEvent), run (7 * table.length + 2) s = .next t ∧ AtRest t ∧ t.port = none ∧
      t.answers = rest ∧ t.host.waiting = false ∧ t.host.ops = [] ∧ t.host.queue = after ∧ t.host.mode = mode ∧
      t.host.prepared = s.host.prepared ∧ t.host.trust = .trusted ∧ t.host.reports = s.host.reports ++ [.success] ∧
      t.bus = s.bus ++ events ∧
      events.filterMap outByte = table.flatMap (fun row => [row.1.setWidth 8, row.2])

/-- Derived (R181; the registers and the order are parameters, D26): `SET_FREQUENCY` of a word that fits 24 bits, when
every exchange is answered, writes each of its three bytes once to that byte's register, in the parameters' order, and
reports success, and the frequency is then set (R235; that this alone sets it is log 23's choice); where there is no
word, nothing is sent or set and the range failure is reported. That a negative frequency and a crystal of 0 Hz have
no word, and so end in that failure, is log 14's choice; R181 states it of a word above 24 bits. -/
def Obligations.SetFrequencyWritesEachByteOnce : Prop :=
  ∀ (s : State) (targetHz : Nat) (offsetHz : Int) (queue : List HostSeq), AtRest s → s.port = none →
    s.host.waiting = false → s.host.ops = [] → s.host.trust = .trusted →
    s.host.queue = .setFrequency targetHz offsetHz :: queue →
    (∀ (w : BitVec 24) (rx : List Byte) (rest : List (Option Byte)),
      frequencyWord s.params targetHz offsetHz = some w → s.answers = rx.map some ++ rest → rx.length = 6 → NoReset 23 s →
      ∃ (t : State) (events : List BusEvent) (rows : List (Addr × Byte)),
        run 23 s = .next t ∧ AtRest t ∧ t.port = none ∧ t.answers = rest ∧ t.host.ops = [] ∧
        t.host.queue = queue ∧ t.host.prepared = { s.host.prepared with frequency := true } ∧
        t.host.reports = s.host.reports ++ [.success] ∧ t.bus = s.bus ++ events ∧
        events.filterMap outByte = rows.flatMap (fun row => [row.1.setWidth 8, row.2]) ∧
        rows = freqRows s.params.freqPlan w ∧
        rows.Perm [(s.params.freqPlan.highAddr, w.extractLsb' 16 8), (s.params.freqPlan.middleAddr, w.extractLsb' 8 8),
          (s.params.freqPlan.lowAddr, w.extractLsb' 0 8)]) ∧
    (frequencyWord s.params targetHz offsetHz = none → NoReset 2 s →
      ∃ t, run 2 s = .next t ∧ AtRest t ∧ t.port = none ∧ t.answers = s.answers ∧ t.bus = s.bus ∧ t.host.ops = [] ∧
        t.host.queue = queue ∧ t.host.prepared = s.host.prepared ∧
        t.host.reports = s.host.reports ++ [.frequencyOutOfRange])

/-- Derived (R182; the sync word's split and the command for the power-ramp table are log 15's choice): when every
exchange is answered, the 16-bit sync word is written as its two bytes to their registers, the packet length as one,
and the eight bytes of the power-ramp table in one burst to `PATABLE_ADDR`; each reports success and counts as set
(R235; that these sequences alone set them is log 23's choice). -/
def Obligations.LinkParametersAreWritten : Prop :=
  ∀ (s : State) (q : HostSeq) (queue : List HostSeq) (rx : List Byte) (rest : List (Option Byte)), AtRest s →
    s.port = none → s.host.waiting = false → s.host.ops = [] → s.host.trust = .trusted →
    s.host.queue = q :: queue → s.answers = rx.map some ++ rest → NoReset 16 s →
    (∀ sync, q = .setSyncWord sync → rx.length = 4 →
      ∃ (t : State) (events : List BusEvent) (rows : List (Addr × Byte)),
        run 16 s = .next t ∧ AtRest t ∧ t.answers = rest ∧ t.host.ops = [] ∧ t.host.queue = queue ∧
        t.host.prepared = { s.host.prepared with syncWord := true } ∧
        t.host.reports = s.host.reports ++ [.success] ∧ t.bus = s.bus ++ events ∧
        events.filterMap outByte = rows.flatMap (fun row => [row.1.setWidth 8, row.2]) ∧
        rows.Perm [(s.params.syncPlan.highAddr, sync.extractLsb' 8 8),
          (s.params.syncPlan.lowAddr, sync.extractLsb' 0 8)]) ∧
    (∀ n, q = .setPacketLength n → rx.length = 2 →
      ∃ (t : State) (events : List BusEvent), run 9 s = .next t ∧ AtRest t ∧ t.answers = rest ∧ t.host.ops = [] ∧ t.host.queue = queue ∧
        t.host.prepared = { s.host.prepared with packetLength := true } ∧
        t.host.reports = s.host.reports ++ [.success] ∧ t.bus = s.bus ++ events ∧
        events.filterMap outByte = [s.params.pktlenAddr.setWidth 8, n]) ∧
    (∀ table, q = .loadPowerRamp table → rx.length = 9 →
      ∃ (t : State) (events : List BusEvent), run 16 s = .next t ∧ AtRest t ∧ t.answers = rest ∧ t.host.ops = [] ∧ t.host.queue = queue ∧
        t.host.prepared = { s.host.prepared with powerRamp := true } ∧
        t.host.reports = s.host.reports ++ [.success] ∧ t.bus = s.bus ++ [BusEvent.select] ++ events ++ [BusEvent.release] ∧
        events.map outByte = (((s.params.patableAddr.setWidth 8 ||| 0x40#8) :: table.toList).map some))

/-- Derived (R186, R187, R193, R202): a poll that has used up its bound ends the sequence with ProtocolTimeout, and each
read, of a status register or of the pin, that does not give the awaited value leaves one read fewer. -/
def Obligations.PollsAreBounded : Prop :=
  (∀ (s : State) (op : HostOp) (rest : List HostOp), s.phase = .idle → s.port = none → rstAsserted s = false →
    s.host.waiting = false → s.host.ops = op :: rest →
    op = .pollIdle 0 ∨ op = .pollDrained 0 ∨ op = .pollPin true 0 ∨ op = .pollPin false 0 →
    ∃ t, step s = .next t ∧ t.host.ops = [] ∧
      t.host.reports = s.host.reports ++ [.failed .protocolTimeout]) ∧
  (∀ (r : Result) (h : HostState) (n : Nat) (rest : List HostOp) (v : Byte), h.waiting = true →
    isErr r = false → statusValue r = some v →
    (h.ops = .pollIdle (n + 1) :: rest →
      (hostTake r h).ops = if v.toNat % 32 = 1 then rest else .pollIdle n :: rest) ∧
    (h.ops = .pollDrained (n + 1) :: rest →
      (hostTake r h).ops = if v.toNat % 128 = 0 then rest else .pollDrained n :: rest)) ∧
  (∀ (s : State) (level seen : Bool) (n : Nat) (rest : List HostOp) (levels : List Bool), s.phase = .idle →
    s.port = none → rstAsserted s = false → s.host.waiting = false → s.host.ops = .pollPin level (n + 1) :: rest →
    s.pinLevels = seen :: levels →
    ∃ t, step s = .next t ∧ t.pinLevels = levels ∧ t.host.reports = s.host.reports ∧
      t.host.ops = if seen = level then rest else .pollPin level n :: rest)

/-- Derived (R191, R204, R205): TX_PATH under the TX profile and after the rest of R235's preparation (without them:
SequencesBeginAsDoubtAndPreparationAllow), with a payload FRAME_TX rejects, stops at its first line: the failure is
reported and nothing is sent. -/
def Obligations.TxPathSendsNothingForARejectedPayload : Prop :=
  ∀ (s : State) (payload : List Bit) (sync : SyncWord) (queue : List HostSeq), AtRest s → s.port = none →
    s.host.waiting = false → s.host.ops = [] → s.host.trust = .trusted → s.host.mode = some .tx →
    s.host.prepared = ⟨true, true, true, true, true⟩ → s.host.queue = .txPath payload sync :: queue → payload.length ≤ 65535 →
    payloadAccepted payload = false → NoReset 4 s →
    ∃ t, run 4 s = .next t ∧ AtRest t ∧ t.bus = s.bus ∧ t.answers = s.answers ∧ t.host.ops = [] ∧
      t.host.queue = queue ∧
      t.host.reports = s.host.reports ++
        [.failed (if 496 < payload.length then .frameOverflow payload.length else .frameNotByteAligned payload.length)]

/-- Derived (R181; that a negative frequency has no word is log 14's choice): where a frequency word exists it is within
half a step of the exact quotient and its three bytes rebuild it; where none does, the frequency is negative or the word
would need more than 24 bits. -/
def Obligations.FrequencyWordIsNearest : Prop :=
  ∀ (p : Params) (targetHz : Nat) (offsetHz : Int), 0 < p.crystalHz →
    (∀ w, frequencyWord p targetHz offsetHz = some w →
      2 * |(w.toNat : Int) * p.crystalHz - (targetHz + offsetHz) * 65536| ≤ p.crystalHz ∧
      w.toNat = 65536 * (freqByte w .high).toNat + 256 * (freqByte w .middle).toNat + (freqByte w .low).toNat) ∧
    (frequencyWord p targetHz offsetHz = none →
      (targetHz : Int) + offsetHz < 0 ∨
        (2 * 16777216 - 1) * (p.crystalHz : Int) ≤ 2 * ((targetHz + offsetHz) * 65536))
end

