-- ==== Sys2Proof/Laws/Operands.lean ====
section
/-! SUPPORT. What the operand functions of Machine/Operands.lean do: bit strings and bytes are inverse to each other, the
header byte keeps its two fields, the burst bytes and the frame have the lengths the spec gives them. -/

namespace Sys2Proof.Machine

open Sys2Proof.Config

/-! Bits and bytes. -/

@[simp] theorem bits8_length (b : Byte) : (bits8 b).length = 8 := rfl

@[simp] theorem bits16_length (w : SyncWord) : (bits16 w).length = 16 := rfl

/-- `bits8(byte_of(g)) = g` (R170). -/
theorem bits8_byteOf (b7 b6 b5 b4 b3 b2 b1 b0 : Bit) :
    bits8 (byteOf b7 b6 b5 b4 b3 b2 b1 b0) = [b7, b6, b5, b4, b3, b2, b1, b0] := by
  revert b7 b6 b5 b4 b3 b2 b1 b0; decide

/-- `byte_of(bits8(b)) = b` (R13). -/
theorem byteOf_bits8 (b : Byte) :
    byteOf (b.getLsbD 7) (b.getLsbD 6) (b.getLsbD 5) (b.getLsbD 4) (b.getLsbD 3) (b.getLsbD 2) (b.getLsbD 1)
      (b.getLsbD 0) = b := by
  revert b; decide

@[simp] theorem packBits_nil : packBits [] = [] := rfl

/-- The bits of one byte in front of a list pack to that byte. -/
theorem packBits_bits8_append (b : Byte) (l : List Bit) : packBits (bits8 b ++ l) = b :: packBits l := by
  exact congrArg (· :: packBits l) (byteOf_bits8 b)

@[simp] theorem unpackBytes_nil : unpackBytes [] = [] := rfl

@[simp] theorem unpackBytes_cons (b : Byte) (bs : List Byte) : unpackBytes (b :: bs) = bits8 b ++ unpackBytes bs := rfl

@[simp] theorem unpackBytes_append (as bs : List Byte) :
    unpackBytes (as ++ bs) = unpackBytes as ++ unpackBytes bs := by
  simp [unpackBytes]

@[simp] theorem unpackBytes_length (bs : List Byte) : (unpackBytes bs).length = 8 * bs.length := by
  induction bs with
  | nil => rfl
  | cons b bs ih => simp [ih]; omega

/-- Packing what was unpacked gives the bytes back. -/
theorem packBits_unpackBytes (bs : List Byte) : packBits (unpackBytes bs) = bs := by
  induction bs with
  | nil => rfl
  | cons b bs ih => rw [unpackBytes_cons, packBits_bits8_append, ih]

/-- Packing the bytes' bits in front of other bits gives the bytes and then the rest. -/
theorem packBits_unpackBytes_append (bs : List Byte) (l : List Bit) :
    packBits (unpackBytes bs ++ l) = bs ++ packBits l := by
  induction bs with
  | nil => rfl
  | cons b bs ih => rw [unpackBytes_cons, List.append_assoc, packBits_bits8_append, ih]; rfl

/-- A bit list of whole bytes is the unpacking of some byte list (R165: no bit is lost). -/
theorem exists_unpackBytes {n : Nat} : ∀ {l : List Bit}, l.length = 8 * n → ∃ bs : List Byte, bs.length = n ∧ l = unpackBytes bs := by
  induction n with
  | zero => intro l h; exact ⟨[], rfl, List.length_eq_zero_iff.mp (by omega)⟩
  | succ n ih =>
    intro l h
    match l, h with
    | b7 :: b6 :: b5 :: b4 :: b3 :: b2 :: b1 :: b0 :: rest, h =>
      obtain ⟨bs, hn, rfl⟩ := ih (l := rest) (by simp at h; omega)
      exact ⟨byteOf b7 b6 b5 b4 b3 b2 b1 b0 :: bs, by simp [hn], by simp [bits8_byteOf]⟩

/-- Unpacking what was packed gives the bits back, for whole bytes (R170). -/
theorem unpackBytes_packBits {l : List Bit} {n : Nat} (h : l.length = 8 * n) : unpackBytes (packBits l) = l := by
  obtain ⟨bs, -, rfl⟩ := exists_unpackBytes h
  rw [packBits_unpackBytes]

/-- Packing whole bytes gives an eighth as many bytes (R165). -/
theorem packBits_length {l : List Bit} {n : Nat} (h : l.length = 8 * n) : (packBits l).length = n := by
  obtain ⟨bs, hn, rfl⟩ := exists_unpackBytes h
  rw [packBits_unpackBytes, hn]

/-! The header byte (R80, R88). -/

/-- The mode bits of an encoded header are the mode's. -/
@[simp] theorem headerMode_encodeHeader (a : Addr) (m : AccessMode) : headerMode (encodeHeader a m) = m := by
  cases m <;> revert a <;> decide

/-- The low six bits of an encoded header are the address. -/
@[simp] theorem headerAddr_encodeHeader (a : Addr) (m : AccessMode) : headerAddr (encodeHeader a m) = a := by
  cases m <;> revert a <;> decide

/-- A header is the encoding of its two fields. -/
@[simp] theorem encodeHeader_fields (h : Byte) : encodeHeader (headerAddr h) (headerMode h) = h := by
  revert h; decide

/-- The strobe codes are `0x30` to `0x3D` (R141). -/
theorem isStrobeCode_iff (code : Addr) : isStrobeCode code = true ↔ 0x30 ≤ code.toNat ∧ code.toNat ≤ 0x3D := by
  simp [isStrobeCode, BitVec.le_def]

/-! The address bytes of READ_BURST (R126). -/

@[simp] theorem burstBytes_length (a : Addr) (n : Nat) : (burstBytes a n).length = n + 1 := by
  simp [burstBytes]

/-- The first byte is the header (R126). -/
theorem burstBytes_eq_cons (a : Addr) (n : Nat) :
    burstBytes a n = encodeHeader a .readBurst :: (burstBytes a n).tail := by
  have h : burstByte a 0 = encodeHeader a .readBurst := by revert a; decide
  simp [burstBytes, List.range_succ_eq_map, h]

/-- The reject condition (R127). -/
theorem burstOverflows_iff (a : Addr) (n : Nat) : burstOverflows a n = true ↔ 255 < a.toNat + 8 * n :=
  decide_eq_true_iff

/-- When READ_BURST is rejected (R127). -/
theorem burstRejected_iff (p : Params) (a : Addr) (n : Nat) :
    burstRejected p a n = true ↔ 255 < a.toNat + 8 * n ∧ p.burstAddrOverflow = .fault := by
  simp [burstRejected, burstOverflows_iff]

/-! The frame (R160 to R164). -/

@[simp] theorem padding_length (n : Nat) : (padding n).length = 8 * n := by
  simp [padding]; omega

/-- FrameOverflow's condition (R162). -/
theorem frameOverflows_iff (n : Nat) : frameOverflows n = true ↔ 496 < n := by
  simp [frameOverflows, maxFrameBits, syncBits]; omega

/-- FrameNotByteAligned's condition (R163): exactly when the payload is not a whole number of bytes. -/
theorem frameMisaligned_iff (n : Nat) : frameMisaligned n = true ↔ n % 8 ≠ 0 := by
  simp [frameMisaligned, syncBits]; omega

/-- The padding fills the room that is left (R161). -/
theorem paddingBytes_eq (n : Nat) : paddingBytes n = (496 - n) / 8 := rfl

/-- Every accepted frame has 512 bits (R164). -/
theorem frameBits_length {payload : List Bit} (sync : SyncWord) (h : payload.length ≤ 496) (h8 : payload.length % 8 = 0) :
    (frameBits payload sync).length = 512 := by
  simp [frameBits, paddingBytes, paddingBits, maxFrameBits, syncBits]; omega

/-- The decoded bits are eight for each byte after the first (R167). -/
theorem decodedBits_length (raw : List Byte) : (decodedBits raw).length = 8 * (raw.length - 1) := by
  simp [decodedBits]

/-! The HOST's arithmetic (R181, R184, R185). -/

/-- The state register's value is IDLE exactly when its low five bits are 1. -/
theorem marcState_idle_iff (v : Byte) : marcState v = marcIdle ↔ v.toNat % 32 = 1 := by
  revert v; decide

/-- Nothing is pending exactly when the low seven bits are 0. -/
theorem txPending_zero_iff (v : Byte) : txPending v = 0x00#8 ↔ v.toNat % 128 = 0 := by
  revert v; decide

/-- A rounded quotient is the quotient below or above, whichever is not further away (R181). -/
theorem roundDiv_cases (rule : TieRule) (num : Nat) {den : Nat} (h : 0 < den) :
    (roundDiv rule num den = num / den ∧ 2 * (num % den) ≤ den) ∨
    (roundDiv rule num den = num / den + 1 ∧ den ≤ 2 * (num % den)) := by
  have hm := Nat.mod_lt num h
  unfold roundDiv
  simp only
  split
  · exact .inl ⟨rfl, by omega⟩
  · split
    · exact .inr ⟨rfl, by omega⟩
    · cases rule
      · exact .inr ⟨rfl, by omega⟩
      · exact .inl ⟨rfl, by omega⟩
      · simp only
        split
        · exact .inl ⟨rfl, by omega⟩
        · exact .inr ⟨rfl, by omega⟩

end Sys2Proof.Machine
end

