-- ==== Sys2Proof/Laws/Decode.lean ====
section
/-! SUPPORT. What the parts of the decoder and of the encoder do: each reader of operand bytes succeeds on exactly the
bytes the encoder writes, and 16-bit numbers, 6-bit operands and packed payloads survive both ways. -/

namespace Sys2Proof

open Sys2Proof.Config
open Sys2Proof.Machine

/-! Numbers and payloads. -/

/-- The two bytes of a 16-bit number give it back. -/
theorem word16_bytes {n : Nat} (h : n < 65536) : word16 (highByte n) (lowByte n) = n := by
  simp [word16, highByte, lowByte]; omega

/-- Two bytes make a 16-bit number. -/
theorem word16_lt (hi lo : Byte) : word16 hi lo < 65536 := by
  have := hi.isLt
  have := lo.isLt
  simp [word16]; omega

/-- The high byte of a number made of two bytes. -/
@[simp] theorem highByte_word16 (hi lo : Byte) : highByte (word16 hi lo) = hi := by
  apply BitVec.eq_of_toNat_eq
  have := hi.isLt
  have := lo.isLt
  simp [word16, highByte]; omega

/-- The low byte of a number made of two bytes. -/
@[simp] theorem lowByte_word16 (hi lo : Byte) : lowByte (word16 hi lo) = lo := by
  apply BitVec.eq_of_toNat_eq
  have := lo.isLt
  simp [word16, lowByte]; omega

/-- A byte's value as a count byte. -/
@[simp] theorem lowByte_toNat (b : Byte) : lowByte b.toNat = b := by
  simp [lowByte]

/-- A packed payload has a byte for every begun group of eight bits. -/
theorem packPayload_length (payload : List Bit) : (packPayload payload).length = (payload.length + 7) / 8 :=
  packBits_length (by simp; omega)

/-- A packed payload unpacks to the payload and the zeros that fill its last byte. -/
theorem unpackBytes_packPayload (payload : List Bit) :
    unpackBytes (packPayload payload) = payload ++ List.replicate ((8 - payload.length % 8) % 8) false :=
  unpackBytes_packBits (n := (payload.length + 7) / 8) (by simp; omega)

/-! The readers of operand bytes, forward. -/

/-- A 6-bit operand's byte is read as the operand. -/
theorem sixBits_addrByte (a : Addr) (k : Addr → Decoded) : sixBits (addrByte a) k = k a := by
  have h1 : (addrByte a).toNat < 64 := by revert a; decide
  have h2 : (addrByte a).setWidth 6 = a := by revert a; decide
  simp [sixBits, h1, h2]

/-- A list of the length asked for is read. -/
theorem exactly_of_length {n : Nat} {bs : List Byte} (h : bs.length = n) (k : List Byte → Decoded) :
    exactly n bs k = k bs := by
  simp [exactly, h]

/-! The readers of operand bytes, backward. -/

/-- What `oneByte` read was one byte. -/
theorem oneByte_instr {rest : List Byte} {k : Byte → Decoded} {i : Instr} (h : oneByte rest k = .instr i) :
    ∃ a, rest = [a] ∧ k a = .instr i := by
  match rest with
  | [] => cases h
  | [a] => exact ⟨a, rfl, h⟩
  | _ :: _ :: _ => cases h

/-- What `twoBytes` read was two bytes. -/
theorem twoBytes_instr {rest : List Byte} {k : Byte → Byte → Decoded} {i : Instr} (h : twoBytes rest k = .instr i) :
    ∃ a b, rest = [a, b] ∧ k a b = .instr i := by
  match rest with
  | [] => cases h
  | [_] => cases h
  | [a, b] => exact ⟨a, b, rfl, h⟩
  | _ :: _ :: _ :: _ => cases h

/-- What `sixBits` read was a 6-bit operand's byte. -/
theorem sixBits_instr {b : Byte} {k : Addr → Decoded} {i : Instr} (h : sixBits b k = .instr i) :
    ∃ a, b = addrByte a ∧ k a = .instr i := by
  unfold sixBits at h
  split at h
  · refine ⟨_, ?_, h⟩
    rename_i hb
    clear h
    revert b; decide
  · cases h

/-- What `exactly` read had that length. -/
theorem exactly_instr {n : Nat} {bs : List Byte} {k : List Byte → Decoded} {i : Instr}
    (h : exactly n bs k = .instr i) : bs.length = n ∧ k bs = .instr i := by
  unfold exactly at h
  split at h
  · cases h
  · split at h
    · cases h
    · exact ⟨by omega, h⟩

/-! The named strobes. -/

/-- A named strobe is encoded by its code and the filler (R81). -/
theorem namedStrobe_word {a : Addr} {i : Instr} (h : namedStrobe a = some i) :
    i.wf = true ∧ encode i = ⟨.hdr, [encodeHeader a .writeSingle, filler]⟩ := by
  have key : ∀ a : Addr, (namedStrobe a).all
      (fun j => j.wf && decide (encode j = ⟨.hdr, [encodeHeader a .writeSingle, filler]⟩)) = true := by decide
  have := key a
  rw [h] at this
  simpa using this

/-- A code without a name is outside the fourteen (R141). -/
theorem namedStrobe_none_iff (a : Addr) : namedStrobe a = none ↔ isStrobeCode a = false := by
  revert a; decide

end Sys2Proof
end

