-- ==== Sys2Proof/Laws/State.lean ====
section
/-! SUPPORT. One lemma per field per named update of State, each true by rfl, so that no later proof unfolds a record
update. `raise` and `resetFramer`, whose effect depends on the select signal, follow with one lemma per field. -/

namespace Sys2Proof.Machine

/-! `startTransaction` -/

@[simp] theorem startTransaction_phase (c : Command) (tx : List Byte) (s : State) : (startTransaction c tx s).phase = .select := rfl
@[simp] theorem startTransaction_sel (c : Command) (tx : List Byte) (s : State) : (startTransaction c tx s).sel = .asserted := rfl
@[simp] theorem startTransaction_idx (c : Command) (tx : List Byte) (s : State) : (startTransaction c tx s).idx = 0 := rfl
@[simp] theorem startTransaction_txbuf (c : Command) (tx : List Byte) (s : State) : (startTransaction c tx s).txbuf = tx := rfl
@[simp] theorem startTransaction_rxbuf (c : Command) (tx : List Byte) (s : State) : (startTransaction c tx s).rxbuf = [] := rfl
@[simp] theorem startTransaction_bitbuf (c : Command) (tx : List Byte) (s : State) : (startTransaction c tx s).bitbuf = s.bitbuf := rfl
@[simp] theorem startTransaction_result (c : Command) (tx : List Byte) (s : State) : (startTransaction c tx s).result = .okNone := rfl
@[simp] theorem startTransaction_op (c : Command) (tx : List Byte) (s : State) : (startTransaction c tx s).op = c := rfl
@[simp] theorem startTransaction_port (c : Command) (tx : List Byte) (s : State) : (startTransaction c tx s).port = s.port := rfl
@[simp] theorem startTransaction_rst (c : Command) (tx : List Byte) (s : State) : (startTransaction c tx s).rst = s.rst := rfl
@[simp] theorem startTransaction_host (c : Command) (tx : List Byte) (s : State) : (startTransaction c tx s).host = s.host := rfl
@[simp] theorem startTransaction_answers (c : Command) (tx : List Byte) (s : State) : (startTransaction c tx s).answers = s.answers := rfl
@[simp] theorem startTransaction_pinLevels (c : Command) (tx : List Byte) (s : State) : (startTransaction c tx s).pinLevels = s.pinLevels := rfl
@[simp] theorem startTransaction_bus (c : Command) (tx : List Byte) (s : State) : (startTransaction c tx s).bus = s.bus ++ [.select] := rfl
@[simp] theorem startTransaction_draws (c : Command) (tx : List Byte) (s : State) : (startTransaction c tx s).draws = s.draws := rfl
@[simp] theorem startTransaction_params (c : Command) (tx : List Byte) (s : State) : (startTransaction c tx s).params = s.params := rfl

/-! `latch` -/

@[simp] theorem latch_phase (c : Command) (s : State) : (latch c s).phase = s.phase := rfl
@[simp] theorem latch_sel (c : Command) (s : State) : (latch c s).sel = s.sel := rfl
@[simp] theorem latch_idx (c : Command) (s : State) : (latch c s).idx = s.idx := rfl
@[simp] theorem latch_txbuf (c : Command) (s : State) : (latch c s).txbuf = s.txbuf := rfl
@[simp] theorem latch_rxbuf (c : Command) (s : State) : (latch c s).rxbuf = s.rxbuf := rfl
@[simp] theorem latch_bitbuf (c : Command) (s : State) : (latch c s).bitbuf = s.bitbuf := rfl
@[simp] theorem latch_result (c : Command) (s : State) : (latch c s).result = s.result := rfl
@[simp] theorem latch_op (c : Command) (s : State) : (latch c s).op = c := rfl
@[simp] theorem latch_port (c : Command) (s : State) : (latch c s).port = s.port := rfl
@[simp] theorem latch_rst (c : Command) (s : State) : (latch c s).rst = s.rst := rfl
@[simp] theorem latch_host (c : Command) (s : State) : (latch c s).host = s.host := rfl
@[simp] theorem latch_answers (c : Command) (s : State) : (latch c s).answers = s.answers := rfl
@[simp] theorem latch_pinLevels (c : Command) (s : State) : (latch c s).pinLevels = s.pinLevels := rfl
@[simp] theorem latch_bus (c : Command) (s : State) : (latch c s).bus = s.bus := rfl
@[simp] theorem latch_draws (c : Command) (s : State) : (latch c s).draws = s.draws := rfl
@[simp] theorem latch_params (c : Command) (s : State) : (latch c s).params = s.params := rfl

/-! `complete` -/

@[simp] theorem complete_phase (r : Result) (s : State) : (complete r s).phase = .done := rfl
@[simp] theorem complete_sel (r : Result) (s : State) : (complete r s).sel = s.sel := rfl
@[simp] theorem complete_idx (r : Result) (s : State) : (complete r s).idx = s.idx := rfl
@[simp] theorem complete_txbuf (r : Result) (s : State) : (complete r s).txbuf = s.txbuf := rfl
@[simp] theorem complete_rxbuf (r : Result) (s : State) : (complete r s).rxbuf = s.rxbuf := rfl
@[simp] theorem complete_bitbuf (r : Result) (s : State) : (complete r s).bitbuf = s.bitbuf := rfl
@[simp] theorem complete_result (r : Result) (s : State) : (complete r s).result = r := rfl
@[simp] theorem complete_op (r : Result) (s : State) : (complete r s).op = s.op := rfl
@[simp] theorem complete_port (r : Result) (s : State) : (complete r s).port = s.port := rfl
@[simp] theorem complete_rst (r : Result) (s : State) : (complete r s).rst = s.rst := rfl
@[simp] theorem complete_host (r : Result) (s : State) : (complete r s).host = s.host := rfl
@[simp] theorem complete_answers (r : Result) (s : State) : (complete r s).answers = s.answers := rfl
@[simp] theorem complete_pinLevels (r : Result) (s : State) : (complete r s).pinLevels = s.pinLevels := rfl
@[simp] theorem complete_bus (r : Result) (s : State) : (complete r s).bus = s.bus := rfl
@[simp] theorem complete_draws (r : Result) (s : State) : (complete r s).draws = s.draws := rfl
@[simp] theorem complete_params (r : Result) (s : State) : (complete r s).params = s.params := rfl

/-! `setBits` -/

@[simp] theorem setBits_phase (bits : List Bit) (s : State) : (setBits bits s).phase = s.phase := rfl
@[simp] theorem setBits_sel (bits : List Bit) (s : State) : (setBits bits s).sel = s.sel := rfl
@[simp] theorem setBits_idx (bits : List Bit) (s : State) : (setBits bits s).idx = s.idx := rfl
@[simp] theorem setBits_txbuf (bits : List Bit) (s : State) : (setBits bits s).txbuf = s.txbuf := rfl
@[simp] theorem setBits_rxbuf (bits : List Bit) (s : State) : (setBits bits s).rxbuf = s.rxbuf := rfl
@[simp] theorem setBits_bitbuf (bits : List Bit) (s : State) : (setBits bits s).bitbuf = bits := rfl
@[simp] theorem setBits_result (bits : List Bit) (s : State) : (setBits bits s).result = s.result := rfl
@[simp] theorem setBits_op (bits : List Bit) (s : State) : (setBits bits s).op = s.op := rfl
@[simp] theorem setBits_port (bits : List Bit) (s : State) : (setBits bits s).port = s.port := rfl
@[simp] theorem setBits_rst (bits : List Bit) (s : State) : (setBits bits s).rst = s.rst := rfl
@[simp] theorem setBits_host (bits : List Bit) (s : State) : (setBits bits s).host = s.host := rfl
@[simp] theorem setBits_answers (bits : List Bit) (s : State) : (setBits bits s).answers = s.answers := rfl
@[simp] theorem setBits_pinLevels (bits : List Bit) (s : State) : (setBits bits s).pinLevels = s.pinLevels := rfl
@[simp] theorem setBits_bus (bits : List Bit) (s : State) : (setBits bits s).bus = s.bus := rfl
@[simp] theorem setBits_draws (bits : List Bit) (s : State) : (setBits bits s).draws = s.draws := rfl
@[simp] theorem setBits_params (bits : List Bit) (s : State) : (setBits bits s).params = s.params := rfl

/-! `returnToIdle` -/

@[simp] theorem returnToIdle_phase (s : State) : (returnToIdle s).phase = .idle := rfl
@[simp] theorem returnToIdle_sel (s : State) : (returnToIdle s).sel = s.sel := rfl
@[simp] theorem returnToIdle_idx (s : State) : (returnToIdle s).idx = s.idx := rfl
@[simp] theorem returnToIdle_txbuf (s : State) : (returnToIdle s).txbuf = s.txbuf := rfl
@[simp] theorem returnToIdle_rxbuf (s : State) : (returnToIdle s).rxbuf = s.rxbuf := rfl
@[simp] theorem returnToIdle_bitbuf (s : State) : (returnToIdle s).bitbuf = s.bitbuf := rfl
@[simp] theorem returnToIdle_result (s : State) : (returnToIdle s).result = s.result := rfl
@[simp] theorem returnToIdle_op (s : State) : (returnToIdle s).op = s.op := rfl
@[simp] theorem returnToIdle_port (s : State) : (returnToIdle s).port = s.port := rfl
@[simp] theorem returnToIdle_rst (s : State) : (returnToIdle s).rst = s.rst := rfl
@[simp] theorem returnToIdle_host (s : State) : (returnToIdle s).host = s.host := rfl
@[simp] theorem returnToIdle_answers (s : State) : (returnToIdle s).answers = s.answers := rfl
@[simp] theorem returnToIdle_pinLevels (s : State) : (returnToIdle s).pinLevels = s.pinLevels := rfl
@[simp] theorem returnToIdle_bus (s : State) : (returnToIdle s).bus = s.bus := rfl
@[simp] theorem returnToIdle_draws (s : State) : (returnToIdle s).draws = s.draws := rfl
@[simp] theorem returnToIdle_params (s : State) : (returnToIdle s).params = s.params := rfl

/-! `releaseSelect` -/

@[simp] theorem releaseSelect_phase (s : State) : (releaseSelect s).phase = s.phase := rfl
@[simp] theorem releaseSelect_sel (s : State) : (releaseSelect s).sel = .released := rfl
@[simp] theorem releaseSelect_idx (s : State) : (releaseSelect s).idx = s.idx := rfl
@[simp] theorem releaseSelect_txbuf (s : State) : (releaseSelect s).txbuf = s.txbuf := rfl
@[simp] theorem releaseSelect_rxbuf (s : State) : (releaseSelect s).rxbuf = s.rxbuf := rfl
@[simp] theorem releaseSelect_bitbuf (s : State) : (releaseSelect s).bitbuf = s.bitbuf := rfl
@[simp] theorem releaseSelect_result (s : State) : (releaseSelect s).result = s.result := rfl
@[simp] theorem releaseSelect_op (s : State) : (releaseSelect s).op = s.op := rfl
@[simp] theorem releaseSelect_port (s : State) : (releaseSelect s).port = s.port := rfl
@[simp] theorem releaseSelect_rst (s : State) : (releaseSelect s).rst = s.rst := rfl
@[simp] theorem releaseSelect_host (s : State) : (releaseSelect s).host = s.host := rfl
@[simp] theorem releaseSelect_answers (s : State) : (releaseSelect s).answers = s.answers := rfl
@[simp] theorem releaseSelect_pinLevels (s : State) : (releaseSelect s).pinLevels = s.pinLevels := rfl
@[simp] theorem releaseSelect_bus (s : State) : (releaseSelect s).bus = s.bus ++ [.release] := rfl
@[simp] theorem releaseSelect_draws (s : State) : (releaseSelect s).draws = s.draws := rfl
@[simp] theorem releaseSelect_params (s : State) : (releaseSelect s).params = s.params := rfl

/-! `dropAnswer` -/

@[simp] theorem dropAnswer_phase (s : State) : (dropAnswer s).phase = s.phase := rfl
@[simp] theorem dropAnswer_sel (s : State) : (dropAnswer s).sel = s.sel := rfl
@[simp] theorem dropAnswer_idx (s : State) : (dropAnswer s).idx = s.idx := rfl
@[simp] theorem dropAnswer_txbuf (s : State) : (dropAnswer s).txbuf = s.txbuf := rfl
@[simp] theorem dropAnswer_rxbuf (s : State) : (dropAnswer s).rxbuf = s.rxbuf := rfl
@[simp] theorem dropAnswer_bitbuf (s : State) : (dropAnswer s).bitbuf = s.bitbuf := rfl
@[simp] theorem dropAnswer_result (s : State) : (dropAnswer s).result = s.result := rfl
@[simp] theorem dropAnswer_op (s : State) : (dropAnswer s).op = s.op := rfl
@[simp] theorem dropAnswer_port (s : State) : (dropAnswer s).port = s.port := rfl
@[simp] theorem dropAnswer_rst (s : State) : (dropAnswer s).rst = s.rst := rfl
@[simp] theorem dropAnswer_host (s : State) : (dropAnswer s).host = s.host := rfl
@[simp] theorem dropAnswer_answers (s : State) : (dropAnswer s).answers = s.answers.tail := rfl
@[simp] theorem dropAnswer_pinLevels (s : State) : (dropAnswer s).pinLevels = s.pinLevels := rfl
@[simp] theorem dropAnswer_bus (s : State) : (dropAnswer s).bus = s.bus := rfl
@[simp] theorem dropAnswer_draws (s : State) : (dropAnswer s).draws = s.draws := rfl
@[simp] theorem dropAnswer_params (s : State) : (dropAnswer s).params = s.params := rfl

/-! `recordExchange` -/

@[simp] theorem recordExchange_phase (b r : Byte) (s : State) : (recordExchange b r s).phase = if s.idx + 1 = s.txbuf.length then .release else .xfer := rfl
@[simp] theorem recordExchange_sel (b r : Byte) (s : State) : (recordExchange b r s).sel = s.sel := rfl
@[simp] theorem recordExchange_idx (b r : Byte) (s : State) : (recordExchange b r s).idx = s.idx + 1 := rfl
@[simp] theorem recordExchange_txbuf (b r : Byte) (s : State) : (recordExchange b r s).txbuf = s.txbuf := rfl
@[simp] theorem recordExchange_rxbuf (b r : Byte) (s : State) : (recordExchange b r s).rxbuf = s.rxbuf ++ [r] := rfl
@[simp] theorem recordExchange_bitbuf (b r : Byte) (s : State) : (recordExchange b r s).bitbuf = s.bitbuf := rfl
@[simp] theorem recordExchange_result (b r : Byte) (s : State) : (recordExchange b r s).result = s.result := rfl
@[simp] theorem recordExchange_op (b r : Byte) (s : State) : (recordExchange b r s).op = s.op := rfl
@[simp] theorem recordExchange_port (b r : Byte) (s : State) : (recordExchange b r s).port = s.port := rfl
@[simp] theorem recordExchange_rst (b r : Byte) (s : State) : (recordExchange b r s).rst = s.rst := rfl
@[simp] theorem recordExchange_host (b r : Byte) (s : State) : (recordExchange b r s).host = s.host := rfl
@[simp] theorem recordExchange_answers (b r : Byte) (s : State) : (recordExchange b r s).answers = s.answers := rfl
@[simp] theorem recordExchange_pinLevels (b r : Byte) (s : State) : (recordExchange b r s).pinLevels = s.pinLevels := rfl
@[simp] theorem recordExchange_bus (b r : Byte) (s : State) : (recordExchange b r s).bus = s.bus ++ [.exchange b r] := rfl
@[simp] theorem recordExchange_draws (b r : Byte) (s : State) : (recordExchange b r s).draws = s.draws := rfl
@[simp] theorem recordExchange_params (b r : Byte) (s : State) : (recordExchange b r s).params = s.params := rfl

/-! `recordBroken` -/

@[simp] theorem recordBroken_phase (b : Byte) (s : State) : (recordBroken b s).phase = s.phase := rfl
@[simp] theorem recordBroken_sel (b : Byte) (s : State) : (recordBroken b s).sel = s.sel := rfl
@[simp] theorem recordBroken_idx (b : Byte) (s : State) : (recordBroken b s).idx = s.idx := rfl
@[simp] theorem recordBroken_txbuf (b : Byte) (s : State) : (recordBroken b s).txbuf = s.txbuf := rfl
@[simp] theorem recordBroken_rxbuf (b : Byte) (s : State) : (recordBroken b s).rxbuf = s.rxbuf := rfl
@[simp] theorem recordBroken_bitbuf (b : Byte) (s : State) : (recordBroken b s).bitbuf = s.bitbuf := rfl
@[simp] theorem recordBroken_result (b : Byte) (s : State) : (recordBroken b s).result = s.result := rfl
@[simp] theorem recordBroken_op (b : Byte) (s : State) : (recordBroken b s).op = s.op := rfl
@[simp] theorem recordBroken_port (b : Byte) (s : State) : (recordBroken b s).port = s.port := rfl
@[simp] theorem recordBroken_rst (b : Byte) (s : State) : (recordBroken b s).rst = s.rst := rfl
@[simp] theorem recordBroken_host (b : Byte) (s : State) : (recordBroken b s).host = s.host := rfl
@[simp] theorem recordBroken_answers (b : Byte) (s : State) : (recordBroken b s).answers = s.answers := rfl
@[simp] theorem recordBroken_pinLevels (b : Byte) (s : State) : (recordBroken b s).pinLevels = s.pinLevels := rfl
@[simp] theorem recordBroken_bus (b : Byte) (s : State) : (recordBroken b s).bus = s.bus ++ [.broken b] := rfl
@[simp] theorem recordBroken_draws (b : Byte) (s : State) : (recordBroken b s).draws = s.draws := rfl
@[simp] theorem recordBroken_params (b : Byte) (s : State) : (recordBroken b s).params = s.params := rfl

/-! `tick` -/

@[simp] theorem tick_phase (s : State) : (tick s).phase = s.phase := rfl
@[simp] theorem tick_sel (s : State) : (tick s).sel = s.sel := rfl
@[simp] theorem tick_idx (s : State) : (tick s).idx = s.idx := rfl
@[simp] theorem tick_txbuf (s : State) : (tick s).txbuf = s.txbuf := rfl
@[simp] theorem tick_rxbuf (s : State) : (tick s).rxbuf = s.rxbuf := rfl
@[simp] theorem tick_bitbuf (s : State) : (tick s).bitbuf = s.bitbuf := rfl
@[simp] theorem tick_result (s : State) : (tick s).result = s.result := rfl
@[simp] theorem tick_op (s : State) : (tick s).op = s.op := rfl
@[simp] theorem tick_port (s : State) : (tick s).port = s.port := rfl
@[simp] theorem tick_rst (s : State) : (tick s).rst = s.rst.tail := rfl
@[simp] theorem tick_host (s : State) : (tick s).host = s.host := rfl
@[simp] theorem tick_answers (s : State) : (tick s).answers = s.answers := rfl
@[simp] theorem tick_pinLevels (s : State) : (tick s).pinLevels = s.pinLevels := rfl
@[simp] theorem tick_bus (s : State) : (tick s).bus = s.bus := rfl
@[simp] theorem tick_draws (s : State) : (tick s).draws = s.draws := rfl
@[simp] theorem tick_params (s : State) : (tick s).params = s.params := rfl

/-! `takePort` -/

@[simp] theorem takePort_phase (s : State) : (takePort s).phase = s.phase := rfl
@[simp] theorem takePort_sel (s : State) : (takePort s).sel = s.sel := rfl
@[simp] theorem takePort_idx (s : State) : (takePort s).idx = s.idx := rfl
@[simp] theorem takePort_txbuf (s : State) : (takePort s).txbuf = s.txbuf := rfl
@[simp] theorem takePort_rxbuf (s : State) : (takePort s).rxbuf = s.rxbuf := rfl
@[simp] theorem takePort_bitbuf (s : State) : (takePort s).bitbuf = s.bitbuf := rfl
@[simp] theorem takePort_result (s : State) : (takePort s).result = s.result := rfl
@[simp] theorem takePort_op (s : State) : (takePort s).op = s.op := rfl
@[simp] theorem takePort_port (s : State) : (takePort s).port = none := rfl
@[simp] theorem takePort_rst (s : State) : (takePort s).rst = s.rst := rfl
@[simp] theorem takePort_host (s : State) : (takePort s).host = s.host := rfl
@[simp] theorem takePort_answers (s : State) : (takePort s).answers = s.answers := rfl
@[simp] theorem takePort_pinLevels (s : State) : (takePort s).pinLevels = s.pinLevels := rfl
@[simp] theorem takePort_bus (s : State) : (takePort s).bus = s.bus := rfl
@[simp] theorem takePort_draws (s : State) : (takePort s).draws = s.draws := rfl
@[simp] theorem takePort_params (s : State) : (takePort s).params = s.params := rfl

/-! `setHost` -/

@[simp] theorem setHost_phase (h : HostState) (s : State) : (setHost h s).phase = s.phase := rfl
@[simp] theorem setHost_sel (h : HostState) (s : State) : (setHost h s).sel = s.sel := rfl
@[simp] theorem setHost_idx (h : HostState) (s : State) : (setHost h s).idx = s.idx := rfl
@[simp] theorem setHost_txbuf (h : HostState) (s : State) : (setHost h s).txbuf = s.txbuf := rfl
@[simp] theorem setHost_rxbuf (h : HostState) (s : State) : (setHost h s).rxbuf = s.rxbuf := rfl
@[simp] theorem setHost_bitbuf (h : HostState) (s : State) : (setHost h s).bitbuf = s.bitbuf := rfl
@[simp] theorem setHost_result (h : HostState) (s : State) : (setHost h s).result = s.result := rfl
@[simp] theorem setHost_op (h : HostState) (s : State) : (setHost h s).op = s.op := rfl
@[simp] theorem setHost_port (h : HostState) (s : State) : (setHost h s).port = s.port := rfl
@[simp] theorem setHost_rst (h : HostState) (s : State) : (setHost h s).rst = s.rst := rfl
@[simp] theorem setHost_host (h : HostState) (s : State) : (setHost h s).host = h := rfl
@[simp] theorem setHost_answers (h : HostState) (s : State) : (setHost h s).answers = s.answers := rfl
@[simp] theorem setHost_pinLevels (h : HostState) (s : State) : (setHost h s).pinLevels = s.pinLevels := rfl
@[simp] theorem setHost_bus (h : HostState) (s : State) : (setHost h s).bus = s.bus := rfl
@[simp] theorem setHost_draws (h : HostState) (s : State) : (setHost h s).draws = s.draws := rfl
@[simp] theorem setHost_params (h : HostState) (s : State) : (setHost h s).params = s.params := rfl

/-! `dropPin` -/

@[simp] theorem dropPin_phase (s : State) : (dropPin s).phase = s.phase := rfl
@[simp] theorem dropPin_sel (s : State) : (dropPin s).sel = s.sel := rfl
@[simp] theorem dropPin_idx (s : State) : (dropPin s).idx = s.idx := rfl
@[simp] theorem dropPin_txbuf (s : State) : (dropPin s).txbuf = s.txbuf := rfl
@[simp] theorem dropPin_rxbuf (s : State) : (dropPin s).rxbuf = s.rxbuf := rfl
@[simp] theorem dropPin_bitbuf (s : State) : (dropPin s).bitbuf = s.bitbuf := rfl
@[simp] theorem dropPin_result (s : State) : (dropPin s).result = s.result := rfl
@[simp] theorem dropPin_op (s : State) : (dropPin s).op = s.op := rfl
@[simp] theorem dropPin_port (s : State) : (dropPin s).port = s.port := rfl
@[simp] theorem dropPin_rst (s : State) : (dropPin s).rst = s.rst := rfl
@[simp] theorem dropPin_host (s : State) : (dropPin s).host = s.host := rfl
@[simp] theorem dropPin_answers (s : State) : (dropPin s).answers = s.answers := rfl
@[simp] theorem dropPin_pinLevels (s : State) : (dropPin s).pinLevels = s.pinLevels.tail := rfl
@[simp] theorem dropPin_bus (s : State) : (dropPin s).bus = s.bus := rfl
@[simp] theorem dropPin_draws (s : State) : (dropPin s).draws = s.draws + 1 := rfl
@[simp] theorem dropPin_params (s : State) : (dropPin s).params = s.params := rfl

/-! `present` -/

@[simp] theorem present_phase (i : Instr) (s : State) : (present i s).phase = s.phase := rfl
@[simp] theorem present_sel (i : Instr) (s : State) : (present i s).sel = s.sel := rfl
@[simp] theorem present_idx (i : Instr) (s : State) : (present i s).idx = s.idx := rfl
@[simp] theorem present_txbuf (i : Instr) (s : State) : (present i s).txbuf = s.txbuf := rfl
@[simp] theorem present_rxbuf (i : Instr) (s : State) : (present i s).rxbuf = s.rxbuf := rfl
@[simp] theorem present_bitbuf (i : Instr) (s : State) : (present i s).bitbuf = s.bitbuf := rfl
@[simp] theorem present_result (i : Instr) (s : State) : (present i s).result = s.result := rfl
@[simp] theorem present_op (i : Instr) (s : State) : (present i s).op = s.op := rfl
@[simp] theorem present_port (i : Instr) (s : State) : 
    (present i s).port = some (encode (portInstr i.command)) := rfl
@[simp] theorem present_rst (i : Instr) (s : State) : (present i s).rst = s.rst := rfl
@[simp] theorem present_host (i : Instr) (s : State) : (present i s).host = { s.host with waiting := true } := rfl
@[simp] theorem present_answers (i : Instr) (s : State) : (present i s).answers = s.answers := rfl
@[simp] theorem present_pinLevels (i : Instr) (s : State) : (present i s).pinLevels = s.pinLevels := rfl
@[simp] theorem present_bus (i : Instr) (s : State) : (present i s).bus = s.bus := rfl
@[simp] theorem present_draws (i : Instr) (s : State) : (present i s).draws = s.draws := rfl
@[simp] theorem present_params (i : Instr) (s : State) : (present i s).params = s.params := rfl

/-! `placeWord` -/

@[simp] theorem placeWord_phase (w : PortWord) (s : State) : (placeWord w s).phase = .idle := rfl
@[simp] theorem placeWord_sel (w : PortWord) (s : State) : (placeWord w s).sel = .released := rfl
@[simp] theorem placeWord_idx (w : PortWord) (s : State) : (placeWord w s).idx = s.idx := rfl
@[simp] theorem placeWord_txbuf (w : PortWord) (s : State) : (placeWord w s).txbuf = s.txbuf := rfl
@[simp] theorem placeWord_rxbuf (w : PortWord) (s : State) : (placeWord w s).rxbuf = s.rxbuf := rfl
@[simp] theorem placeWord_bitbuf (w : PortWord) (s : State) : (placeWord w s).bitbuf = s.bitbuf := rfl
@[simp] theorem placeWord_result (w : PortWord) (s : State) : (placeWord w s).result = s.result := rfl
@[simp] theorem placeWord_op (w : PortWord) (s : State) : (placeWord w s).op = s.op := rfl
@[simp] theorem placeWord_port (w : PortWord) (s : State) : (placeWord w s).port = some w := rfl
@[simp] theorem placeWord_rst (w : PortWord) (s : State) : (placeWord w s).rst = [] := rfl
@[simp] theorem placeWord_host (w : PortWord) (s : State) : (placeWord w s).host = s.host := rfl
@[simp] theorem placeWord_answers (w : PortWord) (s : State) : (placeWord w s).answers = s.answers := rfl
@[simp] theorem placeWord_pinLevels (w : PortWord) (s : State) : (placeWord w s).pinLevels = s.pinLevels := rfl
@[simp] theorem placeWord_bus (w : PortWord) (s : State) : (placeWord w s).bus = s.bus := rfl
@[simp] theorem placeWord_draws (w : PortWord) (s : State) : (placeWord w s).draws = s.draws := rfl
@[simp] theorem placeWord_params (w : PortWord) (s : State) : (placeWord w s).params = s.params := rfl

/-! `raise` -/

theorem raise_phase (f : Failure) (s : State) :
    (raise f s).phase = if s.sel = .asserted then .release else .done := by
  unfold raise; split <;> simp_all
@[simp] theorem raise_sel (f : Failure) (s : State) : (raise f s).sel = s.sel := by
  unfold raise; split <;> rfl
@[simp] theorem raise_idx (f : Failure) (s : State) : (raise f s).idx = s.idx := by
  unfold raise; split <;> rfl
@[simp] theorem raise_txbuf (f : Failure) (s : State) : (raise f s).txbuf = s.txbuf := by
  unfold raise; split <;> rfl
@[simp] theorem raise_rxbuf (f : Failure) (s : State) : (raise f s).rxbuf = s.rxbuf := by
  unfold raise; split <;> rfl
@[simp] theorem raise_bitbuf (f : Failure) (s : State) : (raise f s).bitbuf = s.bitbuf := by
  unfold raise; split <;> rfl
@[simp] theorem raise_result (f : Failure) (s : State) : (raise f s).result = .err f := by
  unfold raise; split <;> rfl
@[simp] theorem raise_op (f : Failure) (s : State) : (raise f s).op = s.op := by
  unfold raise; split <;> rfl
@[simp] theorem raise_port (f : Failure) (s : State) : (raise f s).port = s.port := by
  unfold raise; split <;> rfl
@[simp] theorem raise_rst (f : Failure) (s : State) : (raise f s).rst = s.rst := by
  unfold raise; split <;> rfl
@[simp] theorem raise_host (f : Failure) (s : State) : (raise f s).host = s.host := by
  unfold raise; split <;> rfl
@[simp] theorem raise_answers (f : Failure) (s : State) : (raise f s).answers = s.answers := by
  unfold raise; split <;> rfl
@[simp] theorem raise_pinLevels (f : Failure) (s : State) : (raise f s).pinLevels = s.pinLevels := by
  unfold raise; split <;> rfl
@[simp] theorem raise_bus (f : Failure) (s : State) : (raise f s).bus = s.bus := by
  unfold raise; split <;> rfl
@[simp] theorem raise_draws (f : Failure) (s : State) : (raise f s).draws = s.draws := by
  unfold raise; split <;> rfl
@[simp] theorem raise_params (f : Failure) (s : State) : (raise f s).params = s.params := by
  unfold raise; split <;> rfl

/-- With the select signal released a failure ends the command at once (R213). -/
theorem raise_released (f : Failure) {s : State} (h : s.sel = .released) :
    raise f s = { s with result := .err f, phase := .done } := by
  simp [raise, h]

/-- With the select signal asserted a failure goes through `RELEASE` (R213). -/
theorem raise_asserted (f : Failure) {s : State} (h : s.sel = .asserted) :
    raise f s = { s with result := .err f, phase := .release } := by
  simp [raise, h]

/-! `resetFramer`: the elements R39 leaves unspecified have no lemma. -/

@[simp] theorem resetFramer_port (s : State) : (resetFramer s).port = s.port := rfl
@[simp] theorem resetFramer_rst (s : State) : (resetFramer s).rst = s.rst := rfl
@[simp] theorem resetFramer_host (s : State) : (resetFramer s).host = s.host := rfl
@[simp] theorem resetFramer_answers (s : State) : (resetFramer s).answers = s.answers := rfl
@[simp] theorem resetFramer_pinLevels (s : State) : (resetFramer s).pinLevels = s.pinLevels := rfl
@[simp] theorem resetFramer_params (s : State) : (resetFramer s).params = s.params := rfl
@[simp] theorem resetFramer_phase (s : State) : (resetFramer s).phase = .idle := rfl
@[simp] theorem resetFramer_sel (s : State) : (resetFramer s).sel = .released := rfl
@[simp] theorem resetFramer_draws (s : State) : (resetFramer s).draws = s.draws + 1 := rfl
theorem resetFramer_bus (s : State) :
    (resetFramer s).bus = match s.sel with
      | .asserted => s.bus ++ [.release]
      | .released => s.bus := rfl

end Sys2Proof.Machine
end

