-- ==== Sys2Proof/Laws/Ops.lean ====
section
/-! SUPPORT. One lemma for each shared operation and each step of the sequencer: everything it can answer. Later proofs
cite these and unfold nothing. -/

namespace Sys2Proof.Machine

open Sys2Proof.Config
open Sys2Proof.Safety

/-! Acceptance. -/

/-- In `IDLE` a command is accepted (R28). -/
theorem accept_idle {s : State} (h : s.phase = .idle) (k : State → State) : accept s k = .next (k s) := by
  simp [accept, h]

/-- In any other phase it is not, and nothing changes (R115). -/
theorem accept_busy {s : State} (h : s.phase ≠ .idle) (k : State → State) : accept s k = .next s := by
  simp [accept, h]

/-- Acceptance always answers a next state. -/
theorem accept_next (s : State) (k : State → State) : ∃ t, accept s k = .next t := by
  unfold accept; split <;> exact ⟨_, rfl⟩

/-- Starting a transaction is the first case of R116. -/
theorem startTransaction_eq (c : Command) (tx : List Byte) (s : State) :
    startTransaction c tx s = afterAccept c tx s := rfl

/-! What an instruction does in `IDLE`, by the command it names. -/

/-- The effect of an accepted command on the block. -/
def commandEffect (c : Command) (s : State) : State :=
  match c with
  | .strobe code =>
    if isStrobeCode code then startTransaction (.strobe code) [encodeHeader code .writeSingle, filler] s
    else raise (.illegalStrobe code) (latch (.strobe code) s)
  | .writeSingle addr value => startWriteSingle addr value s
  | .readSingle addr => startReadSingle addr s
  | .writeBurst addr data => startWriteBurst addr data s
  | .readBurst addr length => startReadBurst addr length s
  | .frameTx payload sync =>
    if frameOverflows payload.length then raise (.frameOverflow payload.length) (latch (.frameTx payload sync) s)
    else if frameMisaligned payload.length then
      raise (.frameNotByteAligned payload.length) (latch (.frameTx payload sync) s)
    else
      complete (.okFrame (packBits (frameBits payload sync)) ((frameBits payload sync).length / 8))
        (setBits (frameBits payload sync) (latch (.frameTx payload sync) s))
  | .decodeRx raw =>
    if raw.isEmpty then raise .emptyBurst (latch (.decodeRx raw) s)
    else complete (.okBits (decodedBits raw)) (setBits (decodedBits raw) (latch (.decodeRx raw) s))
  | .reserved7 => raise .illegalCommand (latch .reserved7 s)

/-- Every meaning is the acceptance of its command (R86, R91, R142 to R155). -/
theorem exec_eq_accept (i : Instr) (s : State) : exec i s = accept s (commandEffect i.command) := by
  cases i <;> rfl

/-- The command-port instruction of a command names it. -/
@[simp] theorem portInstr_command (c : Command) : (portInstr c).command = c := by
  cases c <;> rfl

/-- It can be presented exactly where the command keeps the bounds of R7. -/
@[simp] theorem portInstr_wf (c : Command) : (portInstr c).wf = c.wf := by
  cases c <;> rfl

/-- An instruction has the meaning of the command it names, in whatever format it is presented (log 1). -/
theorem exec_portInstr (i : Instr) (s : State) : exec (portInstr i.command) s = exec i s := by
  rw [exec_eq_accept, exec_eq_accept, portInstr_command]

/-- In `IDLE` every instruction has the effect of its command. -/
theorem exec_idle (i : Instr) {s : State} (h : s.phase = .idle) : exec i s = .next (commandEffect i.command s) := by
  rw [exec_eq_accept, accept_idle h]

/-- The three ways a command can begin: a transaction with the command's wire layout, a failure, or a completion
without the bus that writes the working bits (FRAME_TX and DECODE_RX alone). -/
theorem commandEffect_cases (c : Command) (s : State) :
    (∃ tx, wireLayout c = some tx ∧ commandEffect c s = startTransaction c tx s) ∨
    (∃ f, resultFits c (.err f) ∧ f ≠ .transportFailure ∧ commandEffect c s = raise f (latch c s)) ∨
    (∃ bits r, resultFits c r ∧ isErr r = false ∧ ((∃ payload sync, c = .frameTx payload sync) ∨ ∃ raw, c = .decodeRx raw) ∧
      commandEffect c s = complete r (setBits bits (latch c s))) := by
  cases c with
  | strobe code =>
    by_cases h : isStrobeCode code = true
    · refine .inl ⟨[encodeHeader code .writeSingle, filler], ?_, by simp [commandEffect, h]⟩
      have := (isStrobeCode_iff code).mp h
      simp [wireLayout, this, encodeHeader, modeBits, filler]
    · refine .inr (.inl ⟨.illegalStrobe code, ⟨rfl, fun hh => h ((isStrobeCode_iff code).mpr hh)⟩, by simp, ?_⟩)
      simp [commandEffect, h]
  | writeSingle addr value =>
    exact .inl ⟨_, rfl, by simp [commandEffect, startWriteSingle, encodeHeader, modeBits]⟩
  | readSingle addr => exact .inl ⟨_, rfl, by simp [commandEffect, startReadSingle, encodeHeader, modeBits, filler]⟩
  | writeBurst addr data => exact .inl ⟨_, rfl, by simp [commandEffect, startWriteBurst, encodeHeader, modeBits]⟩
  | readBurst addr length =>
    cases h : burstRejected s.params addr length with
    | true =>
      refine .inr (.inl ⟨.burstAddressOverflow length, ⟨rfl, ((burstRejected_iff _ _ _).mp h).1⟩, by simp, ?_⟩)
      simp only [commandEffect, startReadBurst, h]
    | false => exact .inl ⟨_, rfl, by simp only [commandEffect, startReadBurst, h]; rfl⟩
  | frameTx payload sync =>
    by_cases h1 : frameOverflows payload.length = true
    · exact .inr (.inl ⟨.frameOverflow payload.length, ⟨rfl, (frameOverflows_iff _).mp h1⟩, by simp,
        by simp [commandEffect, h1]⟩)
    · have h1' : payload.length ≤ 496 := by
        have := (frameOverflows_iff payload.length).not.mp h1; omega
      by_cases h2 : frameMisaligned payload.length = true
      · exact .inr (.inl ⟨.frameNotByteAligned payload.length, ⟨rfl, h1', (frameMisaligned_iff _).mp h2⟩, by simp,
          by simp [commandEffect, h1, h2]⟩)
      · have h2' : payload.length % 8 = 0 := by
          have := (frameMisaligned_iff payload.length).not.mp h2; omega
        have hl := frameBits_length sync h1' h2'
        refine .inr (.inr ⟨_, _, ?_, rfl, .inl ⟨_, _, rfl⟩, by simp only [commandEffect, h1, h2]; rfl⟩)
        exact ⟨h1', h2', packBits_length (by rw [hl]), by rw [hl]⟩
  | decodeRx raw =>
    by_cases h : raw.isEmpty = true
    · exact .inr (.inl ⟨.emptyBurst, List.isEmpty_iff.mp h, by simp, by simp [commandEffect, h]⟩)
    · refine .inr (.inr ⟨_, _, ?_, rfl, .inr ⟨_, rfl⟩, by simp only [commandEffect, h]; rfl⟩)
      exact ⟨fun hh => h (by simp [hh]), decodedBits_length raw⟩
  | reserved7 => exact .inr (.inl ⟨.illegalCommand, trivial, by simp, rfl⟩)

/-- A command that starts a transaction is not rejected: the bytes it is to put on the wire are its wire layout. -/
theorem acceptedLayout_of_select {c : Command} {s : State} (h : (commandEffect c s).phase = .select) :
    acceptedLayout s.params c = wireLayout c := by
  cases c with
  | readBurst addr length =>
    cases hr : burstRejected s.params addr length with
    | true =>
      simp only [commandEffect, startReadBurst, hr, raise_phase] at h
      split at h <;> cases h
    | false => simp [acceptedLayout, hr]
  | _ => rfl

/-! The sequencer's steps. -/

/-- `XFER` with a byte left and an answer of the CHIP. -/
theorem xferStep_ok {s : State} {b r : Byte} (hb : s.txbuf[s.idx]? = some b) (hr : chipAnswers b s = some r) :
    xferStep s = .next (recordExchange b r (dropAnswer s)) := by
  simp [xferStep, hb, hr]

/-- `XFER` with a byte left and a failure of the bus. -/
theorem xferStep_fail {s : State} {b : Byte} (hb : s.txbuf[s.idx]? = some b) (hr : chipAnswers b s = none) :
    xferStep s = .next (raise .transportFailure (recordBroken b (dropAnswer s))) := by
  simp [xferStep, hb, hr]

/-- Everything `XFER` can answer with a next state. -/
theorem xferStep_cases {s t : State} (h : xferStep s = .next t) :
    ∃ b, s.txbuf[s.idx]? = some b ∧
      ((∃ r, chipAnswers b s = some r ∧ t = recordExchange b r (dropAnswer s)) ∨
       (chipAnswers b s = none ∧ t = raise .transportFailure (recordBroken b (dropAnswer s)))) := by
  unfold xferStep at h
  split at h
  · cases h
  · rename_i b hb
    refine ⟨b, hb, ?_⟩
    split at h <;> cases h
    · exact .inl ⟨_, ‹_›, rfl⟩
    · exact .inr ⟨‹_›, rfl⟩

/-- Everything `RELEASE` can answer with a next state. -/
theorem releaseStep_cases {s t : State} (h : releaseStep s = .next t) :
    (isErr s.result = true ∧ t = { releaseSelect s with phase := .done }) ∨
    (isErr s.result = false ∧ ∃ r, busResult s.op s.rxbuf = some r ∧ t = complete r (releaseSelect s)) := by
  unfold releaseStep at h
  split at h
  · cases h; exact .inl ⟨‹_›, rfl⟩
  · split at h <;> cases h
    exact .inr ⟨by simp_all, _, ‹_›, rfl⟩

/-- Everything the HOST's own turn can do: nothing, the beginning of a sequence, a line without a command, a command
presented, a command that cannot be presented. -/
theorem hostTurn_cases (s : State) :
    (hostTurn s = s ∧ (s.host.waiting = true ∨ (s.host.ops = [] ∧ s.host.queue = []))) ∨
    (s.host.waiting = false ∧ s.host.ops = [] ∧ ∃ q queue, s.host.queue = q :: queue ∧
      hostTurn s = setHost (beginSeq s.params q queue s.host) s) ∨
    (s.host.waiting = false ∧ ∃ op rest, s.host.ops = op :: rest ∧
      ((hostCommand s.params s.host op = none ∧ hostTurn s = hostLocal op rest s) ∨
       ∃ i, hostCommand s.params s.host op = some i ∧
        ((i.command.wf = true ∧ hostTurn s = present i s) ∨
         (i.command.wf = false ∧ hostTurn s = setHost (hostCannotPresent i s.host) s)))) := by
  unfold hostTurn
  split
  · exact .inl ⟨rfl, .inl ‹_›⟩
  · have hw : s.host.waiting = false := by simp_all
    split
    · split
      · exact .inl ⟨rfl, .inr ⟨‹_›, ‹_›⟩⟩
      · exact .inr (.inl ⟨hw, ‹_›, _, _, ‹_›, rfl⟩)
    · refine .inr (.inr ⟨hw, _, _, ‹_›, ?_⟩)
      split
      · exact .inl ⟨‹_›, rfl⟩
      · refine .inr ⟨_, ‹_›, ?_⟩
        split
        · exact .inl ⟨‹_›, rfl⟩
        · exact .inr ⟨by simp_all, rfl⟩

/-- Everything a line without a command can do: it changes the HOST, and a pin read also the pin and the counter. -/
theorem hostLocal_cases (op : HostOp) (rest : List HostOp) (s : State) :
    (∃ h, hostLocal op rest s = setHost h s) ∨ ∃ h, hostLocal op rest s = setHost h (dropPin s) := by
  unfold hostLocal
  split <;> (try split) <;> first | exact .inl ⟨_, rfl⟩ | exact .inr ⟨_, rfl⟩

/-- What the HOST's own turn leaves alone: everything but the HOST, the port, the pin and the counter. -/
theorem hostTurn_frame (s : State) :
    (hostTurn s).phase = s.phase ∧ (hostTurn s).sel = s.sel ∧ (hostTurn s).idx = s.idx ∧
    (hostTurn s).txbuf = s.txbuf ∧ (hostTurn s).rxbuf = s.rxbuf ∧ (hostTurn s).bitbuf = s.bitbuf ∧
    (hostTurn s).result = s.result ∧ (hostTurn s).op = s.op ∧ (hostTurn s).rst = s.rst ∧
    (hostTurn s).answers = s.answers ∧ (hostTurn s).bus = s.bus ∧ (hostTurn s).params = s.params := by
  obtain ⟨h, -⟩ | ⟨-, -, _, _, -, h⟩ | ⟨-, op, rest, -, ⟨-, h⟩ | ⟨i, -, ⟨-, h⟩ | ⟨-, h⟩⟩⟩ := hostTurn_cases s
  · rw [h]; simp
  · rw [h]; simp
  · rw [h]; obtain ⟨_, h⟩ | ⟨_, h⟩ := hostLocal_cases op rest s <;> rw [h] <;> simp
  · rw [h]; simp
  · rw [h]; simp

/-- Everything the beginning of a sequence can do (R236, R239): it begins, its mode's profile is applied first, or it is
withheld. -/
theorem beginSeq_cases (p : Params) (q : HostSeq) (queue : List HostSeq) (h : HostState) :
    (mayBegin h.trust h.prepared q = true ∧ switchNeeded h.mode q = none ∧
      beginSeq p q queue h = { h with queue := queue, ops := expand p h.profiles q }) ∨
    (∃ mode, mayBegin h.trust h.prepared q = true ∧ switchNeeded h.mode q = some mode ∧
      beginSeq p q queue h =
        { h with queue := q :: queue, ops := applyConfigOps (some mode) (profileFor h.profiles mode) }) ∨
    (mayBegin h.trust h.prepared q = false ∧
      beginSeq p q queue h = { h with queue := queue, reports := h.reports ++ [.withheld q] }) := by
  unfold beginSeq
  split
  · split
    · exact .inl ⟨‹_›, ‹_›, rfl⟩
    · exact .inr (.inl ⟨_, ‹_›, ‹_›, rfl⟩)
  · exact .inr (.inr ⟨by simp_all, rfl⟩)

/-- Before a path the whole preparation must be done and the configuration in no doubt (R235, R239). -/
theorem mayBegin_path {t : ConfigTrust} {prep : Preparation} {q : HostSeq} {m : RadioMode} (h : pathMode q = some m) :
    mayBegin t prep q = true ↔ t = .trusted ∧ prep = ⟨true, true, true, true, true⟩ := by
  cases q <;> simp_all [pathMode, mayBegin, preparationComplete]

/-- Any other sequence is begun whatever has been prepared. -/
theorem mayBegin_other {t : ConfigTrust} {prep : Preparation} {q : HostSeq} (h : pathMode q = none) :
    mayBegin t prep q = mayBegin t .nothing q := by
  cases q <;> simp_all [pathMode, mayBegin]

/-- A change of mode is needed exactly before a path whose profile is not in force. -/
theorem switchNeeded_iff {mode : Option RadioMode} {q : HostSeq} {m : RadioMode} :
    switchNeeded mode q = some m ↔ pathMode q = some m ∧ mode ≠ some m := by
  simp [switchNeeded, Option.filter_eq_some_iff]

/-! Taking a result. -/

/-- With no result awaited the HOST only notes it. -/
theorem hostTake_idle {h : HostState} (hw : h.waiting = false) (r : Result) :
    hostTake r h = { h with taken := some r } := by
  simp [hostTake, hw]

/-- A failure ends the sequence and is reported (R180, R215). -/
theorem hostTake_err {h : HostState} {op : HostOp} {rest : List HostOp} (hw : h.waiting = true)
    (ho : h.ops = op :: rest) (f : Failure) :
    hostTake (.err f) h =
      { h with
        taken := some (.err f), ops := [], waiting := false, trust := trustAfterFailure op h.trust,
        mode := modeAfterFailure op h.mode, prepared := preparedAfterFailure op h.prepared,
        reports := h.reports ++ [.failed (surfacedFailure op f)] } := by
  simp [hostTake, hw, ho, hostFail]

/-- Any other result is the line's. -/
theorem hostTake_ok {h : HostState} {op : HostOp} {rest : List HostOp} (hw : h.waiting = true)
    (ho : h.ops = op :: rest) {r : Result} (hr : isErr r = false) :
    hostTake r h =
      afterResult op r
        { h with
          taken := some r, ops := rest, waiting := false, trust := trustAfterSuccess op h.trust,
          mode := modeAfterSuccess op h.mode, prepared := preparedAfterSuccess op h.prepared } := by
  cases r <;> simp_all [hostTake, isErr]

/-- What a result leaves of the sequence: the lines after this one, or a poll once more. -/
theorem afterResult_cases (op : HostOp) (r : Result) (h : HostState) :
    (afterResult op r h).trust = h.trust ∧ (afterResult op r h).waiting = h.waiting ∧
    (afterResult op r h).queue = h.queue ∧ (afterResult op r h).mode = h.mode ∧
    (afterResult op r h).prepared = h.prepared ∧
    ((afterResult op r h).ops = h.ops ∨
      (∃ n, op = .pollIdle n ∧ (afterResult op r h).ops = .pollIdle (n - 1) :: h.ops) ∨
      ∃ n, op = .pollDrained n ∧ (afterResult op r h).ops = .pollDrained (n - 1) :: h.ops) := by
  cases op <;> simp only [afterResult, pollAgain, addReport]
  case pollIdle n => split <;> simp
  case pollDrained n => split <;> simp
  case readState => cases statusValue r <;> simp
  case readTxBytes => cases statusValue r <;> simp
  case verifyDrained => cases statusValue r <;> simp
  all_goals first | (split <;> simp) | simp

/-! The step. -/

/-- Everything a step can answer with a next state: a reset; in `IDLE` the acceptance of the presented word's command or
the HOST's turn; otherwise the sequencer's step of the phase. -/
theorem step_cases {s t : State} (h : step s = .next t) :
    (rstAsserted s = true ∧ t = resetFramer (tick s)) ∨
    (rstAsserted s = false ∧
      ((s.phase = .idle ∧ ∃ w i, s.port = some w ∧ decode w = .instr i ∧ exec i (takePort (tick s)) = .next t) ∨
       (s.phase = .idle ∧ s.port = none ∧ t = hostTurn (tick s)) ∨
       (s.phase = .select ∧ t = { tick s with phase := .xfer }) ∨
       (s.phase = .xfer ∧ xferStep (tick s) = .next t) ∨
       (s.phase = .release ∧ releaseStep (tick s) = .next t) ∨
       (s.phase = .done ∧ t = returnToIdle (setHost (hostTake s.result s.host) (tick s))))) := by
  unfold step at h
  split at h
  · cases h; exact .inl ⟨‹_›, rfl⟩
  · refine .inr ⟨by simp_all, ?_⟩
    split at h
    · unfold idleStep fetchWord at h
      split at h
      · cases h; exact .inr (.inl ⟨‹_›, ‹_›, rfl⟩)
      · split at h
        · exact .inl ⟨‹_›, _, _, ‹_›, ‹_›, h⟩
        · cases h
    · cases h; exact .inr (.inr (.inl ⟨‹_›, rfl⟩))
    · exact .inr (.inr (.inr (.inl ⟨‹_›, h⟩)))
    · exact .inr (.inr (.inr (.inr (.inl ⟨‹_›, h⟩))))
    · cases h; exact .inr (.inr (.inr (.inr (.inr ⟨‹_›, rfl⟩))))

/-! Runs. -/

@[simp] theorem run_zero (s : State) : run 0 s = .next s := rfl

/-- A run goes on from the next state. -/
theorem run_succ_next {s t : State} (h : step s = .next t) (k : Nat) : run (k + 1) s = run k t := by
  simp [run, h]

/-- A run in two parts. -/
theorem run_add {j : Nat} : ∀ {s t : State}, run j s = .next t → ∀ k, run (j + k) s = run k t := by
  induction j with
  | zero => intro s t h k; cases h; simp
  | succ j ih =>
    intro s t h k
    rw [show j + 1 + k = (j + k) + 1 by omega]
    simp only [run] at h ⊢
    split at h
    · exact ih h k
    · cases h
    · cases h

/-- No reset within `k + 1` steps: none now, and none within `k` steps after it. -/
theorem noReset_succ {k : Nat} {s : State} (h : NoReset (k + 1) s) :
    rstAsserted s = false ∧ NoReset k (tick s) := by
  unfold NoReset rstAsserted at *
  cases hr : s.rst with
  | nil => simp [tick, hr]
  | cons b l =>
    rw [hr] at h
    refine ⟨by simpa using h b (by simp), ?_⟩
    intro x hx
    exact h x (by simp only [tick, hr, List.tail_cons] at hx; simp [hx])

/-- No reset within `k` steps, so none within fewer. -/
theorem noReset_mono {j k : Nat} {s : State} (h : NoReset k s) (hj : j ≤ k) : NoReset j s := by
  intro b hb
  exact h b (List.mem_of_mem_take (i := j) (by rw [List.take_take]; simpa [Nat.min_eq_left hj] using hb))

/-- No reset within `j + k` steps, so none within `k` steps of a state `j` steps later. -/
theorem noReset_drop {j k : Nat} {s t : State} (h : NoReset (j + k) s) (ht : t.rst = s.rst.drop j) : NoReset k t := by
  intro b hb
  rw [ht, List.take_drop] at hb
  exact h b (List.mem_of_mem_drop hb)

/-- With `rst` released a step is the step of the phase. -/
theorem step_of_released {s : State} (h : rstAsserted s = false) :
    step s =
      match s.phase with
      | .idle => idleStep (tick s)
      | .select => selectStep (tick s)
      | .xfer => xferStep (tick s)
      | .release => releaseStep (tick s)
      | .done => doneStep (tick s) := by
  unfold step
  exact if_neg (by simp [h])

end Sys2Proof.Machine
end

