-- ==== Sys2Proof/Laws/PerInstr.lean ====
section
/-! SUPPORT. Statements made of every instruction as syntax, one lemma per constructor of Instr. -/

namespace Sys2Proof.Laws

open Sys2Proof.Config
open Sys2Proof.Machine

/-- The word of an instruction has the format of its row of spec/opcode_table.json, and its first byte the row's fixed
bits. -/
def EncodesRow.Statement (i : Instr) : Prop :=
  (encode i).fmt = i.row.fmt ∧ ∃ first rest, (encode i).bytes = first :: rest ∧ first &&& i.row.mask = i.row.pattern

/-- The mode bits of a header byte. -/
theorem header_mask (a : Addr) (m : AccessMode) : encodeHeader a m &&& 0xC0#8 = modeBits m := by
  cases m <;> revert a <;> decide

theorem EncodesRow.wireWriteSingle (addr : Addr) (value : Byte) : EncodesRow.Statement (.wireWriteSingle addr value) := ⟨rfl, _, _, rfl, header_mask addr .writeSingle⟩

theorem EncodesRow.wireWriteBurst (addr : Addr) (data : List Byte) : EncodesRow.Statement (.wireWriteBurst addr data) := ⟨rfl, _, _, rfl, header_mask addr .writeBurst⟩

theorem EncodesRow.wireReadSingle (addr : Addr) : EncodesRow.Statement (.wireReadSingle addr) := ⟨rfl, _, _, rfl, header_mask addr .readSingle⟩

theorem EncodesRow.wireReadBurst (addr : Addr) (length : Nat) : EncodesRow.Statement (.wireReadBurst addr length) := ⟨rfl, _, _, burstBytes_eq_cons addr length, header_mask addr .readBurst⟩

theorem EncodesRow.sReset : EncodesRow.Statement .sReset := ⟨rfl, _, _, rfl, by decide⟩

theorem EncodesRow.sFstxon : EncodesRow.Statement .sFstxon := ⟨rfl, _, _, rfl, by decide⟩

theorem EncodesRow.sXoff : EncodesRow.Statement .sXoff := ⟨rfl, _, _, rfl, by decide⟩

theorem EncodesRow.sCal : EncodesRow.Statement .sCal := ⟨rfl, _, _, rfl, by decide⟩

theorem EncodesRow.sRx : EncodesRow.Statement .sRx := ⟨rfl, _, _, rfl, by decide⟩

theorem EncodesRow.sTx : EncodesRow.Statement .sTx := ⟨rfl, _, _, rfl, by decide⟩

theorem EncodesRow.sIdle : EncodesRow.Statement .sIdle := ⟨rfl, _, _, rfl, by decide⟩

theorem EncodesRow.s37 : EncodesRow.Statement .s37 := ⟨rfl, _, _, rfl, by decide⟩

theorem EncodesRow.sWor : EncodesRow.Statement .sWor := ⟨rfl, _, _, rfl, by decide⟩

theorem EncodesRow.sPwd : EncodesRow.Statement .sPwd := ⟨rfl, _, _, rfl, by decide⟩

theorem EncodesRow.sFlushRx : EncodesRow.Statement .sFlushRx := ⟨rfl, _, _, rfl, by decide⟩

theorem EncodesRow.sFlushTx : EncodesRow.Statement .sFlushTx := ⟨rfl, _, _, rfl, by decide⟩

theorem EncodesRow.sWorrst : EncodesRow.Statement .sWorrst := ⟨rfl, _, _, rfl, by decide⟩

theorem EncodesRow.sNop : EncodesRow.Statement .sNop := ⟨rfl, _, _, rfl, by decide⟩

theorem EncodesRow.strobe (code : Addr) : EncodesRow.Statement (.strobe code) := ⟨rfl, _, _, rfl, by simp [Instr.row]⟩

theorem EncodesRow.writeSingle (addr : Addr) (value : Byte) : EncodesRow.Statement (.writeSingle addr value) := ⟨rfl, _, _, rfl, by simp [Instr.row]⟩

theorem EncodesRow.readSingle (addr : Addr) : EncodesRow.Statement (.readSingle addr) := ⟨rfl, _, _, rfl, by simp [Instr.row]⟩

theorem EncodesRow.writeBurst (addr : Addr) (data : List Byte) : EncodesRow.Statement (.writeBurst addr data) := ⟨rfl, _, _, rfl, by simp [Instr.row]⟩

theorem EncodesRow.readBurst (addr : Addr) (length : Nat) : EncodesRow.Statement (.readBurst addr length) := ⟨rfl, _, _, rfl, by simp [Instr.row]⟩

theorem EncodesRow.frameTx (payload : List Bit) (sync : SyncWord) : EncodesRow.Statement (.frameTx payload sync) := ⟨rfl, _, _, rfl, by simp [Instr.row]⟩

theorem EncodesRow.decodeRx (raw : List Byte) : EncodesRow.Statement (.decodeRx raw) := ⟨rfl, _, _, rfl, by simp [Instr.row]⟩

theorem EncodesRow.reserved7 : EncodesRow.Statement .reserved7 := ⟨rfl, _, _, rfl, by decide⟩

end Sys2Proof.Laws
end

