-- ==== Sys2Proof/Tests/Slice0.lean ====
section
/-! SUPPORT. The model's own tests. Expected values come from spec/95_test_vectors.md (its vector's name stands in the
comment) or are written out from the spec's encodings; each test is about one step at most. After them, one witness for
every statement of Certificates/Slice0/Obligations.lean that has hypotheses. -/

namespace Sys2Proof.Tests

open Sys2Proof.Config
open Sys2Proof.Machine
open Sys2Proof.Safety

/-! Helpers. -/

/-- The next state of an answer, if it is one. -/
def nextOf : Answer → Option State
  | .next s => some s
  | .fault _ => none
  | .refused _ => none

/-- The phase, `TXBUF` and select signal after an answer. -/
def started (a : Answer) : Option (Phase × List Byte × Sel) :=
  (nextOf a).map fun s => (s.phase, s.txbuf, s.sel)

/-- The phase, result and select signal after an answer. -/
def finished (a : Answer) : Option (Phase × Result × Sel) :=
  (nextOf a).map fun s => (s.phase, s.result, s.sel)

/-- The reset state with the CHIP's answers scripted. -/
def scripted (answers : List (Option Byte)) : State :=
  { State.reset with answers := answers }

/-- The reset state with a word presented. -/
def presented (w : PortWord) : State :=
  { State.reset with port := some w }

/-- The reset state with `BURST_ADDR_OVERFLOW` = `wrap`. -/
def wrapping : State :=
  { State.reset with params := { defaultParams with burstAddrOverflow := .wrap } }

/-- `READ_SINGLE 06` in `XFER` with the responses so far (program P5). -/
def reading (rx : List Byte) (answers : List (Option Byte)) : State :=
  { State.reset with
    phase := .xfer, sel := .asserted, op := .readSingle 0x06#6, txbuf := [0x86#8, 0x00#8], rxbuf := rx,
    idx := rx.length, answers := answers, bus := .select :: exchanges [0x86#8, 0x00#8] rx }

/-- A command in `RELEASE` with its responses. -/
def releasing (c : Command) (rx : List Byte) : State :=
  { State.reset with phase := .release, sel := .asserted, op := c, rxbuf := rx, idx := rx.length, bus := [.select] }

/-- A command's result in `DONE` with the HOST waiting for it. -/
def resultFor (r : Result) (ops : List HostOp) : State :=
  { State.reset with phase := .done, result := r, host := { HostState.start with waiting := true, ops := ops } }

/-- The HOST about to begin the sequences given. -/
def queueing (trust : ConfigTrust) (queue : List HostSeq) : State :=
  { State.reset with host := { HostState.start with queue := queue, trust := trust } }

/-- The HOST about to do the lines given. -/
def hosting (ops : List HostOp) : State :=
  { State.reset with host := { HostState.start with ops := ops } }

/-! WellFormed: one ill-formed term for each check. -/

theorem test_wf_refuses_write_burst_256 : (Instr.writeBurst 0x3F#6 (List.replicate 256 0x00#8)).wf = false := by
  simp only [Instr.wf, List.length_replicate]; decide

theorem test_wf_refuses_wire_write_burst_256 :
    (Instr.wireWriteBurst 0x3F#6 (List.replicate 256 0x00#8)).wf = false := by
  simp only [Instr.wf, List.length_replicate]; decide

theorem test_wf_refuses_read_burst_256 : (Instr.readBurst 0x00#6 256).wf = false := by decide

theorem test_wf_refuses_wire_read_burst_256 : (Instr.wireReadBurst 0x00#6 256).wf = false := by decide

theorem test_wf_refuses_frame_65536 : (Instr.frameTx (List.replicate 65536 false) 0x0000#16).wf = false := by
  simp only [Instr.wf, List.length_replicate]; decide

theorem test_wf_refuses_raw_257 : (Instr.decodeRx (List.replicate 257 0x00#8)).wf = false := by
  simp only [Instr.wf, List.length_replicate]; decide

/-- R95: these two bytes are the strobe's. -/
theorem test_wf_refuses_strobe_as_wire_write : (Instr.wireWriteSingle 0x36#6 0x00#8).wf = false := by decide

theorem test_command_wf_bounds :
    (Command.writeBurst 0x00#6 (List.replicate 256 0x00#8)).wf = false ∧ (Command.readBurst 0x00#6 256).wf = false ∧
      (Command.decodeRx (List.replicate 257 0x00#8)).wf = false := by
  simp only [Command.wf, List.length_replicate]; decide

/-! Decoding: one word of every constructor, from R80 to R86. -/

theorem test_decode_wire_write_single :
    decode ⟨.hdr, [0b00000110#8, 0x40#8]⟩ = .instr (.wireWriteSingle 0x06#6 0x40#8) := by decide

theorem test_decode_wire_write_burst :
    decode ⟨.hdr, [0b01111110#8, 0xC0#8, 0x00#8]⟩ = .instr (.wireWriteBurst 0x3E#6 [0xC0#8, 0x00#8]) := by decide

theorem test_decode_wire_read_single :
    decode ⟨.hdr, [0b10000110#8, 0x00#8]⟩ = .instr (.wireReadSingle 0x06#6) := by decide

/-- B6: the second address byte's sum has bit 6 set. -/
theorem test_decode_wire_read_burst :
    decode ⟨.hdr, [0b11111010#8, 0b11000010#8]⟩ = .instr (.wireReadBurst 0x3A#6 1) := by decide

theorem test_decode_s_reset : decode ⟨.hdr, [0b00110000#8, 0x00#8]⟩ = .instr .sReset := by decide
theorem test_decode_s_fstxon : decode ⟨.hdr, [0b00110001#8, 0x00#8]⟩ = .instr .sFstxon := by decide
theorem test_decode_s_xoff : decode ⟨.hdr, [0b00110010#8, 0x00#8]⟩ = .instr .sXoff := by decide
theorem test_decode_s_cal : decode ⟨.hdr, [0b00110011#8, 0x00#8]⟩ = .instr .sCal := by decide
theorem test_decode_s_rx : decode ⟨.hdr, [0b00110100#8, 0x00#8]⟩ = .instr .sRx := by decide
theorem test_decode_s_tx : decode ⟨.hdr, [0b00110101#8, 0x00#8]⟩ = .instr .sTx := by decide
theorem test_decode_s_idle : decode ⟨.hdr, [0b00110110#8, 0x00#8]⟩ = .instr .sIdle := by decide
theorem test_decode_s_37 : decode ⟨.hdr, [0b00110111#8, 0x00#8]⟩ = .instr .s37 := by decide
theorem test_decode_s_wor : decode ⟨.hdr, [0b00111000#8, 0x00#8]⟩ = .instr .sWor := by decide
theorem test_decode_s_pwd : decode ⟨.hdr, [0b00111001#8, 0x00#8]⟩ = .instr .sPwd := by decide
theorem test_decode_s_flush_rx : decode ⟨.hdr, [0b00111010#8, 0x00#8]⟩ = .instr .sFlushRx := by decide
theorem test_decode_s_flush_tx : decode ⟨.hdr, [0b00111011#8, 0x00#8]⟩ = .instr .sFlushTx := by decide
theorem test_decode_s_worrst : decode ⟨.hdr, [0b00111100#8, 0x00#8]⟩ = .instr .sWorrst := by decide
theorem test_decode_s_nop : decode ⟨.hdr, [0b00111101#8, 0x00#8]⟩ = .instr .sNop := by decide

theorem test_decode_strobe : decode ⟨.cmd, [0b00000000#8, 0x2F#8]⟩ = .instr (.strobe 0x2F#6) := by decide

theorem test_decode_write_single :
    decode ⟨.cmd, [0b00000001#8, 0x06#8, 0x40#8]⟩ = .instr (.writeSingle 0x06#6 0x40#8) := by decide

theorem test_decode_read_single : decode ⟨.cmd, [0b00000010#8, 0x06#8]⟩ = .instr (.readSingle 0x06#6) := by decide

theorem test_decode_write_burst :
    decode ⟨.cmd, [0b00000011#8, 0x3E#8, 0x02#8, 0xC0#8, 0x00#8]⟩ = .instr (.writeBurst 0x3E#6 [0xC0#8, 0x00#8]) := by
  decide

theorem test_decode_read_burst :
    decode ⟨.cmd, [0b00000100#8, 0x3F#8, 0x18#8]⟩ = .instr (.readBurst 0x3F#6 24) := by decide

theorem test_decode_frame_tx :
    decode ⟨.cmd, [0b00000101#8, 0xD3#8, 0x91#8, 0x00#8, 0x04#8, 0b10110000#8]⟩ =
      .instr (.frameTx [true, false, true, true] 0xD391#16) := by decide

theorem test_decode_decode_rx :
    decode ⟨.cmd, [0b00000110#8, 0x00#8, 0x02#8, 0x0F#8, 0xA5#8]⟩ = .instr (.decodeRx [0x0F#8, 0xA5#8]) := by decide

theorem test_decode_reserved_7 : decode ⟨.cmd, [0b00000111#8]⟩ = .instr .reserved7 := by decide

/-- E9, E10, E11: a header's two fields. -/
theorem test_header_fields :
    (headerMode 0x7E#8, headerAddr 0x7E#8) = (.writeBurst, 0x3E#6) ∧
      (headerMode 0x36#8, headerAddr 0x36#8) = (.writeSingle, 0x36#6) ∧
      (headerMode 0xF5#8, headerAddr 0xF5#8) = (.readBurst, 0x35#6) := by decide

/-- Every rejection by name. -/
theorem test_decode_rejects :
    decode ⟨.cmd, []⟩ = .rejected .empty ∧ decode ⟨.hdr, []⟩ = .rejected .empty ∧
      decode ⟨.cmd, [0x08#8]⟩ = .rejected .reservedBits ∧ decode ⟨.cmd, [0x02#8, 0x40#8]⟩ = .rejected .reservedBits ∧
      decode ⟨.cmd, [0x02#8]⟩ = .rejected .truncated ∧ decode ⟨.cmd, [0x07#8, 0x00#8]⟩ = .rejected .trailingBytes ∧
      decode ⟨.cmd, [0x06#8, 0x01#8, 0x01#8]⟩ = .rejected .tooLong ∧
      decode ⟨.hdr, [0x86#8, 0x01#8]⟩ = .rejected .badFiller ∧
      decode ⟨.hdr, [0xFF#8, 0xFF#8]⟩ = .rejected .badBurstAddress := by decide

/-- The opcode table's words: every `op`, every strobe, the other three modes. -/
theorem test_table_words_cmd :
    (List.range 8).map (decodeTableWord 8) =
      [some (.strobe 0x00#6), some (.writeSingle 0x00#6 0x00#8), some (.readSingle 0x00#6),
        some (.writeBurst 0x00#6 []), some (.readBurst 0x00#6 0), some (.frameTx [] 0x0000#16), some (.decodeRx []),
        some .reserved7] := by decide

theorem test_table_words_strobes :
    (List.range 14).map (fun k => decodeTableWord 8 (0x30 + k)) =
      [some .sReset, some .sFstxon, some .sXoff, some .sCal, some .sRx, some .sTx, some .sIdle, some .s37, some .sWor,
        some .sPwd, some .sFlushRx, some .sFlushTx, some .sWorrst, some .sNop] := by decide

theorem test_table_words_modes :
    decodeTableWord 8 0x08 = some (.wireWriteSingle 0x08#6 0x00#8) ∧
      decodeTableWord 8 0x40 = some (.wireWriteBurst 0x00#6 []) ∧
      decodeTableWord 8 0x80 = some (.wireReadSingle 0x00#6) ∧
      decodeTableWord 8 0xC0 = some (.wireReadBurst 0x00#6 0) := by decide

/-- A presented table word runs in the very next step after reset. -/
theorem test_fetch_runs_first :
    started (step (State.reset.withFetchWord 8 0x3D)) = some (.select, [0x3D#8, 0x00#8], .asserted) ∧
      started (step (State.reset.withFetchWord 8 0xC0)) = some (.select, [0xC0#8], .asserted) ∧
      finished (step (State.reset.withFetchWord 8 7)) = some (.done, .err .illegalCommand, .released) := by decide

/-! Acceptance. K1 to K14. -/

theorem test_s_reset : started (exec .sReset State.reset) = some (.select, [0x30#8, 0x00#8], .asserted) := by decide
theorem test_s_fstxon : started (exec .sFstxon State.reset) = some (.select, [0x31#8, 0x00#8], .asserted) := by decide
theorem test_s_xoff : started (exec .sXoff State.reset) = some (.select, [0x32#8, 0x00#8], .asserted) := by decide
theorem test_s_cal : started (exec .sCal State.reset) = some (.select, [0x33#8, 0x00#8], .asserted) := by decide
theorem test_s_rx : started (exec .sRx State.reset) = some (.select, [0x34#8, 0x00#8], .asserted) := by decide
theorem test_s_tx : started (exec .sTx State.reset) = some (.select, [0x35#8, 0x00#8], .asserted) := by decide
theorem test_s_idle : started (exec .sIdle State.reset) = some (.select, [0x36#8, 0x00#8], .asserted) := by decide
theorem test_s_37 : started (exec .s37 State.reset) = some (.select, [0x37#8, 0x00#8], .asserted) := by decide
theorem test_s_wor : started (exec .sWor State.reset) = some (.select, [0x38#8, 0x00#8], .asserted) := by decide
theorem test_s_pwd : started (exec .sPwd State.reset) = some (.select, [0x39#8, 0x00#8], .asserted) := by decide
theorem test_s_flush_rx : started (exec .sFlushRx State.reset) = some (.select, [0x3A#8, 0x00#8], .asserted) := by decide
theorem test_s_flush_tx : started (exec .sFlushTx State.reset) = some (.select, [0x3B#8, 0x00#8], .asserted) := by decide
theorem test_s_worrst : started (exec .sWorrst State.reset) = some (.select, [0x3C#8, 0x00#8], .asserted) := by decide
theorem test_s_nop : started (exec .sNop State.reset) = some (.select, [0x3D#8, 0x00#8], .asserted) := by decide

/-- K14; K15 to K18. -/
theorem test_strobe_accepted : started (exec (.strobe 0x3D#6) State.reset) = some (.select, [0x3D#8, 0x00#8], .asserted) := by
  decide

theorem test_strobe_rejected :
    [0x2F#6, 0x3E#6, 0x3F#6, 0x00#6].map (fun c => finished (exec (.strobe c) State.reset)) =
      [0x2F#6, 0x3E#6, 0x3F#6, 0x00#6].map (fun c => some (.done, .err (.illegalStrobe c), .released)) := by decide

/-- W1, W11. -/
theorem test_write_single :
    started (exec (.writeSingle 0x06#6 0x40#8) State.reset) = some (.select, [0x06#8, 0x40#8], .asserted) ∧
      started (exec (.writeSingle 0x36#6 0x00#8) State.reset) = some (.select, [0x36#8, 0x00#8], .asserted) := by decide

/-- W3, W4. -/
theorem test_read_single :
    started (exec (.readSingle 0x06#6) State.reset) = some (.select, [0x86#8, 0x00#8], .asserted) ∧
      started (exec (.readSingle 0x3F#6) State.reset) = some (.select, [0xBF#8, 0x00#8], .asserted) := by decide

/-- W6, W7. -/
theorem test_write_burst :
    started (exec (.writeBurst 0x3E#6 [0xC0#8, 0x00#8]) State.reset) =
        some (.select, [0x7E#8, 0xC0#8, 0x00#8], .asserted) ∧
      started (exec (.writeBurst 0x3F#6 []) State.reset) = some (.select, [0x7F#8], .asserted) := by decide

/-- B1, B3, B4, B6. -/
theorem test_read_burst :
    started (exec (.readBurst 0x3F#6 3) State.reset) = some (.select, [0xFF#8, 0xC7#8, 0xCF#8, 0xD7#8], .asserted) ∧
      started (exec (.readBurst 0x10#6 5) State.reset) =
        some (.select, [0xD0#8, 0xD8#8, 0xE0#8, 0xE8#8, 0xF0#8, 0xF8#8], .asserted) ∧
      started (exec (.readBurst 0x3F#6 0) State.reset) = some (.select, [0xFF#8], .asserted) ∧
      started (exec (.readBurst 0x3A#6 1) State.reset) = some (.select, [0xFA#8, 0xC2#8], .asserted) := by decide

/-- B8, B12; B8 and B10 under `wrap`. -/
theorem test_read_burst_overflow :
    finished (exec (.readBurst 0x3F#6 25) State.reset) = some (.done, .err (.burstAddressOverflow 25), .released) ∧
      finished (exec (.readBurst 0x08#6 31) State.reset) = some (.done, .err (.burstAddressOverflow 31), .released) ∧
      (nextOf (exec (.readBurst 0x3F#6 25) wrapping)).map (fun s => (s.txbuf.length, s.txbuf[25]?)) =
        some (26, some 0xC7#8) ∧
      (nextOf (exec (.readBurst 0x00#6 32) wrapping)).map (fun s => (s.txbuf.length, s.txbuf[32]?)) =
        some (33, some 0xC0#8) := by decide

/-- W1, W6, W5, B5 presented by their wire layouts. -/
theorem test_wire_write_single :
    started (exec (.wireWriteSingle 0x06#6 0x40#8) State.reset) = some (.select, [0x06#8, 0x40#8], .asserted) := by decide

theorem test_wire_write_burst :
    started (exec (.wireWriteBurst 0x3E#6 [0xC0#8, 0x00#8]) State.reset) =
      some (.select, [0x7E#8, 0xC0#8, 0x00#8], .asserted) := by decide

theorem test_wire_read_single :
    started (exec (.wireReadSingle 0x00#6) State.reset) = some (.select, [0x80#8, 0x00#8], .asserted) := by decide

theorem test_wire_read_burst :
    started (exec (.wireReadBurst 0x35#6 1) State.reset) = some (.select, [0xF5#8, 0xFD#8], .asserted) := by decide

set_option maxRecDepth 20000 in
/-- F2. -/
theorem test_frame_tx :
    finished (exec (.frameTx [false, true, false, true, true, true, false, false] 0x1234#16) State.reset) =
      some (.done, .okFrame (List.replicate 61 0xAA#8 ++ [0x12#8, 0x34#8, 0x5C#8]) 64, .released) := by decide

set_option maxRecDepth 20000 in
/-- F6, F8, F9. -/
theorem test_frame_tx_rejects :
    finished (exec (.frameTx [true, false, true, true] 0xD391#16) State.reset) =
        some (.done, .err (.frameNotByteAligned 4), .released) ∧
      finished (exec (.frameTx (List.replicate 495 false) 0xD391#16) State.reset) =
        some (.done, .err (.frameNotByteAligned 495), .released) ∧
      finished (exec (.frameTx (List.replicate 497 false) 0xD391#16) State.reset) =
        some (.done, .err (.frameOverflow 497), .released) := by decide

/-- D1, D2. -/
theorem test_decode_rx :
    finished (exec (.decodeRx [0x0F#8, 0xA5#8, 0x01#8]) State.reset) =
        some (.done, .okBits [true, false, true, false, false, true, false, true,
          false, false, false, false, false, false, false, true], .released) ∧
      finished (exec (.decodeRx [0x00#8]) State.reset) = some (.done, .okBits [], .released) := by decide

/-- D3. -/
theorem test_decode_rx_empty : finished (exec (.decodeRx []) State.reset) = some (.done, .err .emptyBurst, .released) := by
  decide

/-- X1. -/
theorem test_reserved_7 : finished (exec .reserved7 State.reset) = some (.done, .err .illegalCommand, .released) := by decide

/-- X10. -/
theorem test_busy_not_accepted : nextOf (exec .sNop (reading [] [])) = some (reading [] []) := by decide

/-! The sequencer: program P5, and the results of R101. -/

/-- P5, step 4. -/
theorem test_second_exchange :
    (nextOf (step (reading [0x0F#8] [some 0x40#8]))).map (fun s => (s.phase, s.idx, s.rxbuf, s.sel)) =
      some (.release, 2, [0x0F#8, 0x40#8], .asserted) := by decide

/-- P5, step 5; W5: the first byte is dropped. -/
theorem test_release_read_single :
    finished (step (releasing (.readSingle 0x00#6) [0xAB#8, 0xCD#8])) = some (.done, .okByte 0xCD#8, .released) := by decide

/-- K19, W1, W6, B15. -/
theorem test_release_results :
    finished (step (releasing (.strobe 0x3D#6) [0x0F#8, 0x1F#8])) = some (.done, .okBytes [0x0F#8, 0x1F#8], .released) ∧
      finished (step (releasing (.writeSingle 0x06#6 0x40#8) [0x0F#8, 0x0F#8])) = some (.done, .okNone, .released) ∧
      finished (step (releasing (.writeBurst 0x3F#6 []) [0x0F#8])) = some (.done, .okNone, .released) ∧
      finished (step (releasing (.readBurst 0x3F#6 4) [0x0F#8, 0xD3#8, 0x91#8, 0xA5#8, 0x01#8])) =
        some (.done, .okBytes [0x0F#8, 0xD3#8, 0x91#8, 0xA5#8, 0x01#8], .released) := by decide

/-- X7: the bus fails on the second byte. -/
theorem test_transport_failure :
    finished (step (reading [0x0F#8] [none])) = some (.release, .err .transportFailure, .asserted) := by decide

/-- Z2: a reset in `XFER`; nothing is said of the buffers. -/
theorem test_reset_in_xfer :
    (nextOf (step { reading [0x0F#8] [] with rst := [true] })).map (fun s => (s.phase, s.sel, s.bus, s.rst)) =
      some (.idle, .released, [.select, .exchange 0x86#8 0x0F#8, .release], []) := by decide

/-- Z1. -/
theorem test_reset_outputs :
    (busy State.reset, errOut State.reset, cmdReady State.reset, resValid State.reset) = (false, false, true, false) := by
  decide

/-! The HOST. -/

/-- M1 to M8. -/
theorem test_masks :
    [0x01#8, 0x0D#8, 0x21#8, 0xED#8, 0x13#8].map marcState = [0x01#8, 0x0D#8, 0x01#8, 0x0D#8, 0x13#8] ∧
      [0x40#8, 0x80#8, 0xA0#8].map txPending = [64#8, 0#8, 32#8] := by decide

/-- Q1, Q7, Q8, Q9. -/
theorem test_frequency_words :
    frequencyWord defaultParams 433920000 0 = some 0x10B071#24 ∧
      frequencyWord defaultParams 6655999801 0 = some 0xFFFFFF#24 ∧
      frequencyWord defaultParams 6655999802 0 = none ∧
      frequencyWord defaultParams 433920000 50000 = some 0x10B0EF#24 := by decide

/-- Q1's three bytes. -/
theorem test_frequency_bytes :
    [FreqByte.high, .middle, .low].map (freqByte 0x10B071#24) = [0x10#8, 0xB0#8, 0x71#8] := by decide

/-- Q1 with R181: each byte once, in the order of the parameters. -/
theorem test_frequency_rows :
    freqRows ⟨0x0D#6, 0x0E#6, 0x0F#6, .lowHighMiddle⟩ 0x10B071#24 =
      [(0x0F#6, 0x71#8), (0x0D#6, 0x10#8), (0x0E#6, 0xB0#8)] := by decide

/-- R182, with D391 as the sync word of the framer's vectors. -/
theorem test_sync_rows :
    syncRows ⟨0x04#6, 0x05#6, true⟩ 0xD391#16 = [(0x04#6, 0xD3#8), (0x05#6, 0x91#8)] ∧
      syncRows ⟨0x04#6, 0x05#6, false⟩ 0xD391#16 = [(0x05#6, 0x91#8), (0x04#6, 0xD3#8)] := by decide

/-- R184, R185: the two registers' commands are chosen apart. -/
theorem test_status_reads :
    readStateCommand { defaultParams with marcstateRead := .single } = .readSingle 0x35#6 ∧
      readTxBytesCommand { defaultParams with marcstateRead := .single } = .readBurst 0x3A#6 1 := by decide

/-- R188: every state name is met. -/
theorem test_host_phases :
    [[], [.command .sCal], [.command (.strobe 0x33#6)], [.pollPin true 1], [.pollPin false 1], [.loadFrame],
        [.pollDrained 1]].map (fun ops => hostPhase { HostState.start with ops := ops }) =
      [.idle, .calibrating, .calibrating, .rxWait, .rxReceiving, .txLoading, .txSending] ∧
      hostPhase { HostState.start with reports := [.success] } = .done := by decide

/-- R95, D31: the HOST's single write of 0 to a strobe's number is presented as WRITE_SINGLE. -/
theorem test_host_presents_write_to_strobe_number :
    (nextOf (step (hosting [.command (.wireWriteSingle 0x36#6 0x00#8)]))).map (fun s => s.port) =
      some (some ⟨.cmd, [0x01#8, 0x36#8, 0x00#8]⟩) := by decide

/-- D4: a length above the bound is not presented, and the HOST goes on. -/
theorem test_host_cannot_present :
    (nextOf (step (hosting [.readPacket 256]))).map (fun s => (s.port, s.host.ops, s.host.reports)) =
      some (none, [], [.notPresentable (.readBurst 0x3F#6 256)]) := by decide

/-- R239: after a failed row SET_FREQUENCY is not begun; a recovery is. -/
theorem test_withheld :
    (nextOf (step (queueing .needsReset [.setFrequency 433920000 0]))).map (fun s => (s.host.ops, s.host.reports)) =
        some ([], [.withheld (.setFrequency 433920000 0)]) ∧
      (nextOf (step (queueing .needsReset [.recover []]))).map (fun s => (s.host.ops, s.host.reports)) =
        some ([.loader .sReset, .configDone none], []) := by decide

/-- R183, R239: `S_RESET` and then the whole table end the doubt. -/
theorem test_recovery :
    (trustAfterSuccess (.loader .sReset) .needsReset, trustAfterTable .needsTable) = (.needsTable, .trusted) ∧
      trustAfterFailure (.configWrite 0x03#6 0x47#8) .needsTable = .needsReset := by decide

/-- A HOST at rest without doubt, everything prepared, with a profile for each mode, of which `mode`'s is in force. -/
def inMode (mode : Option RadioMode) (queue : List HostSeq) : State :=
  { State.reset with
    host := { HostState.start with
      queue := queue, mode := mode, profiles := ⟨[(0x02#6, 0x06#8)], [(0x02#6, 0x2E#8)]⟩,
      prepared := ⟨true, true, true, true, true⟩ } }

/-- The same HOST with a preparation that is not complete. -/
def unprepared (prep : Preparation) (queue : List HostSeq) : State :=
  { inMode (some .rx) queue with host := { (inMode (some .rx) queue).host with prepared := prep } }

/-- R236: a change of mode applies the profile again, and the path waits for it; under its own profile it begins. -/
theorem test_mode_change :
    (nextOf (step (inMode (some .rx) [.txPath [] 0xD391#16]))).map (fun s => (s.host.queue, s.host.ops)) =
        some ([.txPath [] 0xD391#16], [.configWrite 0x02#6 0x2E#8, .configDone (some .tx)]) ∧
      (nextOf (step (inMode none [.rxPath 4]))).map (fun s => (s.host.queue, s.host.ops.head?)) =
        some ([.rxPath 4], some (.configWrite 0x02#6 0x06#8)) ∧
      (nextOf (step (inMode (some .rx) [.rxPath 4]))).map (fun s => (s.host.queue, s.host.ops.head?)) =
        some ([], some (.quiet .sIdle)) := by decide

/-- R235, R236: a profile applied whole puts its mode in force; `S_RESET` (R232) and a partial table (R180) end that. -/
theorem test_mode_in_force :
    (modeAfterTable (some .rx) (some .tx), modeAfterTable none (some .tx)) = (some .rx, some .tx) ∧
      (modeAfterSuccess (.command .sReset) (some .tx), modeAfterSuccess (.quiet .sTx) (some .tx)) =
        (none, some .tx) ∧
      modeAfterFailure (.configWrite 0x03#6 0x47#8) (some .tx) = none := by decide

/-- R235: a known state and the profile come first. -/
theorem test_start_up :
    (startUp .rx 433920000 0 0xD391#16 0x3D#8 (.replicate 8 0xC0#8)).head? = some (.recoverProfile .rx) ∧
      (nextOf (step (inMode none [.recoverProfile .rx]))).map (fun s => s.host.ops) =
        some [.loader .sReset, .configWrite 0x02#6 0x06#8, .configDone (some .rx)] := by decide

/-- R235: only after every step of the preparation may a path come. -/
theorem test_unprepared_path_withheld :
    [Preparation.mk false true true true true, .mk true false true true true, .mk true true false true true,
        .mk true true true false true, .mk true true true true false].map
        (fun prep => (nextOf (step (unprepared prep [.rxPath 4]))).map fun s => (s.host.ops, s.host.reports)) =
      .replicate 5 (some ([], [.withheld (.rxPath 4)])) := by decide

/-- R235, R232: `S_RESET` comes first, then the three parameters and the power-ramp table; another `S_RESET` undoes
them. -/
theorem test_preparation :
    [LinkPart.frequency, .syncWord, .packetLength, .powerRamp].foldl (fun prep part => preparedAfterPart part prep)
        (preparedAfterSuccess (.loader .sReset) .nothing) = ⟨true, true, true, true, true⟩ ∧
      preparedAfterSuccess (.command (.strobe 0x30#6)) ⟨true, true, true, true, true⟩ =
        ⟨true, false, false, false, false⟩ ∧
      preparedAfterSuccess (.quiet .sTx) ⟨true, true, true, true, true⟩ = ⟨true, true, true, true, true⟩ ∧
      preparedAfterFailure (.command .sReset) ⟨true, true, true, true, true⟩ = .nothing := by decide

/-- R236: the pin speaks of packets under the RX profile only. -/
theorem test_pin_meaning :
    [some RadioMode.rx, some .tx, none].map (fun m => pinMeansPacket (inMode m []).host) = [true, false, false] := by
  decide

/-- R237, R95, R251: neither an `S_RESET`, nor a write that puts a strobe's bytes on the bus, nor a path whose profile
holds such a write is vouched for. -/
theorem test_vouched :
    vouchedOrdering defaultParams ⟨[], []⟩ (.recover []) = false ∧
      vouchedOrdering defaultParams ⟨[], []⟩ (.command (.writeSingle 0x36#6 0x00#8)) = false ∧
      vouchedOrdering defaultParams ⟨[], []⟩ (.command .sNop) = false ∧
      [HostSeq.rxPath 4, .txPath [] 0xD391#16].map (vouchedOrdering defaultParams ⟨[], [(0x36#6, 0x00#8)]⟩) =
        [true, false] ∧
      vouchedOrdering defaultParams ⟨[], []⟩ (.command (.writeSingle 0x06#6 0x40#8)) = true := by decide

/-- R245: a read is bounded by what the FIFO contains, a write by what it holds. -/
theorem test_within_fifo :
    withinFifo defaultParams 4 (.readBurst 0x3F#6 5) = false ∧ withinFifo defaultParams 4 (.readBurst 0x3F#6 4) = true ∧
      withinFifo defaultParams 4 (.writeBurst 0x3F#6 (List.replicate 64 0xAA#8)) = true := by decide

/-- X11: the second write fails. -/
theorem test_config_failure :
    (nextOf (step (resultFor (.err .transportFailure) [.configWrite 0x03#6 0x47#8, .configWrite 0x04#6 0xD3#8]))).map
        (fun s => (s.host.ops, s.host.reports)) =
      some ([], [.failed .partialConfigFailure]) := by decide

/-- X12: the third read still answers RX; the poll then has no read left. -/
theorem test_poll_last_read :
    (nextOf (step (resultFor (.okBytes [0x0F#8, 0x0D#8]) [.pollIdle 1, .report .success]))).map (fun s => s.host.ops) =
      some [.pollIdle 0, .report .success] := by decide

theorem test_poll_timeout :
    (nextOf (step (hosting [.pollIdle 0, .report .success]))).map (fun s => (s.host.ops, s.host.reports)) =
      some ([], [.failed .protocolTimeout]) := by decide

/-- P2 variant (a): three bytes are left. -/
theorem test_residual_bytes :
    (nextOf (step (resultFor (.okByte 0x03#8) [.verifyDrained]))).map (fun s => s.host.reports) =
      some [.residualBytes 0x03#8] := by decide

/-- P2 line 2 and P3 line 7: the commands the HOST presents. -/
theorem test_path_commands :
    hostCommand defaultParams { HostState.start with frameLen := 64 } .writePacketLength =
        some (.writeSingle 0x06#6 0x40#8) ∧
      hostCommand defaultParams HostState.start (.readPacket 4) = some (.readBurst 0x3F#6 4) := by decide

/-- R14. -/
theorem test_mem_access :
    memWrite 0x06#6 [0x40#8] = .writeSingle 0x06#6 0x40#8 ∧
      memWrite 0x3E#6 [0xC0#8, 0x00#8] = .writeBurst 0x3E#6 [0xC0#8, 0x00#8] ∧
      memRead 0x06#6 1 = .readSingle 0x06#6 ∧ memRead 0x3F#6 4 = .readBurst 0x3F#6 4 ∧
      memReadBytes (.okBytes [0x0F#8, 0xD3#8]) = some [0xD3#8] := by decide

/-! Witnesses: for every statement with hypotheses, states and operands that meet all of them together, clause by clause
at the ends of the ranges. -/

/-- A state on which `n` exchanges are answered by `0x0F`. -/
def answering (n : Nat) : State :=
  scripted (List.replicate n (some 0x0F#8))

/-- A bus command with the wire bytes `tx` whose exchanges are all answered. -/
def meetsRun (pre : State → Prop) (tx : List Byte) : Prop :=
  ∃ (s : State) (rx : List Byte) (rest : List (Option Byte)), s.phase = .idle ∧ pre s ∧ rx.length = tx.length ∧
    s.answers = rx.map some ++ rest ∧ NoReset (tx.length + 2) s

theorem meetsRun_intro (pre : State → Prop) (tx : List Byte) (h : pre (answering tx.length)) : meetsRun pre tx :=
  ⟨answering tx.length, List.replicate tx.length 0x0F#8, [], rfl, h, by simp, by simp [answering, scripted],
    by simp [NoReset, answering, scripted, State.reset]⟩

theorem witness_HeaderByteIsAddressOrMode : encodeHeader 0x3F#6 .readBurst = encodeHeader 0x3F#6 .readBurst := rfl

theorem witness_DecodeReadsEncodedInstruction :
    (Instr.writeBurst 0x3F#6 (List.replicate 255 0xFF#8)).wf = true ∧ (Instr.wireReadBurst 0x3F#6 255).wf = true ∧
      (Instr.frameTx (List.replicate 65535 false) 0xFFFF#16).wf = true ∧
      (Instr.decodeRx (List.replicate 256 0x00#8)).wf = true ∧ (Instr.wireWriteSingle 0x2F#6 0x00#8).wf = true ∧
      (Instr.wireWriteSingle 0x30#6 0x01#8).wf = true := by
  simp only [Instr.wf, List.length_replicate]; decide

theorem witness_DecodedWordIsTheInstructionsWord :
    decode ⟨.cmd, [0x02#8, 0x3F#8]⟩ = .instr (.readSingle 0x3F#6) ∧
      decode ⟨.hdr, [0x3D#8, 0x00#8]⟩ = .instr .sNop := by decide

theorem witness_StrobeAndZeroWriteShareWireBytes :
    ∃ (first last : Addr) (s : State), s.phase = .idle ∧ (0x30 ≤ first.toNat ∧ first.toNat ≤ 0x3D) ∧
      first.toNat = 0x30 ∧ (0x30 ≤ last.toNat ∧ last.toNat ≤ 0x3D) ∧ last.toNat = 0x3D :=
  ⟨0x30#6, 0x3D#6, State.reset, by decide⟩

theorem witness_ResetStateIsIdleAndReleased :
    ∃ s : State, AtRest s ∧ s.port ≠ none ∧ s.rxbuf ≠ State.reset.rxbuf :=
  ⟨{ presented ⟨.hdr, [0x3D#8, 0x00#8]⟩ with rxbuf := [0x0F#8] }, ⟨rfl, rfl⟩, by decide, by decide⟩

theorem witness_ResetInputReturnsBlockToIdle :
    (rstAsserted { reading [] [] with rst := [true] } = true ∧ (reading [] []).sel = .asserted) ∧
      (rstAsserted { State.reset with rst := [true, false] } = true ∧ State.reset.sel = .released) := by decide

theorem witness_StepRunsPresentedInstruction :
    ∃ (s : State) (w : PortWord) (i : Instr), s.phase = .idle ∧ rstAsserted s = false ∧ s.port = some w ∧
      decode w = .instr i :=
  ⟨presented ⟨.hdr, [0x3D#8, 0x00#8]⟩, ⟨.hdr, [0x3D#8, 0x00#8]⟩, .sNop, by decide⟩

theorem witness_StepRefusesUndecodableWord :
    ∃ (s : State) (w : PortWord) (e : DecodeError), s.phase = .idle ∧ rstAsserted s = false ∧ s.port = some w ∧
      decode w = .rejected e :=
  ⟨presented ⟨.cmd, []⟩, ⟨.cmd, []⟩, .empty, by decide⟩

theorem witness_CommandNotAcceptedWhileBusy :
    ∃ s t : State, s.phase ≠ .idle ∧ step s = .next t :=
  ⟨reading [0x0F#8] [some 0x40#8], _, by decide, rfl⟩

theorem witness_SequencerStepsByPhase_select :
    ∃ s : State, rstAsserted s = false ∧ s.phase = .select :=
  ⟨{ reading [] [] with phase := .select }, by decide⟩

theorem witness_SequencerStepsByPhase_xfer :
    ∃ (s : State) (b r : Byte), rstAsserted s = false ∧ s.phase = .xfer ∧ s.txbuf[s.idx]? = some b ∧
      chipAnswers b s = some r :=
  ⟨reading [0x0F#8] [some 0x40#8], 0x00#8, 0x40#8, by decide⟩

theorem witness_SequencerStepsByPhase_broken :
    ∃ (s : State) (b : Byte), rstAsserted s = false ∧ s.phase = .xfer ∧ s.sel = .asserted ∧
      s.txbuf[s.idx]? = some b ∧ chipAnswers b s = none :=
  ⟨reading [] [none], 0x86#8, by decide⟩

theorem witness_SequencerStepsByPhase_release :
    (∃ (s : State) (f : Failure), rstAsserted s = false ∧ s.phase = .release ∧ s.result = .err f) ∧
      ∃ (s : State) (r : Result), rstAsserted s = false ∧ s.phase = .release ∧ isErr s.result = false ∧
        busResult s.op s.rxbuf = some r :=
  ⟨⟨{ reading [] [] with phase := .release, result := .err .transportFailure }, .transportFailure, by decide⟩,
    ⟨releasing (.readSingle 0x06#6) [0x0F#8, 0x40#8], .okByte 0x40#8, by decide⟩⟩

theorem witness_TakenResultLeavesNoFailure :
    ∃ s : State, s.phase = .done ∧ rstAsserted s = false :=
  ⟨resultFor .okNone [], by decide⟩

theorem witness_SequencerAgreesWithTransact :
    ∃ (i : Instr) (s t : State), s.phase = .idle ∧ exec i s = .next t ∧ t.phase = .select ∧
      NoReset (t.txbuf.length + 2) s :=
  ⟨.sNop, State.reset, _, rfl, rfl, rfl, by simp [NoReset, State.reset]⟩

theorem witness_SequencerAgreesWithTransact_both :
    (transact [0x3D#8, 0x00#8] (answering 2)).1 = some [0x0F#8, 0x0F#8] ∧
      (transact [0x3D#8, 0x00#8] (scripted [some 0x0F#8, none])).1 = none := by decide

theorem witness_OneSelectWindowPerTransaction :
    ∃ (i : Instr) (s t : State), s.phase = .idle ∧ exec i s = .next t ∧ t.phase = .select ∧
      NoReset (t.txbuf.length + 2) s :=
  ⟨.wireReadBurst 0x07#6 0, State.reset, _, rfl, rfl, rfl, by simp [NoReset, State.reset]⟩

theorem witness_EveryCommandEndsInBoundedSteps :
    ∃ (i j : Instr) (s t u : State), AtRest s ∧ exec i s = .next t ∧ exec j s = .next u ∧
      NoReset (((acceptedLayout s.params i.command).map List.length).getD 0 + 2) s ∧
      NoReset (((acceptedLayout s.params j.command).map List.length).getD 0 + 2) s :=
  ⟨.sNop, .reserved7, State.reset, _, _, ⟨rfl, rfl⟩, rfl, rfl, by simp [NoReset, State.reset],
    by simp [NoReset, State.reset]⟩

theorem witness_TransportFailureEndsTheCommand :
    ∃ (i : Instr) (s t : State) (rx : List Byte) (rest : List (Option Byte)), s.phase = .idle ∧ exec i s = .next t ∧
      t.phase = .select ∧ rx.length < t.txbuf.length ∧ s.answers = rx.map some ++ none :: rest ∧
      NoReset (rx.length + 3) s :=
  ⟨.writeSingle 0x06#6 0x40#8, scripted [some 0x0F#8, none], _, [0x0F#8], [], rfl, rfl, rfl, by decide, rfl,
    by simp [NoReset, scripted, State.reset]⟩

/-- A state in the middle of a transaction that keeps the invariant. -/
theorem reading_inv (answers : List (Option Byte)) : FramerInv (reading [0x0F#8] answers) := by
  simp [FramerInv, SelFollowsPhase, OnWire, wireLayout, reading, State.reset]

theorem witness_StepKeepsFramerInvariant : ∃ s t : State, FramerInv s ∧ step s = .next t :=
  ⟨reading [0x0F#8] [some 0x40#8], _, reading_inv _, rfl⟩

theorem witness_InvariantRulesOutFaults : ∃ s : State, FramerInv s :=
  ⟨_, reading_inv []⟩

theorem witness_SelectFollowsPhaseThroughEveryStep : ∃ s t : State, SelFollowsPhase s ∧ step s = .next t :=
  ⟨reading [0x0F#8] [some 0x40#8], _, (reading_inv _).1, rfl⟩

theorem witness_TransmitBufferFixedDuringTransaction :
    ∃ s t : State, rstAsserted s = false ∧ (s.phase = .select ∨ s.phase = .xfer ∨ s.phase = .release) ∧
      step s = .next t :=
  ⟨reading [0x0F#8] [some 0x40#8], _, by decide, by decide, rfl⟩

theorem witness_ParametersNeverChange : ∃ s t : State, step s = .next t :=
  ⟨State.reset, _, rfl⟩

theorem witness_BusHistoryOnlyGrows : ∃ s t : State, step s = .next t ∧ s.phase ≠ .xfer ∧ t.bus ≠ s.bus :=
  ⟨presented ⟨.hdr, [0x3D#8, 0x00#8]⟩, _, rfl, by decide, by decide⟩

theorem witness_NothingRetainedBetweenCommands :
    ∃ s t : State, AtRest s ∧ visible s = visible t ∧ s ≠ t :=
  ⟨State.reset, { State.reset with rxbuf := [0x0F#8], idx := 1, result := .err .emptyBurst, op := .decodeRx [] },
    ⟨rfl, rfl⟩, by decide, by decide⟩

theorem witness_PinNeverReachesTheFramer :
    (∃ s t : State, s.phase ≠ .idle ∧ step s = .next t) ∧ (∃ s t : State, s.port.isSome = true ∧ step s = .next t) ∧
      ∃ s t : State, rstAsserted s = true ∧ step s = .next t :=
  ⟨⟨reading [0x0F#8] [some 0x40#8], _, by decide, rfl⟩, ⟨presented ⟨.hdr, [0x3D#8, 0x00#8]⟩, _, rfl, rfl⟩,
    ⟨{ State.reset with rst := [true] }, _, by decide, rfl⟩⟩

theorem witness_StrobeSendsCodeAndFiller :
    (0x30 ≤ (0x30#6).toNat ∧ (0x30#6).toNat ≤ 0x3D ∧ meetsRun (fun _ => True) [0x30#8, 0x00#8]) ∧
      (0x30 ≤ (0x3D#6).toNat ∧ (0x3D#6).toNat ≤ 0x3D ∧ meetsRun (fun _ => True) [0x3D#8, 0x00#8]) :=
  ⟨⟨by decide, by decide, meetsRun_intro _ _ trivial⟩, ⟨by decide, by decide, meetsRun_intro _ _ trivial⟩⟩

theorem witness_IllegalStrobeIsRejected :
    AtRest State.reset ∧ ((0x2F#6).toNat < 0x30 ∨ 0x3D < (0x2F#6).toNat) ∧
      ((0x3E#6).toNat < 0x30 ∨ 0x3D < (0x3E#6).toNat) ∧ (0x30 ≤ (0x30#6).toNat ∧ (0x30#6).toNat ≤ 0x3D) ∧
      (0x30 ≤ (0x3D#6).toNat ∧ (0x3D#6).toNat ≤ 0x3D) :=
  ⟨⟨rfl, rfl⟩, by decide, by decide, by decide, by decide⟩

theorem witness_NamedStrobesResetToIdle :
    meetsRun (fun _ => True) [0x30#8, 0x00#8] ∧ meetsRun (fun _ => True) [0x36#8, 0x00#8] :=
  ⟨meetsRun_intro _ _ trivial, meetsRun_intro _ _ trivial⟩

theorem witness_NamedStrobes37ToNop :
    meetsRun (fun _ => True) [0x37#8, 0x00#8] ∧ meetsRun (fun _ => True) [0x3D#8, 0x00#8] :=
  ⟨meetsRun_intro _ _ trivial, meetsRun_intro _ _ trivial⟩

theorem witness_WriteSingleSendsAddressAndValue : meetsRun (fun _ => True) [(0x3F#6).setWidth 8, 0xFF#8] :=
  meetsRun_intro _ _ trivial

theorem witness_ReadSingleReturnsSecondByte : meetsRun (fun _ => True) [(0x3F#6).setWidth 8 ||| 0x80#8, 0x00#8] :=
  meetsRun_intro _ _ trivial

theorem witness_WriteBurstSendsHeaderAndData :
    meetsRun (fun _ => True) [(0x3F#6).setWidth 8 ||| 0x40#8] ∧
      meetsRun (fun _ => True) (((0x3F#6).setWidth 8 ||| 0x40#8) :: List.replicate 255 0xFF#8) :=
  ⟨meetsRun_intro _ _ trivial, meetsRun_intro _ _ trivial⟩

theorem witness_ReadBurstSendsAddressBytes :
    ((0x3F#6).toNat + 8 * 24 = 255 ∧
        meetsRun (fun _ => True)
          ((List.range 25).map fun k => BitVec.ofNat 8 ((0x3F#6).toNat + 8 * k) ||| 0xC0#8)) ∧
      ((0x00#6).toNat + 8 * 0 ≤ 255 ∧
        meetsRun (fun _ => True)
          ((List.range 1).map fun k => BitVec.ofNat 8 ((0x00#6).toNat + 8 * k) ||| 0xC0#8)) :=
  ⟨⟨by decide, meetsRun_intro _ _ trivial⟩, ⟨by decide, meetsRun_intro _ _ trivial⟩⟩

theorem witness_ReadBurstWrapsWhereItMay :
    ∃ (s : State) (rx : List Byte) (rest : List (Option Byte)), s.phase = .idle ∧
      s.params.burstAddrOverflow = .wrap ∧ rx.length = 33 ∧ s.answers = rx.map some ++ rest ∧ NoReset 35 s :=
  ⟨{ wrapping with answers := (List.replicate 33 0x0F#8).map some }, List.replicate 33 0x0F#8, [], rfl, rfl,
    List.length_replicate, by simp, by simp [NoReset, wrapping, State.reset]⟩

theorem witness_BurstAddressOverflowIsRejected :
    AtRest State.reset ∧ AtRest wrapping ∧ 255 < (0x00#6).toNat + 8 * 32 ∧
      State.reset.params.burstAddrOverflow = .fault ∧ wrapping.params.burstAddrOverflow = .wrap ∧
      ∃ t, exec (.readBurst 0x00#6 32) wrapping = .next t :=
  ⟨⟨rfl, rfl⟩, ⟨rfl, rfl⟩, by decide, rfl, rfl, _, rfl⟩

theorem witness_BurstAddressSequence :
    (∃ s t : State, s.phase = .idle ∧ exec (.readBurst 0x3F#6 24) s = .next t ∧ t.phase = .select ∧
        (0x3F#6).toNat + 8 * 24 ≤ 255) ∧
      ∃ s t : State, s.phase = .idle ∧ exec (.readBurst 0x3F#6 25) s = .next t ∧ t.phase = .select ∧
        ¬(0x3F#6).toNat + 8 * 25 ≤ 255 :=
  ⟨⟨State.reset, _, rfl, rfl, rfl, by decide⟩, ⟨wrapping, _, rfl, rfl, rfl, by decide⟩⟩

theorem witness_LongestBurstFromAnAddress :
    AtRest State.reset ∧ State.reset.params.burstAddrOverflow = .fault :=
  ⟨⟨rfl, rfl⟩, rfl⟩

theorem witness_FrameTxBuildsTheFrame :
    State.reset.phase = .idle ∧ ([] : List Bit).length ≤ 496 ∧ ([] : List Bit).length % 8 = 0 ∧
      (List.replicate 496 true).length ≤ 496 ∧ (List.replicate 496 true).length % 8 = 0 := by
  simp only [List.length_replicate]; decide

theorem witness_FrameByteLayout :
    State.reset.phase = .idle ∧ (List.replicate 488 true).length ≤ 496 ∧ (List.replicate 488 true).length % 8 = 0 ∧
      0 < (496 - (List.replicate 488 true).length) / 8 ∧ 60 < (List.replicate 488 true).length / 8 := by
  simp only [List.length_replicate]; decide

theorem witness_FrameOverflowIsRejectedFirst :
    AtRest State.reset ∧ 496 < (List.replicate 497 false).length :=
  ⟨⟨rfl, rfl⟩, by rw [List.length_replicate]; decide⟩

theorem witness_FrameNotByteAlignedIsRejected :
    AtRest State.reset ∧ (List.replicate 495 false).length ≤ 496 ∧ (List.replicate 495 false).length % 8 ≠ 0 :=
  ⟨⟨rfl, rfl⟩, by rw [List.length_replicate]; decide, by rw [List.length_replicate]; decide⟩

theorem witness_DecodeRxReturnsTheBits : State.reset.phase = .idle := rfl

theorem witness_EmptyBurstIsRejected : AtRest State.reset := ⟨rfl, rfl⟩

theorem witness_FrameRoundTrip :
    State.reset.phase = .idle ∧ (scripted [none]).phase = .idle ∧ (List.replicate 80 true).length ≤ 496 ∧
      (List.replicate 80 true).length % 8 = 0 := by
  simp only [List.length_replicate]; decide

theorem witness_ReservedCommandFailsAtOnce : AtRest State.reset := ⟨rfl, rfl⟩

theorem witness_FailureCodesAsNumbered : isErr (.okBytes []) = false := rfl

theorem witness_OperandCheckFailureIsPrecise :
    ∃ (i : Instr) (s t : State) (f : Failure), AtRest s ∧ exec i s = .next t ∧ t.result = .err f :=
  ⟨.strobe 0x2F#6, State.reset, _, .illegalStrobe 0x2F#6, ⟨rfl, rfl⟩, rfl, rfl⟩

theorem witness_HostTurnLeavesTheBlockAlone :
    ∃ s : State, s.phase = .idle ∧ s.port = none ∧ rstAsserted s = false ∧ s.host.ops ≠ [] :=
  ⟨hosting [.quiet .sIdle], rfl, rfl, by decide, by decide⟩

theorem witness_FailedConfigRowEndsTheTable :
    ∃ (s : State) (addr : Addr) (value : Byte) (rest : List HostOp) (f : Failure), s.phase = .done ∧
      rstAsserted s = false ∧ s.result = .err f ∧ s.host.waiting = true ∧
      s.host.ops = .configWrite addr value :: rest :=
  ⟨resultFor (.err .transportFailure) [.configWrite 0x03#6 0x47#8], 0x03#6, 0x47#8, [], .transportFailure, by decide⟩

theorem witness_HostsCommandIsRun :
    (∃ (s : State) (op : HostOp) (rest : List HostOp) (i : Instr), s.phase = .idle ∧ s.port = none ∧
        s.host.waiting = false ∧ s.host.ops = op :: rest ∧ hostCommand s.params s.host op = some i ∧
        i.command.wf = true ∧ NoReset 2 s) ∧
      ∃ (s : State) (op : HostOp) (rest : List HostOp) (i : Instr), s.phase = .idle ∧ s.port = none ∧
        s.host.waiting = false ∧ s.host.ops = op :: rest ∧ hostCommand s.params s.host op = some i ∧
        i.command.wf = false ∧ NoReset 1 s :=
  ⟨⟨hosting [.readPacket 255], .readPacket 255, [], .readBurst 0x3F#6 255, rfl, rfl, rfl, rfl, rfl, by decide,
      by simp [NoReset, hosting, State.reset]⟩,
    ⟨hosting [.readPacket 256], .readPacket 256, [], .readBurst 0x3F#6 256, rfl, rfl, rfl, rfl, rfl, by decide,
      by simp [NoReset, hosting, State.reset]⟩⟩

theorem witness_SequencesBeginAsDoubtAndPreparationAllow :
    (∀ x ∈ [queueing .needsReset [.waitIdle], queueing .needsReset [.recoverProfile .rx],
          queueing .needsTable [.applyConfig []], inMode (some .rx) [.rxPath 4], inMode (some .rx) [.waitIdle],
          inMode (some .rx) [.txPath [] 0xD391#16], unprepared .nothing [.rxPath 4]],
        x.phase = .idle ∧ x.port = none ∧ rstAsserted x = false ∧ x.host.waiting = false ∧ x.host.ops = [] ∧
          x.host.queue ≠ []) ∧
      (queueing .needsReset [.waitIdle]).host.trust = .needsReset ∧
      (queueing .needsTable [.applyConfig []]).host.trust = .needsTable ∧
      (∀ mode, IsPathOf mode (.rxPath 4) → (inMode (some .rx) [.rxPath 4]).host.mode = some mode ∧
        (inMode (some .rx) [.rxPath 4]).host.prepared = ⟨true, true, true, true, true⟩) ∧
      (∀ mode, ¬IsPathOf mode .waitIdle) ∧
      IsPathOf .tx (.txPath [] 0xD391#16) ∧ (inMode (some .rx) [.txPath [] 0xD391#16]).host.mode ≠ some .tx ∧
      (inMode (some .rx) [.txPath [] 0xD391#16]).host.prepared = ⟨true, true, true, true, true⟩ ∧
      IsPathOf .rx (.rxPath 4) ∧ (unprepared .nothing [.rxPath 4]).host.prepared ≠ ⟨true, true, true, true, true⟩ := by
  refine ⟨by decide, rfl, rfl, ?_, ?_, .inr ⟨rfl, _, _, rfl⟩, by decide, rfl, .inl ⟨rfl, _, rfl⟩, by decide⟩
  · rintro mode (⟨rfl, -⟩ | ⟨-, _, _, h⟩)
    · exact ⟨rfl, rfl⟩
    · cases h
  · rintro mode (⟨-, _, h⟩ | ⟨-, _, _, h⟩) <;> cases h

theorem witness_StepKeepsHostObligations :
    (∃ s t : State, s.host.trust = .needsReset ∧ s.host.ops ≠ [] ∧ DoubtInv s ∧ step s = .next t) ∧
      (∃ s t : State, .readPacket 4 ∈ s.host.ops ∧ PathInv s ∧ step s = .next t) ∧
      ∀ op, op = HostOp.command (.strobe 0x30#6) ∨ op = .loader .sReset →
        ∃ (h : HostState) (r : Result) (rest : List HostOp) (i : Instr), h.waiting = true ∧ h.ops = op :: rest ∧
          (op = .command i ∨ op = .loader i) ∧ i.command = .strobe 0x30#6 ∧ isErr r = false :=
  ⟨⟨{ resultFor .okNone [] with
        host := { HostState.start with
          waiting := true, ops := [.loader .sReset, .configDone none], trust := .needsReset } },
      _, rfl, by decide, .inr (.inr ⟨none, [], rfl⟩), rfl⟩,
    ⟨{ inMode (some .rx) [] with host := { (inMode (some .rx) []).host with ops := [.readPacket 4] } }, _, by decide,
      .inr ⟨.rx, rfl, rfl, by decide⟩, rfl⟩, by
    rintro op (rfl | rfl)
    · exact ⟨{ HostState.start with waiting := true, ops := [.command (.strobe 0x30#6)] }, .okBytes [], [],
        .strobe 0x30#6, rfl, rfl, .inl rfl, rfl, rfl⟩
    · exact ⟨{ HostState.start with waiting := true, ops := [.loader .sReset] }, .okBytes [], [], .sReset, rfl, rfl,
        .inr rfl, rfl, rfl⟩⟩

theorem witness_VouchedSequencesSendNoStrobe :
    (∃ (p : Params) (profiles : Profiles) (q : HostSeq) (op : HostOp) (h : HostState) (i : Instr) (b : Byte)
        (tx : List Byte), vouchedOrdering p profiles q = true ∧ (∀ mode, ¬IsPathOf mode q) ∧ q ≠ .readState ∧
        q ≠ .readTxBytes ∧ op ∈ expand p profiles q ∧ hostCommand p h op = some i ∧
        wireLayout i.command = some (b :: tx) ∧ b.toNat % 64 = 0x3E) ∧
      ∃ (p : Params) (profiles : Profiles) (q : HostSeq) (op : HostOp) (h : HostState) (i : Instr) (b : Byte)
        (tx : List Byte), vouchedOrdering p profiles q = true ∧ IsPathOf .tx q ∧
        op ∈ expand p profiles (.applyProfile .tx) ∧ hostCommand p h op = some i ∧
        wireLayout i.command = some (b :: tx) ∧ b.toNat % 64 = 0x2F :=
  ⟨⟨defaultParams, ⟨[], []⟩, .command (.writeSingle 0x3E#6 0xC0#8), .command (.writeSingle 0x3E#6 0xC0#8),
      HostState.start, .writeSingle 0x3E#6 0xC0#8, 0x3E#8, [0xC0#8], by decide,
      by (rintro mode (⟨-, _, h⟩ | ⟨-, _, _, h⟩) <;> cases h), by decide, by decide, by decide, rfl, by decide,
      by decide⟩,
    ⟨defaultParams, ⟨[], [(0x2F#6, 0x00#8)]⟩, .txPath [] 0xD391#16, .configWrite 0x2F#6 0x00#8, HostState.start,
      .writeSingle 0x2F#6 0x00#8, 0x2F#8, [0x00#8], by decide, .inr ⟨rfl, _, _, rfl⟩, by decide, rfl, by decide,
      by decide⟩⟩

/-- A HOST in no doubt about to begin a sequence, whose `n` exchanges are all answered. -/
def beginning (q : HostSeq) (n : Nat) : State :=
  { answering n with host := { HostState.start with queue := [q] } }

theorem witness_SetFrequencyWritesEachByteOnce :
    (∃ (s : State) (w : BitVec 24) (rx : List Byte) (rest : List (Option Byte)), AtRest s ∧ s.port = none ∧
        s.host.waiting = false ∧ s.host.ops = [] ∧ s.host.trust = .trusted ∧
        s.host.queue = [.setFrequency 6655999801 0] ∧ frequencyWord s.params 6655999801 0 = some w ∧
        s.answers = rx.map some ++ rest ∧ rx.length = 6 ∧ NoReset 23 s) ∧
      ∃ s : State, AtRest s ∧ s.port = none ∧ s.host.waiting = false ∧ s.host.ops = [] ∧ s.host.trust = .trusted ∧
        s.host.queue = [.setFrequency 6655999802 0] ∧ frequencyWord s.params 6655999802 0 = none ∧ NoReset 2 s :=
  ⟨⟨beginning (.setFrequency 6655999801 0) 6, 0xFFFFFF#24, List.replicate 6 0x0F#8, [], ⟨rfl, rfl⟩, rfl, rfl, rfl, rfl,
      rfl, by decide, rfl, rfl, by simp [NoReset, beginning, answering, scripted, State.reset]⟩,
    ⟨beginning (.setFrequency 6655999802 0) 0, ⟨rfl, rfl⟩, rfl, rfl, rfl, rfl, rfl, by decide,
      by simp [NoReset, beginning, answering, scripted, State.reset]⟩⟩

/-- What LinkParametersAreWritten assumes of a sequence with `n` exchanges. -/
theorem beginning_meets (q : HostSeq) (n : Nat) :
    AtRest (beginning q n) ∧ (beginning q n).port = none ∧ (beginning q n).host.waiting = false ∧
      (beginning q n).host.ops = [] ∧ (beginning q n).host.trust = .trusted ∧ (beginning q n).host.queue = [q] ∧
      (beginning q n).answers = (List.replicate n 0x0F#8).map some ++ [] ∧ NoReset 16 (beginning q n) :=
  ⟨⟨rfl, rfl⟩, rfl, rfl, rfl, rfl, rfl, by simp [beginning, answering, scripted],
    by simp [NoReset, beginning, answering, scripted, State.reset]⟩

theorem witness_LinkParametersAreWritten :
    ∀ q n, (q, n) ∈ [(HostSeq.setSyncWord 0xD391#16, 4), (.setPacketLength 0xFF#8, 2),
        (.loadPowerRamp (.replicate 8 0xC0#8), 9)] →
      ∃ (s : State) (queue : List HostSeq) (rx : List Byte) (rest : List (Option Byte)), AtRest s ∧ s.port = none ∧
        s.host.waiting = false ∧ s.host.ops = [] ∧ s.host.trust = .trusted ∧ s.host.queue = q :: queue ∧
        s.answers = rx.map some ++ rest ∧ NoReset 16 s ∧ rx.length = n := by
  intro q n _
  obtain ⟨h1, h2, h3, h4, h5, h6, h7, h8⟩ := beginning_meets q n
  exact ⟨_, [], List.replicate n 0x0F#8, [], h1, h2, h3, h4, h5, h6, h7, h8, List.length_replicate⟩

theorem witness_ApplyConfigWritesTheTableInOrder :
    (∃ (s : State) (table : List (Addr × Byte)) (queue : List HostSeq) (rx : List Byte) (rest : List (Option Byte)),
        AtRest s ∧ s.port = none ∧ s.host.waiting = false ∧ s.host.ops = [] ∧
        s.host.queue = .applyConfig table :: queue ∧ s.host.trust ≠ .needsReset ∧ s.answers = rx.map some ++ rest ∧
        rx.length = 2 * table.length ∧ NoReset (7 * table.length + 2) s ∧ 1 < table.length) ∧
      ∀ q, (q = .applyProfile .tx ∨ IsPathOf .tx q) →
        ∃ (s : State) (table : List (Addr × Byte)) (rx : List Byte) (rest : List (Option Byte)),
          AtRest s ∧ s.port = none ∧ s.host.waiting = false ∧ s.host.ops = [] ∧ s.host.queue = [q] ∧
          s.host.trust = .trusted ∧ s.host.prepared = ⟨true, true, true, true, true⟩ ∧ s.host.mode ≠ some .tx ∧ table = profileFor s.host.profiles .tx ∧ table ≠ [] ∧
          s.answers = rx.map some ++ rest ∧ rx.length = 2 * table.length ∧ NoReset (7 * table.length + 2) s :=
  ⟨⟨{ answering 4 with
        host := { HostState.start with queue := [.applyConfig [(0x02#6, 0x06#8), (0x06#6, 0x40#8)], .waitIdle] } },
      [(0x02#6, 0x06#8), (0x06#6, 0x40#8)], [.waitIdle], List.replicate 4 0x0F#8, [], ⟨rfl, rfl⟩, rfl, rfl, rfl, rfl,
      by decide, rfl, rfl, by simp [NoReset, answering, scripted, State.reset], by decide⟩,
    fun q _ => ⟨{ inMode (some .rx) [q] with answers := [some 0x0F#8, some 0x0F#8] }, [(0x02#6, 0x2E#8)],
      [0x0F#8, 0x0F#8], [], ⟨rfl, rfl⟩, rfl, rfl, rfl, rfl, rfl, rfl, by simp [inMode], rfl, by decide, rfl, rfl,
      by simp [NoReset, inMode, State.reset]⟩⟩

theorem witness_PollsAreBounded_exhausted :
    ∃ (s : State) (op : HostOp) (rest : List HostOp), s.phase = .idle ∧ s.port = none ∧ rstAsserted s = false ∧
      s.host.waiting = false ∧ s.host.ops = op :: rest ∧
      (op = .pollIdle 0 ∨ op = .pollDrained 0 ∨ op = .pollPin true 0 ∨ op = .pollPin false 0) :=
  ⟨hosting [.pollIdle 0], .pollIdle 0, [], by decide⟩

theorem witness_PollsAreBounded_read :
    ∃ (r : Result) (h k : HostState) (v : Byte), h.waiting = true ∧ k.waiting = true ∧ isErr r = false ∧
      statusValue r = some v ∧ h.ops = .pollIdle (0 + 1) :: [] ∧ k.ops = .pollDrained (0 + 1) :: [] ∧
      v.toNat % 32 = 1 ∧ v.toNat % 128 ≠ 0 :=
  ⟨.okByte 0x21#8, { HostState.start with waiting := true, ops := [.pollIdle 1] },
    { HostState.start with waiting := true, ops := [.pollDrained 1] }, 0x21#8, by decide⟩

theorem witness_PollsAreBounded_pin :
    ∃ (s : State) (level seen : Bool) (rest : List HostOp) (levels : List Bool), s.phase = .idle ∧ s.port = none ∧
      rstAsserted s = false ∧ s.host.waiting = false ∧ s.host.ops = .pollPin level (0 + 1) :: rest ∧
      s.pinLevels = seen :: levels ∧ seen ≠ level :=
  ⟨{ hosting [.pollPin true 1] with pinLevels := [false] }, true, false, [], [], by decide⟩

theorem witness_TxPathSendsNothingForARejectedPayload :
    ∃ (s : State) (payload : List Bit) (sync : SyncWord) (queue : List HostSeq), AtRest s ∧ s.port = none ∧
      s.host.waiting = false ∧ s.host.ops = [] ∧ s.host.trust = .trusted ∧ s.host.mode = some .tx ∧
      s.host.prepared = ⟨true, true, true, true, true⟩ ∧
      s.host.queue = .txPath payload sync :: queue ∧
      payload.length ≤ 65535 ∧ payloadAccepted payload = false ∧ NoReset 4 s :=
  ⟨inMode (some .tx) [.txPath [true, false, true, true] 0xD391#16],
    [true, false, true, true], 0xD391#16, [], ⟨rfl, rfl⟩, rfl, rfl, rfl, rfl, rfl, rfl, rfl, by decide, by decide,
    by simp [NoReset, inMode, State.reset]⟩

theorem witness_FrequencyWordIsNearest :
    0 < defaultParams.crystalHz ∧ frequencyWord defaultParams 6655999801 0 = some 0xFFFFFF#24 ∧
      frequencyWord defaultParams 6655999802 0 = none ∧ frequencyWord defaultParams 0 (-1) = none := by decide

end Sys2Proof.Tests
end

