-- ==== Sys2Proof/Proofs/Scope.lean ====
section
/-! SUPPORT. The statements of the family spec/00_scope.md: no step changes a parameter (R7, R41), and the HOST's own
turn leaves the block and the bus alone (R9, R194, R210). -/

namespace Sys2Proof.Machine

/-! The parameters, one lemma for each part of a step. -/

@[simp] theorem commandEffect_params (c : Command) (s : State) : (commandEffect c s).params = s.params := by
  obtain ⟨_, -, h⟩ | ⟨_, -, -, h⟩ | ⟨_, _, -, -, -, h⟩ := commandEffect_cases c s
  · rw [h, startTransaction_params]
  · rw [h, raise_params, latch_params]
  · rw [h, complete_params, setBits_params, latch_params]

theorem exec_params {i : Instr} {s t : State} (h : exec i s = .next t) : t.params = s.params := by
  by_cases hp : s.phase = .idle
  · rw [exec_idle i hp] at h
    cases h
    exact commandEffect_params i.command s
  · rw [exec_eq_accept, accept_busy hp] at h
    cases h
    rfl

theorem xferStep_params {s t : State} (h : xferStep s = .next t) : t.params = s.params := by
  obtain ⟨b, -, ⟨r, -, rfl⟩ | ⟨-, rfl⟩⟩ := xferStep_cases h
  · rw [recordExchange_params, dropAnswer_params]
  · rw [raise_params, recordBroken_params, dropAnswer_params]

theorem releaseStep_params {s t : State} (h : releaseStep s = .next t) : t.params = s.params := by
  obtain ⟨-, rfl⟩ | ⟨-, r, -, rfl⟩ := releaseStep_cases h
  · exact releaseSelect_params s
  · rw [complete_params, releaseSelect_params]

@[simp] theorem hostTurn_params (s : State) : (hostTurn s).params = s.params := by
  obtain ⟨-, -, -, -, -, -, -, -, -, -, -, hparams⟩ := hostTurn_frame s
  exact hparams

/-- A step keeps the parameters, whichever of its cases it is. -/
theorem step_params {s t : State} (h : step s = .next t) : t.params = s.params := by
  obtain ⟨-, rfl⟩ | ⟨-, ⟨-, w, i, -, -, hexec⟩ | ⟨-, -, rfl⟩ | ⟨-, rfl⟩ | ⟨-, hxfer⟩ | ⟨-, hrelease⟩ | ⟨-, rfl⟩⟩ :=
    step_cases h
  · simp
  · simpa using exec_params hexec
  · simp
  · exact tick_params s
  · simpa using xferStep_params hxfer
  · simpa using releaseStep_params hrelease
  · simp

/-- Settles O23, by the cases of a step. -/
theorem parametersNeverChange : Obligations.ParametersNeverChange :=
  fun _ _ h => step_params h

/-! The HOST's own turn. -/

/-- In `IDLE` with nothing presented and `rst` released, the step is the HOST's turn (log 12). -/
theorem step_hostTurn {s : State} (hphase : s.phase = .idle) (hport : s.port = none)
    (hrst : rstAsserted s = false) : step s = .next (hostTurn (tick s)) := by
  rw [step_of_released hrst, hphase]
  simp [idleStep, fetchWord, hport]

/-- Settles O49: the step is `hostTurn`, whose frame is everything but the HOST, the port, the pin and the counter. -/
theorem hostTurnLeavesTheBlockAlone : Obligations.HostTurnLeavesTheBlockAlone := by
  intro s hphase hport hrst
  obtain ⟨hphase', hsel, hidx, htxbuf, hrxbuf, hbitbuf, hresult, hop, -, hanswers, hbus, hparams⟩ :=
    hostTurn_frame (tick s)
  exact ⟨hostTurn (tick s), step_hostTurn hphase hport hrst, hphase'.trans hphase, hsel, hidx, htxbuf, hrxbuf, hbitbuf,
    hresult, hop, hanswers, hbus, hparams⟩

end Sys2Proof.Machine
end

