-- ==== Sys2Proof/Proofs/State.lean ====
section
/-! SUPPORT. The statements of the family spec/10_state.md: reset, the select signal, the FRAMER's invariant, what an
instruction leaves alone, and what cannot be observed (the leftovers between two commands, the pin). Before them, what
the decoder reads from the command port, and the wire layout and results of a bus command. -/

namespace Sys2Proof.Machine

open Sys2Proof.Config
open Sys2Proof.Safety

/-! What the decoder reads from the command port (R7, R86). -/

/-- What `decodeCmd` reads keeps the bounds of R7. -/
theorem decodeCmd_wf {bytes : List Byte} {i : Instr} (h : decodeCmd bytes = .instr i) : i.wf = true := by
  unfold decodeCmd at h
  split at h
  · cases h
  · rename_i rest
    split at h
    · obtain ⟨c, -, hc⟩ := oneByte_instr h
      obtain ⟨code, -, hcode⟩ := sixBits_instr hc
      cases hcode
      rfl
    · obtain ⟨a, v, -, ha⟩ := twoBytes_instr h
      obtain ⟨addr, -, haddr⟩ := sixBits_instr ha
      cases haddr
      rfl
    · obtain ⟨a, -, ha⟩ := oneByte_instr h
      obtain ⟨addr, -, haddr⟩ := sixBits_instr ha
      cases haddr
      rfl
    · unfold decodeWriteBurst at h
      split at h
      · rename_i n data
        obtain ⟨addr, -, haddr⟩ := sixBits_instr h
        obtain ⟨hlen, hdata⟩ := exactly_instr haddr
        cases hdata
        have := n.isLt
        simp only [Instr.wf, maxWBurst, decide_eq_true_eq]
        omega
      · cases h
    · obtain ⟨a, n, -, ha⟩ := twoBytes_instr h
      obtain ⟨addr, -, haddr⟩ := sixBits_instr ha
      cases haddr
      have := n.isLt
      simp only [Instr.wf, maxRBurst, decide_eq_true_eq]
      omega
    · unfold decodeFrameTx at h
      split at h
      · rename_i lh ll packed
        obtain ⟨-, hbits⟩ := exactly_instr h
        split at hbits
        · cases hbits
        · cases hbits
          have := word16_lt lh ll
          simp only [Instr.wf, maxPayloadBits, decide_eq_true_eq, List.length_take]
          omega
      · cases h
    · unfold decodeDecodeRx at h
      split at h
      · split at h
        · cases h
        · obtain ⟨hlen, hraw⟩ := exactly_instr h
          cases hraw
          simp only [Instr.wf, decide_eq_true_eq]
          omega
      · cases h
    · split at h
      · cases h
        rfl
      · cases h
    · cases h

/-- What `decodeHdr` reads keeps the bounds of R7, and is no single write with a strobe's two bytes. -/
theorem decodeHdr_wf {bytes : List Byte} {i : Instr} (h : decodeHdr bytes = .instr i) : i.wf = true := by
  unfold decodeHdr at h
  split at h
  · cases h
  · split at h
    · obtain ⟨value, -, hvalue⟩ := oneByte_instr h
      unfold decodeSingleWrite at hvalue
      split at hvalue
      · split at hvalue
        · rename_i j hname
          cases hvalue
          exact (namedStrobe_word hname).1
        · rename_i hname
          cases hvalue
          simp [Instr.wf, (namedStrobe_none_iff _).mp hname]
      · rename_i hfiller
        cases hvalue
        simp [Instr.wf, hfiller]
    · split at h
      · cases h
      · rename_i hlen
        cases h
        simp only [Instr.wf, decide_eq_true_eq]
        omega
    · obtain ⟨f, -, hf⟩ := oneByte_instr h
      split at hf
      · cases hf
        rfl
      · cases hf
    · split at h
      · cases h
      · rename_i hlen
        split at h
        · cases h
          simp only [Instr.wf, decide_eq_true_eq]
          omega
        · cases h

/-- A decoded instruction is well formed. -/
theorem decode_wf {w : PortWord} {i : Instr} (h : decode w = .instr i) : i.wf = true := by
  unfold decode at h
  split at h
  · exact decodeCmd_wf h
  · exact decodeHdr_wf h

/-- The command of a well-formed instruction can be presented at the command port. -/
theorem command_wf_of_wf {i : Instr} (h : i.wf = true) : i.command.wf = true := by
  cases i with
  | wireWriteBurst | wireReadBurst | writeBurst | readBurst | frameTx | decodeRx => exact h
  | _ => rfl

/-- A word of format CMD is read from its `op` on. -/
theorem decode_cmdWord (op : Nat) (operands : List Byte) :
    decode (cmdWord op operands) = decodeCmd (BitVec.ofNat 8 op :: operands) := rfl

/-- The word the HOST presents for a command within the bounds of R7 is read as that command. -/
theorem decode_encode_portInstr {c : Command} (h : c.wf = true) :
    decode (encode (portInstr c)) = .instr (portInstr c) := by
  cases c with
  | strobe | readSingle => simp [portInstr, encode, decode_cmdWord, decodeCmd, oneByte, sixBits_addrByte]
  | writeSingle => simp [portInstr, encode, decode_cmdWord, decodeCmd, twoBytes, sixBits_addrByte]
  | writeBurst addr data =>
    have hlen : data.length = (lowByte data.length).toNat := by
      simp only [Command.wf, maxWBurst, decide_eq_true_eq] at h
      simp only [lowByte, BitVec.toNat_ofNat]
      omega
    simp [portInstr, encode, decode_cmdWord, decodeCmd, decodeWriteBurst, sixBits_addrByte, exactly_of_length hlen]
  | readBurst addr length =>
    have hlen : (lowByte length).toNat = length := by
      simp only [Command.wf, maxRBurst, decide_eq_true_eq] at h
      simp only [lowByte, BitVec.toNat_ofNat]
      omega
    simp [portInstr, encode, decode_cmdWord, decodeCmd, twoBytes, sixBits_addrByte, hlen]
  | frameTx payload sync =>
    have hlen : word16 (highByte payload.length) (lowByte payload.length) = payload.length := by
      simp only [Command.wf, maxPayloadBits, decide_eq_true_eq] at h
      exact word16_bytes (by omega)
    have hsync : word16 (highByte sync.toNat) (lowByte sync.toNat) = sync.toNat := word16_bytes sync.isLt
    simp [portInstr, encode, decode_cmdWord, decodeCmd, decodeFrameTx, hlen, hsync,
      exactly_of_length (packPayload_length payload), unpackBytes_packPayload]
  | decodeRx raw =>
    simp only [Command.wf, maxRaw, decide_eq_true_eq] at h
    have hlen : word16 (highByte raw.length) (lowByte raw.length) = raw.length := word16_bytes (by omega)
    simp [portInstr, encode, decode_cmdWord, decodeCmd, decodeDecodeRx, hlen, Nat.not_lt.mpr h,
      exactly_of_length (rfl : raw.length = raw.length)]
  | reserved7 => rfl

/-! The wire layout and the results of a bus command (R81 to R85, R101). -/

/-- Something is put on the wire. -/
theorem wireLayout_length_pos {c : Command} {tx : List Byte} (h : wireLayout c = some tx) : 0 < tx.length := by
  cases c with
  | strobe code =>
    simp only [wireLayout, Option.ite_none_right_eq_some, Option.some.injEq] at h
    simp [← h.2]
  | writeSingle | readSingle | writeBurst | readBurst =>
    cases h
    simp
  | frameTx | decodeRx | reserved7 => cases h

/-- A command within the bounds of R7 fits `TXBUF` (R24). -/
theorem wireLayout_length_le {c : Command} {tx : List Byte} (hwf : c.wf = true) (h : wireLayout c = some tx) :
    tx.length ≤ 256 := by
  cases c with
  | strobe code =>
    simp only [wireLayout, Option.ite_none_right_eq_some, Option.some.injEq] at h
    simp [← h.2]
  | writeSingle | readSingle =>
    cases h
    simp
  | writeBurst | readBurst =>
    cases h
    simp only [Command.wf, maxWBurst, maxRBurst, decide_eq_true_eq] at hwf
    simp only [List.length_cons, List.length_map, List.length_range]
    omega
  | frameTx | decodeRx | reserved7 => cases h

/-- Every bus command can end with TransportFailure (R201). -/
theorem resultFits_transportFailure {c : Command} {tx : List Byte} (h : wireLayout c = some tx) :
    resultFits c (.err .transportFailure) := by
  cases c with
  | strobe code =>
    simp only [wireLayout, Option.ite_none_right_eq_some] at h
    exact h.1
  | writeSingle | readSingle | writeBurst | readBurst => trivial
  | frameTx | decodeRx | reserved7 => cases h

/-- The result taken from as many responses as bytes were sent is one the command can have (R101). -/
theorem resultFits_busResult {c : Command} {tx rx : List Byte} {r : Result} (h : wireLayout c = some tx)
    (hlen : rx.length = tx.length) (hr : busResult c rx = some r) : resultFits c r := by
  cases c with
  | strobe code =>
    simp only [wireLayout, Option.ite_none_right_eq_some, Option.some.injEq] at h
    obtain ⟨⟨hlow, hhigh⟩, rfl⟩ := h
    cases hr
    exact ⟨hlow, hhigh, hlen⟩
  | writeSingle | writeBurst =>
    cases hr
    trivial
  | readSingle addr =>
    obtain ⟨b, -, rfl⟩ := Option.map_eq_some_iff.mp hr
    trivial
  | readBurst addr length =>
    cases h
    cases hr
    rw [List.length_map, List.length_range] at hlen
    exact hlen
  | frameTx | decodeRx | reserved7 => cases h

/-! The select signal (R22). -/

/-- In `IDLE` and `DONE` the select signal is released. -/
theorem released_of_selFollowsPhase {s : State} (h : SelFollowsPhase s) (hp : s.phase = .idle ∨ s.phase = .done) :
    s.sel = .released := by
  cases hsel : s.sel with
  | asserted =>
    have := h.mp hsel
    rcases hp with hp | hp <;> simp [hp] at this
  | released => rfl

/-- While bytes are exchanged the select signal is asserted. -/
theorem asserted_of_selFollowsPhase {s : State} (h : SelFollowsPhase s) (hp : s.phase = .xfer) : s.sel = .asserted :=
  h.mpr (.inr (.inl hp))

/-- `SelFollowsPhase` speaks of the phase and the select signal alone. -/
theorem selFollowsPhase_congr {s t : State} (hphase : t.phase = s.phase) (hsel : t.sel = s.sel) :
    SelFollowsPhase t ↔ SelFollowsPhase s := by
  rw [SelFollowsPhase, SelFollowsPhase, hphase, hsel]

/-- With the select signal released a failure keeps it so, in `DONE`. -/
theorem raise_phase_of_released {f : Failure} {s : State} (h : s.sel = .released) : (raise f s).phase = .done := by
  rw [raise_released f h]

/-- With the select signal asserted a failure goes to `RELEASE`. -/
theorem raise_phase_of_asserted {f : Failure} {s : State} (h : s.sel = .asserted) :
    (raise f s).phase = .release := by
  rw [raise_asserted f h]

theorem commandEffect_selFollowsPhase (c : Command) {s : State} (hsel : s.sel = .released) :
    SelFollowsPhase (commandEffect c s) := by
  obtain ⟨_, -, h⟩ | ⟨f, -, -, h⟩ | ⟨_, _, -, -, -, h⟩ := commandEffect_cases c s
  · simp [h, SelFollowsPhase]
  · simp [h, SelFollowsPhase, raise_phase_of_released, hsel]
  · simp [h, SelFollowsPhase, hsel]

theorem xferStep_selFollowsPhase {s t : State} (h : xferStep s = .next t) (hsel : s.sel = .asserted) :
    SelFollowsPhase t := by
  obtain ⟨b, -, ⟨r, -, rfl⟩ | ⟨-, rfl⟩⟩ := xferStep_cases h
  · simp only [SelFollowsPhase, recordExchange_sel, dropAnswer_sel, hsel, recordExchange_phase, true_iff]
    split <;> simp
  · simp [SelFollowsPhase, raise_phase_of_asserted, hsel]

theorem releaseStep_selFollowsPhase {s t : State} (h : releaseStep s = .next t) : SelFollowsPhase t := by
  obtain ⟨-, rfl⟩ | ⟨-, r, -, rfl⟩ := releaseStep_cases h
  · simp [SelFollowsPhase]
  · simp [SelFollowsPhase]

/-- A step keeps the select signal with the phase, whichever of its cases it is. -/
theorem step_selFollowsPhase {s t : State} (hs : SelFollowsPhase s) (h : step s = .next t) : SelFollowsPhase t := by
  obtain ⟨-, rfl⟩ | ⟨-, ⟨hp, w, i, -, -, hexec⟩ | ⟨hp, -, rfl⟩ | ⟨hp, rfl⟩ | ⟨hp, hxfer⟩ | ⟨hp, hrelease⟩ | ⟨hp, rfl⟩⟩ :=
    step_cases h
  · simp [SelFollowsPhase]
  · rw [exec_idle i (s := takePort (tick s)) hp] at hexec
    cases hexec
    exact commandEffect_selFollowsPhase _ (released_of_selFollowsPhase hs (.inl hp))
  · obtain ⟨hphase, hsel, -⟩ := hostTurn_frame (tick s)
    exact (selFollowsPhase_congr hphase hsel).mpr hs
  · simp [SelFollowsPhase, hs.mpr (.inl hp)]
  · exact xferStep_selFollowsPhase hxfer (asserted_of_selFollowsPhase hs hp)
  · exact releaseStep_selFollowsPhase hrelease
  · simp [SelFollowsPhase, released_of_selFollowsPhase hs (.inr hp)]

theorem reset_selFollowsPhase : SelFollowsPhase State.reset := by
  simp [SelFollowsPhase, State.reset]

/-- Settles O21, by the cases of a step. -/
theorem selectFollowsPhaseThroughEveryStep : Obligations.SelectFollowsPhaseThroughEveryStep :=
  ⟨reset_selFollowsPhase, fun _ _ => step_selFollowsPhase⟩

/-! The FRAMER's invariant, phase by phase. -/

theorem framerInv_idle {s : State} (hp : s.phase = .idle) : FramerInv s ↔ SelFollowsPhase s := by
  simp [FramerInv, hp]

theorem framerInv_select {s : State} (hp : s.phase = .select) :
    FramerInv s ↔ SelFollowsPhase s ∧ OnWire s ∧ s.idx = 0 ∧ s.rxbuf = [] ∧ s.result = .okNone := by
  simp [FramerInv, hp]

theorem framerInv_xfer {s : State} (hp : s.phase = .xfer) :
    FramerInv s ↔ SelFollowsPhase s ∧ OnWire s ∧ s.idx < s.txbuf.length ∧ s.rxbuf.length = s.idx ∧
      s.result = .okNone := by
  simp [FramerInv, hp]

theorem framerInv_release {s : State} (hp : s.phase = .release) :
    FramerInv s ↔ SelFollowsPhase s ∧ OnWire s ∧ (s.result = .err .transportFailure ∨
      (s.result = .okNone ∧ s.idx = s.txbuf.length ∧ s.rxbuf.length = s.txbuf.length)) := by
  simp [FramerInv, hp]

theorem framerInv_done {s : State} (hp : s.phase = .done) :
    FramerInv s ↔ SelFollowsPhase s ∧ resultFits s.op s.result := by
  simp [FramerInv, hp]

/-- The acceptance of a command that can be presented: a transaction begins with the command's wire layout, or the
result is one the command can have. -/
theorem commandEffect_framerInv {c : Command} (hwf : c.wf = true) {s : State} (hsel : s.sel = .released) :
    FramerInv (commandEffect c s) := by
  have hsel' := commandEffect_selFollowsPhase c hsel
  obtain ⟨tx, htx, h⟩ | ⟨f, hf, -, h⟩ | ⟨bits, r, hr, -, -, h⟩ := commandEffect_cases c s
  · rw [h] at hsel' ⊢
    exact (framerInv_select rfl).mpr ⟨hsel', ⟨htx, wireLayout_length_le hwf htx⟩, rfl, rfl, rfl⟩
  · rw [h] at hsel' ⊢
    exact (framerInv_done (raise_phase_of_released (s := latch c s) hsel)).mpr ⟨hsel', by simpa using hf⟩
  · rw [h] at hsel' ⊢
    exact (framerInv_done rfl).mpr ⟨hsel', hr⟩

/-- `SELECT` starts the exchange at the first byte, of which there is one. -/
theorem selectStep_framerInv {s : State} (hp : s.phase = .select) (hs : FramerInv s) :
    FramerInv { s with phase := .xfer } := by
  obtain ⟨hsel, ⟨hop, hlen⟩, hidx, hrx, hresult⟩ := (framerInv_select hp).mp hs
  refine (framerInv_xfer rfl).mpr ⟨?_, ⟨hop, hlen⟩, ?_, ?_, hresult⟩
  · simp [SelFollowsPhase, hsel.mpr (.inl hp)]
  · exact hidx ▸ wireLayout_length_pos hop
  · simp [hrx, hidx]

/-- An exchange adds one response; the last one, or a failure, ends in `RELEASE`. -/
theorem xferStep_framerInv {s t : State} (h : xferStep s = .next t) (hp : s.phase = .xfer) (hs : FramerInv s) :
    FramerInv t := by
  obtain ⟨hsel, hwire, hidx, hrx, hresult⟩ := (framerInv_xfer hp).mp hs
  have hasserted := asserted_of_selFollowsPhase hsel hp
  have hsel' := xferStep_selFollowsPhase h hasserted
  obtain ⟨b, -, ⟨r, -, rfl⟩ | ⟨-, rfl⟩⟩ := xferStep_cases h
  · by_cases hlast : s.idx + 1 = s.txbuf.length
    · refine (framerInv_release (by simp [hlast])).mpr ⟨hsel', hwire, .inr ⟨hresult, hlast, ?_⟩⟩
      simp [hrx, hlast]
    · refine (framerInv_xfer (by simp [hlast])).mpr ⟨hsel', hwire, ?_, ?_, hresult⟩
      · simp only [recordExchange_idx, recordExchange_txbuf, dropAnswer_idx, dropAnswer_txbuf]
        omega
      · simp [hrx]
  · refine (framerInv_release (raise_phase_of_asserted (s := recordBroken b (dropAnswer s)) hasserted)).mpr ⟨hsel', ?_, .inl (raise_result _ _)⟩
    simpa [OnWire] using hwire

/-- `RELEASE` leaves a result the latched command can have. -/
theorem releaseStep_framerInv {s t : State} (h : releaseStep s = .next t) (hp : s.phase = .release)
    (hs : FramerInv s) : FramerInv t := by
  obtain ⟨-, ⟨hop, -⟩, hresult⟩ := (framerInv_release hp).mp hs
  have hsel' := releaseStep_selFollowsPhase h
  obtain ⟨herr, rfl⟩ | ⟨herr, r, hr, rfl⟩ := releaseStep_cases h
  · refine (framerInv_done rfl).mpr ⟨hsel', ?_⟩
    obtain hfail | ⟨hok, -, -⟩ := hresult
    · simpa [hfail] using resultFits_transportFailure hop
    · simp [hok, isErr] at herr
  · refine (framerInv_done rfl).mpr ⟨hsel', ?_⟩
    obtain hfail | ⟨-, -, hrx⟩ := hresult
    · simp [hfail, isErr] at herr
    · exact resultFits_busResult hop hrx hr

/-- The invariant speaks of nothing the reset input's move changes. -/
theorem framerInv_tick {s : State} : FramerInv (tick s) ↔ FramerInv s := Iff.rfl

/-- Settles O18, by the cases of a step. -/
theorem stepKeepsFramerInvariant : Obligations.StepKeepsFramerInvariant := by
  intro s t hs h
  have hsel := hs.1
  have hsel' := step_selFollowsPhase hsel h
  rw [← framerInv_tick] at hs
  obtain ⟨-, rfl⟩ | ⟨-, ⟨hp, w, i, -, hdecode, hexec⟩ | ⟨hp, -, rfl⟩ | ⟨hp, rfl⟩ | ⟨hp, hxfer⟩ | ⟨hp, hrelease⟩ |
    ⟨-, rfl⟩⟩ := step_cases h
  · exact (framerInv_idle rfl).mpr hsel'
  · rw [exec_idle i (s := takePort (tick s)) hp] at hexec
    cases hexec
    exact commandEffect_framerInv (command_wf_of_wf (decode_wf hdecode)) (released_of_selFollowsPhase hsel (.inl hp))
  · obtain ⟨hphase, -⟩ := hostTurn_frame (tick s)
    exact (framerInv_idle (hphase.trans hp)).mpr hsel'
  · exact selectStep_framerInv hp hs
  · exact xferStep_framerInv hxfer hp hs
  · exact releaseStep_framerInv hrelease hp hs
  · exact (framerInv_idle rfl).mpr hsel'

/-- Settles O19: after reset the block is in `IDLE`, where the invariant asks for a released select signal alone. -/
theorem framerInvariantHoldsAtReset : Obligations.FramerInvariantHoldsAtReset :=
  (framerInv_idle rfl).mpr reset_selFollowsPhase

/-- Settles O22: `SELECT`, `XFER` and `RELEASE` write none of the three. -/
theorem transmitBufferFixedDuringTransaction : Obligations.TransmitBufferFixedDuringTransaction := by
  intro s t hrst hbusy h
  obtain ⟨hrst', -⟩ | ⟨-, ⟨hp, -⟩ | ⟨hp, -⟩ | ⟨-, rfl⟩ | ⟨-, hxfer⟩ | ⟨-, hrelease⟩ | ⟨hp, -⟩⟩ := step_cases h
  · simp [hrst] at hrst'
  · simp [hp] at hbusy
  · simp [hp] at hbusy
  · exact ⟨rfl, rfl, rfl⟩
  · obtain ⟨b, -, ⟨r, -, rfl⟩ | ⟨-, rfl⟩⟩ := xferStep_cases hxfer
    · simp
    · simp
  · obtain ⟨-, rfl⟩ | ⟨-, r, -, rfl⟩ := releaseStep_cases hrelease
    · simp
    · simp
  · simp [hp] at hbusy

/-! The reset input (R38, R230). -/

/-- With `rst` asserted a step is the reset, in any phase. -/
theorem step_of_reset {s : State} (h : rstAsserted s = true) : step s = .next (resetFramer (tick s)) := by
  unfold step
  exact if_pos h

/-- Settles O7: the step is `resetFramer`, whose fields are known one by one. -/
theorem resetInputReturnsBlockToIdle : Obligations.ResetInputReturnsBlockToIdle := by
  intro s h
  refine ⟨resetFramer (tick s), step_of_reset h, rfl, rfl, by simp [resultPort], by simp [busy], ?_, ?_, rfl, rfl, rfl,
    rfl, rfl, rfl⟩
  · intro hsel
    simp [resetFramer_bus, hsel]
  · intro hsel
    simp [resetFramer_bus, hsel]

/-! The step in each phase, with `rst` released (R116); the HOST's turn is `step_hostTurn`. -/

/-- In `IDLE` with `rst` released, a presented word that decodes is taken off the port and run. -/
theorem step_instr {s : State} {w : PortWord} {i : Instr} (hp : s.phase = .idle) (hrst : rstAsserted s = false)
    (hport : s.port = some w) (hdecode : decode w = .instr i) : step s = exec i (takePort (tick s)) := by
  rw [step_of_released hrst, hp]
  simp [idleStep, fetchWord, hport, hdecode]

/-- In `IDLE` with `rst` released, a presented word that does not decode is refused. -/
theorem step_undecodable {s : State} {w : PortWord} {e : DecodeError} (hp : s.phase = .idle)
    (hrst : rstAsserted s = false) (hport : s.port = some w) (hdecode : decode w = .rejected e) :
    step s = .refused (.undecodable e) := by
  rw [step_of_released hrst, hp]
  simp [idleStep, fetchWord, hport, hdecode]

theorem step_select {s : State} (hp : s.phase = .select) (hrst : rstAsserted s = false) :
    step s = .next { tick s with phase := .xfer } := by
  rw [step_of_released hrst, hp]
  rfl

theorem step_xfer {s : State} (hp : s.phase = .xfer) (hrst : rstAsserted s = false) :
    step s = xferStep (tick s) := by
  rw [step_of_released hrst, hp]

theorem step_release {s : State} (hp : s.phase = .release) (hrst : rstAsserted s = false) :
    step s = releaseStep (tick s) := by
  rw [step_of_released hrst, hp]

/-- In `DONE` with `rst` released the HOST takes the result and the block is idle. -/
theorem step_done {s : State} (hp : s.phase = .done) (hrst : rstAsserted s = false) :
    step s = .next (returnToIdle (setHost (hostTake s.result s.host) (tick s))) := by
  rw [step_of_released hrst, hp]
  rfl

/-! The presented word (R28, R115). -/

/-- Settles O8. -/
theorem stepRunsPresentedInstruction : Obligations.StepRunsPresentedInstruction :=
  fun _ _ _ hp hrst hport hdecode => step_instr hp hrst hport hdecode

/-- Outside `IDLE` no instruction is accepted. -/
theorem exec_busy (i : Instr) {s : State} (h : s.phase ≠ .idle) : exec i s = .next s := by
  rw [exec_eq_accept, accept_busy h]

/-- Outside `IDLE` a step leaves the presented word at the port (log 21). -/
theorem step_port_of_busy {s t : State} (hp : s.phase ≠ .idle) (h : step s = .next t) : t.port = s.port := by
  obtain ⟨-, rfl⟩ | ⟨-, ⟨hidle, -⟩ | ⟨hidle, -⟩ | ⟨-, rfl⟩ | ⟨-, hxfer⟩ | ⟨-, hrelease⟩ | ⟨-, rfl⟩⟩ := step_cases h
  · rfl
  · exact absurd hidle hp
  · exact absurd hidle hp
  · rfl
  · obtain ⟨b, -, ⟨r, -, rfl⟩ | ⟨-, rfl⟩⟩ := xferStep_cases hxfer
    · rfl
    · simp
  · obtain ⟨-, rfl⟩ | ⟨-, r, -, rfl⟩ := releaseStep_cases hrelease
    · rfl
    · rfl
  · rfl

/-- Settles O10. -/
theorem commandNotAcceptedWhileBusy : Obligations.CommandNotAcceptedWhileBusy :=
  fun _ hp => ⟨fun i => exec_busy i hp, by simp [cmdReady, hp], by simp [busy, hp], fun _ => step_port_of_busy hp⟩

/-! The frame of an instruction. -/

/-- FRAME_TX is presented in one format alone (R86). -/
theorem eq_frameTx_of_command {i : Instr} {payload : List Bit} {sync : SyncWord}
    (h : i.command = .frameTx payload sync) : i = .frameTx payload sync := by
  cases i with
  | frameTx => cases h; rfl
  | _ => cases h

/-- DECODE_RX is presented in one format alone (R86). -/
theorem eq_decodeRx_of_command {i : Instr} {raw : List Byte} (h : i.command = .decodeRx raw) : i = .decodeRx raw := by
  cases i with
  | decodeRx => cases h; rfl
  | _ => cases h

/-- Settles O11: outside `IDLE` nothing happens; in `IDLE` the command begins in one of three ways. -/
theorem everyInstructionAnswersWithItsFrame : Obligations.EveryInstructionAnswersWithItsFrame := by
  intro i s
  by_cases hp : s.phase = .idle
  · refine ⟨commandEffect i.command s, exec_idle i hp, ?_⟩
    obtain ⟨tx, -, h⟩ | ⟨f, -, -, h⟩ | ⟨bits, r, -, -, hbits, h⟩ := commandEffect_cases i.command s
    · rw [h]
      exact ⟨rfl, rfl, rfl, rfl, rfl, rfl, rfl, fun _ => rfl, .inl rfl, .inl ⟨rfl, hp, rfl⟩⟩
    · rw [h]
      simp
    · rw [h]
      refine ⟨rfl, rfl, rfl, rfl, rfl, rfl, rfl, fun _ => rfl, .inr ?_, .inr ⟨rfl, rfl, rfl, rfl, rfl⟩⟩
      obtain ⟨payload, sync, hc⟩ | ⟨raw, hc⟩ := hbits
      · exact .inl ⟨payload, sync, eq_frameTx_of_command hc⟩
      · exact .inr ⟨raw, eq_decodeRx_of_command hc⟩
  · exact ⟨s, exec_busy i hp, rfl, rfl, rfl, rfl, rfl, rfl, rfl, fun h => absurd h hp, .inl rfl,
      .inr ⟨rfl, rfl, rfl, rfl, rfl⟩⟩

/-! The result taken (R116, R215). -/

/-- What the line does with its result leaves the result noted as taken. -/
theorem afterResult_taken (op : HostOp) (r : Result) (h : HostState) : (afterResult op r h).taken = h.taken := by
  cases op <;> simp only [afterResult, pollAgain, addReport]
  case pollIdle | pollDrained => split <;> rfl
  case readState | readTxBytes | verifyDrained => cases statusValue r <;> rfl
  case frame | readPacket | decodePacket => cases r <;> rfl

/-- The HOST notes the result it takes, whatever it does with it. -/
theorem hostTake_taken (r : Result) (h : HostState) : (hostTake r h).taken = some r := by
  cases hw : h.waiting with
  | false => rw [hostTake_idle hw]
  | true =>
    cases ho : h.ops with
    | nil => simp [hostTake, hw, ho]
    | cons op rest =>
      cases r with
      | err f => rw [hostTake_err hw ho]
      | _ => rw [hostTake_ok hw ho rfl, afterResult_taken]

/-- Settles O13. -/
theorem takenResultLeavesNoFailure : Obligations.TakenResultLeavesNoFailure := by
  intro s hp hrst
  exact ⟨_, step_done hp hrst, rfl, by simp [busy], by simp [errOut], by simp [resultPort],
    hostTake_taken s.result s.host, rfl, rfl, rfl, rfl, rfl⟩

/-! The command of the HOST's line (R248, D31). -/

/-- At a line with a command the HOST presents it, or reports that it cannot be presented (log 12). -/
theorem hostTurn_command {s : State} {op : HostOp} {rest : List HostOp} {i : Instr} (hwait : s.host.waiting = false)
    (hops : s.host.ops = op :: rest) (hcmd : hostCommand s.params s.host op = some i) :
    hostTurn s = if i.command.wf then present i s else setHost (hostCannotPresent i s.host) s := by
  simp [hostTurn, hwait, hops, hcmd]

/-- A run of one step is the step. -/
theorem run_one (s : State) : run 1 s = step s := by
  unfold run
  cases step s <;> rfl

/-- Settles O51: the HOST's turn presents the command, and the next step decodes the word it presented. -/
theorem hostsCommandIsRun : Obligations.HostsCommandIsRun := by
  intro s op rest i hp hport hwait hops hcmd
  have hturn : hostTurn (tick s) = _ := hostTurn_command hwait hops hcmd
  refine ⟨fun hwf hnoReset => ?_, fun hwf hnoReset => ?_⟩
  · obtain ⟨hrst, hnoReset'⟩ := noReset_succ hnoReset
    obtain ⟨hrst', -⟩ := noReset_succ hnoReset'
    rw [hwf, if_pos rfl] at hturn
    have hfirst : step s = .next (present i (tick s)) := by rw [step_hostTurn hp hport hrst, hturn]
    have hstate : takePort (tick (present i (tick s))) =
        { s with rst := s.rst.drop 2, host := { s.host with waiting := true } } := by
      simp [takePort, tick, present, hport, ← List.drop_one]
    rw [run_succ_next hfirst, run_one, ← hstate,
      step_instr (s := present i (tick s)) hp hrst' rfl (decode_encode_portInstr hwf), exec_portInstr]
  · obtain ⟨hrst, -⟩ := noReset_succ hnoReset
    rw [hwf, if_neg Bool.false_ne_true] at hturn
    refine ⟨_, step_hostTurn hp hport hrst, ?_⟩
    rw [hturn]
    exact ⟨hp, hport, rfl, rfl, hwait, rfl, rfl⟩

/-! How a step answers when the state is changed where the step does not look. -/

/-- The answer with its next state changed. -/
def mapNext (f : State → State) : Answer → Answer
  | .next s => .next (f s)
  | .fault r => .fault r
  | .refused r => .refused r

@[simp] theorem mapNext_next (f : State → State) (s : State) : mapNext f (.next s) = .next (f s) := rfl

/-- The state with the bit buffer and the known pin levels changed, the two fields the sequencer never reads. -/
def changeUnread (onBits : List Bit → List Bit) (onPins : List Bool → List Bool) (s : State) : State :=
  { s with bitbuf := onBits s.bitbuf, pinLevels := onPins s.pinLevels }

/-- What a command does depends on the command and the parameters alone: it starts a transaction, fails, or completes
without the bus. -/
theorem commandEffect_uniform (c : Command) (p : Params) :
    (∃ tx, ∀ s, s.params = p → commandEffect c s = startTransaction c tx s) ∨
    (∃ f, ∀ s, s.params = p → commandEffect c s = raise f (latch c s)) ∨
    (∃ bits r, ∀ s, s.params = p → commandEffect c s = complete r (setBits bits (latch c s))) := by
  cases c with
  | strobe code =>
    by_cases h : isStrobeCode code = true
    · exact .inl ⟨_, fun _ _ => if_pos h⟩
    · exact .inr (.inl ⟨_, fun _ _ => if_neg h⟩)
  | writeSingle | readSingle | writeBurst => exact .inl ⟨_, fun _ _ => rfl⟩
  | readBurst addr length =>
    cases h : burstRejected p addr length with
    | true =>
      exact .inr (.inl ⟨.burstAddressOverflow length, fun s hs => by simp only [commandEffect, startReadBurst, hs, h]⟩)
    | false =>
      exact .inl ⟨burstBytes addr length, fun s hs => by simp only [commandEffect, startReadBurst, hs, h]⟩
  | frameTx payload sync =>
    by_cases hlong : frameOverflows payload.length = true
    · exact .inr (.inl ⟨_, fun _ _ => if_pos hlong⟩)
    · by_cases hpart : frameMisaligned payload.length = true
      · exact .inr (.inl ⟨_, fun _ _ => (if_neg hlong).trans (if_pos hpart)⟩)
      · exact .inr (.inr ⟨_, _, fun _ _ => (if_neg hlong).trans (if_neg hpart)⟩)
  | decodeRx raw =>
    by_cases h : raw.isEmpty = true
    · exact .inr (.inl ⟨_, fun _ _ => if_pos h⟩)
    · exact .inr (.inr ⟨_, _, fun _ _ => if_neg h⟩)
  | reserved7 => exact .inr (.inl ⟨_, fun _ _ => rfl⟩)

section Unread

variable (onBits : List Bit → List Bit) (onPins : List Bool → List Bool)

theorem raise_changeUnread (f : Failure) (s : State) :
    raise f (changeUnread onBits onPins s) = changeUnread onBits onPins (raise f s) := by
  cases hsel : s.sel with
  | asserted => rw [raise_asserted f (s := changeUnread onBits onPins s) hsel, raise_asserted f hsel]; rfl
  | released => rw [raise_released f (s := changeUnread onBits onPins s) hsel, raise_released f hsel]; rfl

theorem xferStep_changeUnread (s : State) :
    xferStep (changeUnread onBits onPins s) = mapNext (changeUnread onBits onPins) (xferStep s) := by
  cases hb : s.txbuf[s.idx]? with
  | none => simp [xferStep, changeUnread, hb, mapNext]
  | some b =>
    cases hr : chipAnswers b s with
    | some r =>
      rw [xferStep_ok (s := changeUnread onBits onPins s) hb hr, xferStep_ok hb hr]
      rfl
    | none =>
      rw [xferStep_fail (s := changeUnread onBits onPins s) hb hr, xferStep_fail hb hr, mapNext_next,
        ← raise_changeUnread]
      rfl

theorem releaseStep_changeUnread (s : State) :
    releaseStep (changeUnread onBits onPins s) = mapNext (changeUnread onBits onPins) (releaseStep s) := by
  cases herr : isErr s.result with
  | true => simp [releaseStep, changeUnread, herr, releaseSelect]
  | false =>
    cases hr : busResult s.op s.rxbuf with
    | some r => simp [releaseStep, changeUnread, herr, hr, releaseSelect, complete]
    | none => simp [releaseStep, changeUnread, herr, hr, mapNext]

/-- No step of a transaction depends on the bit buffer or the pin. -/
theorem step_changeUnread {s : State} (hrst : rstAsserted s = false)
    (hp : s.phase = .select ∨ s.phase = .xfer ∨ s.phase = .release) :
    step (changeUnread onBits onPins s) = mapNext (changeUnread onBits onPins) (step s) := by
  obtain hp | hp | hp := hp
  · rw [step_select hp hrst, step_select (s := changeUnread onBits onPins s) hp hrst]
    rfl
  · rw [step_xfer hp hrst, step_xfer (s := changeUnread onBits onPins s) hp hrst]
    exact xferStep_changeUnread onBits onPins (tick s)
  · rw [step_release hp hrst, step_release (s := changeUnread onBits onPins s) hp hrst]
    exact releaseStep_changeUnread onBits onPins (tick s)

end Unread

/-! The pin (R36, R211). -/

/-- The state with other known levels of the pin. -/
def setPins (levels : List Bool) (s : State) : State :=
  { s with pinLevels := levels }

theorem setPins_eq_changeUnread (levels : List Bool) :
    setPins levels = changeUnread id (fun _ => levels) := rfl

theorem commandEffect_setPins (c : Command) (levels : List Bool) (s : State) :
    commandEffect c (setPins levels s) = setPins levels (commandEffect c s) := by
  obtain ⟨tx, h⟩ | ⟨f, h⟩ | ⟨bits, r, h⟩ := commandEffect_uniform c s.params
  · rw [h s rfl, h (setPins levels s) rfl]
    rfl
  · rw [h s rfl, h (setPins levels s) rfl, setPins_eq_changeUnread, ← raise_changeUnread]
    rfl
  · rw [h s rfl, h (setPins levels s) rfl]
    rfl

/-- Outside the HOST's own turn a step with other levels of the pin is the same step. -/
theorem step_setPins {s t : State} (levels : List Bool)
    (hs : s.phase ≠ .idle ∨ s.port.isSome = true ∨ rstAsserted s = true) (h : step s = .next t) :
    step (setPins levels s) = .next (setPins levels t) := by
  have htransfer (hrst : rstAsserted s = false) (hp : s.phase = .select ∨ s.phase = .xfer ∨ s.phase = .release) :
      step (setPins levels s) = .next (setPins levels t) := by
    rw [setPins_eq_changeUnread, step_changeUnread _ _ hrst hp, h, mapNext_next]
  obtain ⟨hrst, rfl⟩ | ⟨hrst, ⟨hp, w, i, hport, hdecode, hexec⟩ | ⟨hp, hport, -⟩ | ⟨hp, -⟩ | ⟨hp, -⟩ | ⟨hp, -⟩ |
    ⟨hp, rfl⟩⟩ := step_cases h
  · exact step_of_reset hrst
  · rw [exec_idle i (s := takePort (tick s)) hp] at hexec
    cases hexec
    rw [step_instr (s := setPins levels s) hp hrst hport hdecode, ← commandEffect_setPins]
    exact exec_idle i hp
  · simp [hp, hport, hrst] at hs
  · exact htransfer hrst (.inl hp)
  · exact htransfer hrst (.inr (.inl hp))
  · exact htransfer hrst (.inr (.inr hp))
  · exact step_done (s := setPins levels s) hp hrst

/-- Settles O26. -/
theorem pinNeverReachesTheFramer : Obligations.PinNeverReachesTheFramer :=
  fun _ _ levels hs h => step_setPins levels hs h

/-! What is left over between two commands (R20, R29, R39). -/

/-- What the buffers, the index, the result and the operand latch hold. -/
def leftovers (s : State) : Leftovers where
  idx := s.idx
  txbuf := s.txbuf
  rxbuf := s.rxbuf
  bitbuf := s.bitbuf
  result := s.result
  op := s.op

/-- The state with other contents there. -/
def withLeftovers (l : Leftovers) (s : State) : State :=
  { s with idx := l.idx, txbuf := l.txbuf, rxbuf := l.rxbuf, bitbuf := l.bitbuf, result := l.result, op := l.op }

/-- Two states that show the same differ in their leftovers alone. -/
theorem eq_withLeftovers_of_visible {s t : State} (h : visible s = visible t) :
    t = withLeftovers (leftovers t) s := by
  simp only [visible, Visible.mk.injEq] at h
  obtain ⟨hphase, hsel, -, hport, hrst, hhost, hanswers, hpins, hbus, hdraws, hparams⟩ := h
  simp [withLeftovers, leftovers, hphase, hsel, hport, hrst, hhost, hanswers, hpins, hbus, hdraws, hparams]

theorem hostLocal_withLeftovers (op : HostOp) (rest : List HostOp) (l : Leftovers) (s : State) :
    hostLocal op rest (withLeftovers l s) = withLeftovers l (hostLocal op rest s) := by
  cases op with
  | pollIdle n | pollDrained n => cases n <;> rfl
  | pollPin level n =>
    cases n with
    | zero => rfl
    | succ n =>
      have hpin : pinRead (withLeftovers l s) = pinRead s := rfl
      simp only [hostLocal, hpin]
      split <;> rfl
  | _ => rfl

/-- The HOST's own turn reads none of the leftovers. -/
theorem hostTurn_withLeftovers (l : Leftovers) (s : State) :
    hostTurn (withLeftovers l s) = withLeftovers l (hostTurn s) := by
  cases hwait : s.host.waiting with
  | true => simp [hostTurn, withLeftovers, hwait]
  | false =>
    cases hops : s.host.ops with
    | nil => cases hqueue : s.host.queue <;> simp [hostTurn, withLeftovers, setHost, hwait, hops, hqueue]
    | cons op rest =>
      cases hcmd : hostCommand s.params s.host op with
      | none =>
        have hlocal := hostLocal_withLeftovers op rest l s
        simpa [hostTurn, withLeftovers, hwait, hops, hcmd] using hlocal
      | some i =>
        rw [hostTurn_command hwait hops hcmd, hostTurn_command (s := withLeftovers l s) hwait hops hcmd]
        split <;> rfl

/-- Two states that an observer cannot tell apart, now or later: between two commands they differ in anything left
over, in `DONE` in anything but the result, and during a transaction in the bit buffer alone. -/
inductive Twin : State → State → Prop where
  | idle {s : State} (l : Leftovers) (hp : s.phase = .idle) : Twin s (withLeftovers l s)
  | busy {s : State} (bits : List Bit) (hp : s.phase = .select ∨ s.phase = .xfer ∨ s.phase = .release) :
    Twin s (setBits bits s)
  | done {s : State} (l : Leftovers) (hp : s.phase = .done) (hresult : l.result = s.result) :
    Twin s (withLeftovers l s)

/-- Twins show the same. -/
theorem Twin.visible_eq {s t : State} (h : Twin s t) : visible s = visible t := by
  cases h with
  | idle l hp => simp [visible, resultPort, withLeftovers, hp]
  | busy bits hp => rfl
  | done l hp hresult => simp [visible, resultPort, withLeftovers, hresult]

/-- A state is its twin with other bits in the bit buffer, in any phase. -/
theorem twin_setBits (bits : List Bit) (s : State) : Twin s (setBits bits s) := by
  cases hp : s.phase with
  | idle => exact .idle { leftovers s with bitbuf := bits } hp
  | select => exact .busy bits (.inl hp)
  | xfer => exact .busy bits (.inr (.inl hp))
  | release => exact .busy bits (.inr (.inr hp))
  | done => exact .done { leftovers s with bitbuf := bits } hp rfl

/-- Twins show the same reset input. -/
theorem Twin.rstAsserted_eq {s t : State} (h : Twin s t) : rstAsserted t = rstAsserted s := by
  cases h <;> rfl

/-- A reset leaves nothing of the difference (R39). -/
theorem Twin.resetFramer_eq {s t : State} (h : Twin s t) : resetFramer (tick t) = resetFramer (tick s) := by
  cases h <;> rfl

/-- A command accepted in two states that differ in their leftovers begins the same way. -/
theorem commandEffect_twin (c : Command) (l : Leftovers) {s : State} (hsel : s.sel = .released) :
    Twin (commandEffect c s) (commandEffect c (withLeftovers l s)) := by
  obtain ⟨tx, h⟩ | ⟨f, h⟩ | ⟨bits, r, h⟩ := commandEffect_uniform c s.params
  · rw [h s rfl, h (withLeftovers l s) rfl]
    exact .busy l.bitbuf (.inl rfl)
  · rw [h s rfl, h (withLeftovers l s) rfl, raise_released f (s := latch c s) hsel,
      raise_released f (s := latch c (withLeftovers l s)) hsel]
    exact .done { l with op := c, result := .err f } rfl rfl
  · rw [h s rfl, h (withLeftovers l s) rfl]
    exact .done { l with op := c, result := r, bitbuf := bits } rfl rfl

/-- Two answers that are the same stop, or twins. -/
inductive TwinAnswer : Answer → Answer → Prop where
  | next {s t : State} (h : Twin s t) : TwinAnswer (.next s) (.next t)
  | fault (r : Fault) : TwinAnswer (.fault r) (.fault r)
  | refused (r : Refusal) : TwinAnswer (.refused r) (.refused r)

theorem twinAnswer_setBits (bits : List Bit) (a : Answer) : TwinAnswer a (mapNext (setBits bits) a) := by
  cases a with
  | next s => exact .next (twin_setBits bits s)
  | fault r => exact .fault r
  | refused r => exact .refused r

/-- In `IDLE`, two states that differ in their leftovers take the same step. -/
theorem step_idle_twin (l : Leftovers) {s : State} (hp : s.phase = .idle) (hsel : s.sel = .released)
    (hrst : rstAsserted s = false) : TwinAnswer (step s) (step (withLeftovers l s)) := by
  cases hport : s.port with
  | none =>
    rw [step_hostTurn hp hport hrst, step_hostTurn (s := withLeftovers l s) hp hport hrst]
    have hturn : hostTurn (tick (withLeftovers l s)) = _ := hostTurn_withLeftovers l (tick s)
    obtain ⟨hphase, -⟩ := hostTurn_frame (tick s)
    exact .next (hturn ▸ .idle l (hphase.trans hp))
  | some w =>
    cases hdecode : decode w with
    | instr i =>
      rw [step_instr hp hrst hport hdecode, step_instr (s := withLeftovers l s) hp hrst hport hdecode,
        exec_idle i (s := takePort (tick s)) hp, exec_idle i (s := takePort (tick (withLeftovers l s))) hp]
      exact .next (commandEffect_twin i.command l (s := takePort (tick s)) hsel)
    | rejected e =>
      rw [step_undecodable hp hrst hport hdecode, step_undecodable (s := withLeftovers l s) hp hrst hport hdecode]
      exact .refused _

/-- A step of twins answers twins. -/
theorem step_twin {s t : State} (hs : SelFollowsPhase s) (h : Twin s t) : TwinAnswer (step s) (step t) := by
  cases hrst : rstAsserted s with
  | true =>
    rw [step_of_reset hrst, step_of_reset (h.rstAsserted_eq.trans hrst), h.resetFramer_eq]
    exact .next (twin_setBits (resetFramer (tick s)).bitbuf _)
  | false =>
    cases h with
    | idle l hp => exact step_idle_twin l hp (released_of_selFollowsPhase hs (.inl hp)) hrst
    | busy bits hp =>
      have hstep : step (setBits bits s) = mapNext (setBits bits) (step s) :=
        step_changeUnread (fun _ => bits) id hrst hp
      exact hstep ▸ twinAnswer_setBits bits (step s)
    | done l hp hresult =>
      rw [step_done hp hrst, step_done (s := withLeftovers l s) hp hrst,
        show (withLeftovers l s).result = s.result from hresult]
      exact .next (.idle l rfl)

/-- Twins go on to show the same for ever. -/
theorem run_twin (k : Nat) : ∀ {s t : State}, SelFollowsPhase s → Twin s t →
    visibleOutcome (run k s) = visibleOutcome (run k t) := by
  induction k with
  | zero =>
    intro s t _ h
    exact congrArg Host.Outcome.next h.visible_eq
  | succ k ih =>
    intro s t hs h
    have hstep := step_twin hs h
    have hkeep {u : State} : step s = .next u → SelFollowsPhase u := step_selFollowsPhase hs
    simp only [run]
    generalize step s = a at *
    generalize step t = b at *
    cases hstep with
    | next h => exact ih (hkeep rfl) h
    | fault r => rfl
    | refused r => rfl

/-- A block at rest has the select signal its phase asks for. -/
theorem selFollowsPhase_of_atRest {s : State} (h : AtRest s) : SelFollowsPhase s := by
  obtain ⟨hp, hsel⟩ := h
  simp [SelFollowsPhase, hp, hsel]

/-- Settles O25: two states at rest that show the same are twins. -/
theorem nothingRetainedBetweenCommands : Obligations.NothingRetainedBetweenCommands := by
  intro s t hs hvisible k
  rw [eq_withLeftovers_of_visible hvisible]
  exact run_twin k (selFollowsPhase_of_atRest hs) (.idle _ hs.1)

/-- Settles O6: a state at rest shows what the reset state with the same environment shows. -/
theorem resetStateIsIdleAndReleased : Obligations.ResetStateIsIdleAndReleased := by
  refine ⟨rfl, rfl, rfl, rfl, rfl, rfl, fun s k hs => nothingRetainedBetweenCommands _ _ hs ?_ k⟩
  obtain ⟨hp, hsel⟩ := hs
  simp [visible, resultPort, State.reset, hp, hsel]

end Sys2Proof.Machine
end

