-- ==== Sys2Proof/Proofs/Memory.lean ====
section
/-! SUPPORT. The statement of the family spec/20_memory.md: what the bus sees is one total order of events (R66), so a
step adds at most one event to the bus history, and one with a byte only in `XFER`. -/

namespace Sys2Proof.Machine

open Sys2Proof.Safety

/-! The bus history, one lemma for each part of a step. -/

/-- A reset is seen on the bus as the release of an asserted select signal, or not at all (R230). -/
theorem resetFramer_bus_cases (s : State) :
    (resetFramer s).bus = s.bus ∨ (resetFramer s).bus = s.bus ++ [.release] := by
  cases hsel : s.sel with
  | asserted => exact .inr (by rw [resetFramer_bus, hsel])
  | released => exact .inl (by rw [resetFramer_bus, hsel])

/-- An accepted command is seen on the bus as the assertion of the select signal, or not at all (R111). -/
theorem commandEffect_bus_cases (c : Command) (s : State) :
    (commandEffect c s).bus = s.bus ∨ (commandEffect c s).bus = s.bus ++ [.select] := by
  obtain ⟨_, -, h⟩ | ⟨_, -, -, h⟩ | ⟨_, _, -, -, -, h⟩ := commandEffect_cases c s
  · exact .inr (by rw [h, startTransaction_bus])
  · exact .inl (by rw [h, raise_bus, latch_bus])
  · exact .inl (by rw [h, complete_bus, setBits_bus, latch_bus])

/-- `XFER` adds one event, with the byte of `TXBUF` at `idx`. -/
theorem xferStep_bus {s t : State} (h : xferStep s = .next t) :
    ∃ e, outByte e = s.txbuf[s.idx]? ∧ t.bus = s.bus ++ [e] := by
  obtain ⟨b, hb, ⟨r, -, rfl⟩ | ⟨-, rfl⟩⟩ := xferStep_cases h
  · exact ⟨.exchange b r, hb.symm, by rw [recordExchange_bus, dropAnswer_bus]⟩
  · exact ⟨.broken b, hb.symm, by rw [raise_bus, recordBroken_bus, dropAnswer_bus]⟩

/-- `RELEASE` adds the release of the select signal (R112). -/
theorem releaseStep_bus {s t : State} (h : releaseStep s = .next t) : t.bus = s.bus ++ [.release] := by
  obtain ⟨-, rfl⟩ | ⟨-, r, -, rfl⟩ := releaseStep_cases h
  · exact releaseSelect_bus s
  · rw [complete_bus, releaseSelect_bus]

/-- Everything a step can add to the bus history: nothing, a move of the select signal, or in `XFER` the event with the
byte of `TXBUF` at `idx`. -/
theorem step_bus_cases {s t : State} (h : step s = .next t) :
    t.bus = s.bus ∨ t.bus = s.bus ++ [.select] ∨ t.bus = s.bus ++ [.release] ∨
      (s.phase = .xfer ∧ ∃ e, outByte e = s.txbuf[s.idx]? ∧ t.bus = s.bus ++ [e]) := by
  obtain ⟨-, rfl⟩ | ⟨-, ⟨hp, w, i, -, -, hexec⟩ | ⟨-, -, rfl⟩ | ⟨-, rfl⟩ | ⟨hp, hxfer⟩ | ⟨-, hrelease⟩ | ⟨-, rfl⟩⟩ :=
    step_cases h
  · obtain hbus | hbus := resetFramer_bus_cases (tick s)
    · exact .inl hbus
    · exact .inr (.inr (.inl hbus))
  · rw [exec_idle i (s := takePort (tick s)) hp] at hexec
    cases hexec
    obtain hbus | hbus := commandEffect_bus_cases i.command (takePort (tick s))
    · exact .inl hbus
    · exact .inr (.inl hbus)
  · obtain ⟨-, -, -, -, -, -, -, -, -, -, hbus, -⟩ := hostTurn_frame (tick s)
    exact .inl hbus
  · exact .inl rfl
  · exact .inr (.inr (.inr ⟨hp, xferStep_bus (s := tick s) hxfer⟩))
  · exact .inr (.inr (.inl (releaseStep_bus (s := tick s) hrelease)))
  · exact .inl rfl

/-- Settles O24, by what a step can add to the bus history: a move of the select signal sends no byte. -/
theorem busHistoryOnlyGrows : Obligations.BusHistoryOnlyGrows := by
  intro s t h
  obtain hbus | hbus | hbus | ⟨hp, e, -, hbus⟩ := step_bus_cases h
  · exact ⟨[], by simp [hbus]⟩
  · exact ⟨[.select], by simp [hbus, outByte]⟩
  · exact ⟨[.release], by simp [hbus, outByte]⟩
  · exact ⟨[e], by simp [hbus, hp]⟩

end Sys2Proof.Machine
end

