-- ==== Sys2Proof/Proofs/Encoding.lean ====
section
/-! SUPPORT. The statements of the family spec/30_encoding.md: the header byte, decoding and encoding as inverses, the
transaction of every bus command with its bytes and its result, and the headers of the sequences vouched for. -/

namespace Sys2Proof.Machine

open Sys2Proof.Config
open Sys2Proof.Safety

/-! The header byte (R80, R88, R121). -/

theorem encodeHeader_writeSingle (a : Addr) : encodeHeader a .writeSingle = a.setWidth 8 := by
  simp [encodeHeader, modeBits]

/-- The OR is the sum: address and mode do not overlap. -/
theorem encodeHeader_toNat (a : Addr) (m : AccessMode) :
    (encodeHeader a m).toNat = a.toNat + (modeBits m).toNat := by
  cases m <;> revert a <;> decide

/-- The low six bits of a header byte as a number are its address. -/
theorem encodeHeader_toNat_mod (a : Addr) (m : AccessMode) : (encodeHeader a m).toNat % 64 = a.toNat := by
  have h := congrArg BitVec.toNat (headerAddr_encodeHeader a m)
  rwa [headerAddr, BitVec.toNat_setWidth] at h

theorem encodeHeader_extract_addr (a : Addr) (m : AccessMode) : (encodeHeader a m).extractLsb' 0 6 = a := by
  cases m <;> revert a <;> decide

theorem encodeHeader_extract_mode (a : Addr) (m : AccessMode) :
    (encodeHeader a m).extractLsb' 6 2 = (modeBits m).extractLsb' 6 2 := by
  cases m <;> revert a <;> decide

/-- A header byte stands for one address and one mode. -/
theorem encodeHeader_injective {a b : Addr} {m n : AccessMode} (h : encodeHeader a m = encodeHeader b n) :
    a = b ∧ m = n := by
  have haddr := congrArg headerAddr h
  have hmode := congrArg headerMode h
  simp only [headerAddr_encodeHeader] at haddr
  simp only [headerMode_encodeHeader] at hmode
  exact ⟨haddr, hmode⟩

/-- Settles O1. -/
theorem headerByteIsAddressOrMode : Obligations.HeaderByteIsAddressOrMode :=
  ⟨encodeHeader_writeSingle, fun _ => rfl, fun _ => rfl, fun _ => rfl,
    fun m => by simp [encodeHeader],
    fun a m => ⟨encodeHeader_toNat a m, encodeHeader_extract_addr a m, encodeHeader_extract_mode a m⟩,
    fun _ _ _ _ => encodeHeader_injective⟩

/-! Encoding a decoded word: format CMD (R86, log 2). -/

/-- A byte is the `op` byte of its value. -/
theorem cmd_eq_cmdWord {b : Byte} {op : Nat} (h : b.toNat = op) (operands : List Byte) :
    (⟨.cmd, b :: operands⟩ : PortWord) = cmdWord op operands := by
  rw [cmdWord, ← h, BitVec.ofNat_toNat, BitVec.setWidth_eq]

/-- What was read as WRITE_BURST's operands are the bytes written for it. -/
theorem encode_of_decodeWriteBurst {rest : List Byte} {i : Instr} (h : decodeWriteBurst rest = .instr i) :
    encode i = cmdWord 3 rest := by
  unfold decodeWriteBurst at h
  split at h
  · obtain ⟨addr, rfl, haddr⟩ := sixBits_instr h
    obtain ⟨hlen, hdata⟩ := exactly_instr haddr
    cases hdata
    simp [encode, hlen]
  · cases h

/-- Bytes whose bits after the first `n` are zero, and no more of them than `n` bits need, are the packing of those `n`
bits: the padding of log 2 is what was dropped. -/
theorem packPayload_take {packed : List Byte} {n : Nat} (hlen : packed.length = (n + 7) / 8)
    (hzero : ((unpackBytes packed).drop n).any id = false) : packPayload ((unpackBytes packed).take n) = packed := by
  have htake : ((unpackBytes packed).take n).length = n := by
    rw [List.length_take, unpackBytes_length]
    omega
  have hdrop : (unpackBytes packed).drop n = List.replicate ((8 - n % 8) % 8) false := by
    refine List.eq_replicate_iff.mpr ⟨?_, fun b hb => ?_⟩
    · rw [List.length_drop, unpackBytes_length]
      omega
    · simpa using List.any_eq_false.mp hzero b hb
  rw [packPayload, htake, ← hdrop, List.take_append_drop, packBits_unpackBytes]

/-- What was read as FRAME_TX's operands are the bytes written for it. -/
theorem encode_of_decodeFrameTx {rest : List Byte} {i : Instr} (h : decodeFrameTx rest = .instr i) :
    encode i = cmdWord 5 rest := by
  unfold decodeFrameTx at h
  split at h
  · rename_i sh sl lh ll packed
    obtain ⟨hlen, hbits⟩ := exactly_instr h
    split at hbits
    · cases hbits
    · rename_i hzero
      cases hbits
      have hsync : (BitVec.ofNat 16 (word16 sh sl)).toNat = word16 sh sl :=
        Nat.mod_eq_of_lt (word16_lt sh sl)
      have hcount : ((unpackBytes packed).take (word16 lh ll)).length = word16 lh ll := by
        rw [List.length_take, unpackBytes_length]
        omega
      simp [encode, hsync, hcount, packPayload_take hlen (Bool.eq_false_iff.mpr hzero)]
  · cases h

/-- What was read as DECODE_RX's operands are the bytes written for it. -/
theorem encode_of_decodeDecodeRx {rest : List Byte} {i : Instr} (h : decodeDecodeRx rest = .instr i) :
    encode i = cmdWord 6 rest := by
  unfold decodeDecodeRx at h
  split at h
  · split at h
    · cases h
    · obtain ⟨hlen, hraw⟩ := exactly_instr h
      cases hraw
      simp [encode, hlen]
  · cases h

/-- A word of format CMD that is read is the word of what was read. -/
theorem encode_of_decodeCmd {bytes : List Byte} {i : Instr} (h : decodeCmd bytes = .instr i) :
    encode i = ⟨.cmd, bytes⟩ := by
  unfold decodeCmd at h
  split at h
  · cases h
  · split at h
    all_goals rename_i hop
    · obtain ⟨c, rfl, hc⟩ := oneByte_instr h
      obtain ⟨code, rfl, hcode⟩ := sixBits_instr hc
      cases hcode
      exact (cmd_eq_cmdWord hop _).symm
    · obtain ⟨a, v, rfl, ha⟩ := twoBytes_instr h
      obtain ⟨addr, rfl, haddr⟩ := sixBits_instr ha
      cases haddr
      exact (cmd_eq_cmdWord hop _).symm
    · obtain ⟨a, rfl, ha⟩ := oneByte_instr h
      obtain ⟨addr, rfl, haddr⟩ := sixBits_instr ha
      cases haddr
      exact (cmd_eq_cmdWord hop _).symm
    · rw [cmd_eq_cmdWord hop, encode_of_decodeWriteBurst h]
    · obtain ⟨a, n, rfl, ha⟩ := twoBytes_instr h
      obtain ⟨addr, rfl, haddr⟩ := sixBits_instr ha
      cases haddr
      rw [cmd_eq_cmdWord hop, encode, lowByte_toNat]
    · rw [cmd_eq_cmdWord hop, encode_of_decodeFrameTx h]
    · rw [cmd_eq_cmdWord hop, encode_of_decodeDecodeRx h]
    · split at h
      · rename_i hempty
        cases h
        rw [cmd_eq_cmdWord hop, List.isEmpty_iff.mp hempty, encode]
      · cases h
    · cases h

/-! Encoding a decoded word: format HDR (R81 to R85, R91). -/

/-- What was read from two bytes with mode bits `00` is encoded by its address and value, strobe or not (R95). -/
theorem encode_of_decodeSingleWrite {addr : Addr} {value : Byte} {i : Instr}
    (h : decodeSingleWrite addr value = .instr i) : encode i = ⟨.hdr, [encodeHeader addr .writeSingle, value]⟩ := by
  unfold decodeSingleWrite at h
  split at h
  · rename_i hfiller
    split at h
    · rename_i hname
      cases h
      rw [hfiller, (namedStrobe_word hname).2]
    · cases h
      rfl
  · cases h
    rfl

/-- A word of format HDR that is read is the word of what was read. -/
theorem encode_of_decodeHdr {bytes : List Byte} {i : Instr} (h : decodeHdr bytes = .instr i) :
    encode i = ⟨.hdr, bytes⟩ := by
  unfold decodeHdr at h
  split at h
  · cases h
  · rename_i hd rest
    have hfields := encodeHeader_fields hd
    split at h
    all_goals
      rename_i hmode
      rw [hmode] at hfields
    · obtain ⟨value, rfl, hvalue⟩ := oneByte_instr h
      rw [encode_of_decodeSingleWrite hvalue, hfields]
    · split at h
      · cases h
      · cases h
        rw [encode, hfields]
    · obtain ⟨f, rfl, hf⟩ := oneByte_instr h
      split at hf
      · rename_i hfiller
        cases hf
        rw [encode, hfields, hfiller]
      · cases hf
    · split at h
      · cases h
      · split at h
        · rename_i htail
          cases h
          rw [encode, burstBytes_eq_cons, ← htail, hfields]
        · cases h

/-- Settles O3: the instruction is well formed, and both formats are read back byte for byte. -/
theorem decodedWordIsTheInstructionsWord : Obligations.DecodedWordIsTheInstructionsWord := by
  rintro ⟨fmt, bytes⟩ i h
  refine ⟨decode_wf h, ?_⟩
  cases fmt with
  | cmd => exact encode_of_decodeCmd h
  | hdr => exact encode_of_decodeHdr h

/-! Decoding an encoded instruction. -/

theorem decode_writeSingle_header (a : Addr) (rest : List Byte) :
    decode ⟨.hdr, encodeHeader a .writeSingle :: rest⟩ = oneByte rest (decodeSingleWrite a) := by
  simp [decode, decodeHdr]

theorem decode_writeBurst_header {rest : List Byte} (a : Addr) (h : rest.length ≤ maxWBurst) :
    decode ⟨.hdr, encodeHeader a .writeBurst :: rest⟩ = .instr (.wireWriteBurst a rest) := by
  simp [decode, decodeHdr, Nat.not_lt.mpr h]

theorem decode_readSingle_header (a : Addr) :
    decode ⟨.hdr, [encodeHeader a .readSingle, filler]⟩ = .instr (.wireReadSingle a) := by
  simp [decode, decodeHdr, oneByte]

theorem decode_burstBytes {length : Nat} (a : Addr) (h : length ≤ maxRBurst) :
    decode ⟨.hdr, burstBytes a length⟩ = .instr (.wireReadBurst a length) := by
  rw [burstBytes_eq_cons]
  simp [decode, decodeHdr, Nat.not_lt.mpr h]

/-- A named strobe's word is read as that strobe (log 12). -/
theorem decode_strobeWord {code : Addr} {i : Instr} (h : namedStrobe code = some i) :
    decode (strobeWord code) = .instr i := by
  rw [strobeWord, decode_writeSingle_header]
  simp [oneByte, decodeSingleWrite, h]

/-- A single write's two bytes are read as it, unless a strobe has the same (R95). -/
theorem decodeSingleWrite_of_wf {addr : Addr} {value : Byte} (h : (Instr.wireWriteSingle addr value).wf = true) :
    decodeSingleWrite addr value = .instr (.wireWriteSingle addr value) := by
  by_cases hvalue : value = filler
  · have hname : namedStrobe addr = none := by simpa [Instr.wf, namedStrobe_none_iff, hvalue] using h
    simp [decodeSingleWrite, hname]
  · simp [decodeSingleWrite, hvalue]

/-- Settles O2: a wire layout is read by its header's mode, a named strobe by its code, and a word of the command port
by its `op`. -/
theorem decodeReadsEncodedInstruction : Obligations.DecodeReadsEncodedInstruction := by
  intro i h
  cases i with
  | wireWriteSingle addr value => exact (decode_writeSingle_header addr [value]).trans (decodeSingleWrite_of_wf h)
  | wireWriteBurst addr data => exact decode_writeBurst_header addr (of_decide_eq_true h)
  | wireReadSingle addr => exact decode_readSingle_header addr
  | wireReadBurst addr length => exact decode_burstBytes addr (of_decide_eq_true h)
  | sReset | sFstxon | sXoff | sCal | sRx | sTx | sIdle | s37 | sWor | sPwd | sFlushRx | sFlushTx | sWorrst | sNop =>
    exact decode_strobeWord rfl
  | strobe | writeSingle | readSingle | writeBurst | readBurst | frameTx | decodeRx | reserved7 =>
    exact decode_encode_portInstr (command_wf_of_wf h)

/-- Settles O4: each word is the encoding of its instruction, which is well formed. -/
theorem tableWordsDecodeToTheirRows : Obligations.TableWordsDecodeToTheirRows := by
  have read {w : PortWord} {i : Instr} (hwf : i.wf = true) (hword : encode i = w) : decode w = .instr i :=
    hword ▸ decodeReadsEncodedInstruction i hwf
  exact ⟨read rfl rfl, read rfl rfl, read rfl rfl, read rfl rfl, read rfl rfl, read rfl rfl, read rfl rfl,
    read rfl rfl, read rfl rfl, read rfl rfl⟩

/-! The acceptance of a command, by the bytes it puts on the wire (R111, R116). -/

/-- An accepted bus command starts a transaction with its wire layout. -/
theorem commandEffect_of_layout {c : Command} {tx : List Byte} {s : State} (h : acceptedLayout s.params c = some tx) :
    commandEffect c s = afterAccept c tx s := by
  cases c with
  | strobe code =>
    simp only [acceptedLayout, wireLayout, Option.ite_none_right_eq_some, Option.some.injEq] at h
    obtain ⟨hcode, rfl⟩ := h
    rw [commandEffect, if_pos ((isStrobeCode_iff code).mpr hcode), encodeHeader_writeSingle, startTransaction_eq]
  | writeSingle addr value =>
    cases h
    rw [commandEffect, startWriteSingle, encodeHeader_writeSingle, startTransaction_eq]
  | readSingle | writeBurst =>
    cases h
    rfl
  | readBurst addr length =>
    simp only [acceptedLayout, Option.ite_none_left_eq_some] at h
    obtain ⟨hfits, htx⟩ := h
    cases htx
    simp only [commandEffect, startReadBurst, Bool.eq_false_iff.mpr hfits]
    rfl
  | frameTx | decodeRx | reserved7 => cases h

/-- What an accepted command puts on the wire is its wire layout. -/
theorem wireLayout_of_acceptedLayout {p : Params} {c : Command} {tx : List Byte} (h : acceptedLayout p c = some tx) :
    wireLayout c = some tx := by
  cases c with
  | readBurst addr length => exact (Option.ite_none_left_eq_some.mp h).2
  | _ => exact h

/-- A command that starts a transaction has its wire layout in `TXBUF`. -/
theorem txbuf_of_select {c : Command} {s : State} (h : (commandEffect c s).phase = .select) :
    wireLayout c = some (commandEffect c s).txbuf := by
  obtain ⟨tx, htx, heq⟩ | ⟨f, -, -, heq⟩ | ⟨bits, r, -, -, -, heq⟩ := commandEffect_cases c s
  · rw [htx, heq, startTransaction_txbuf]
  · rw [heq, raise_phase] at h
    split at h <;> cases h
  · rw [heq] at h
    cases h

/-! The transaction, one exchange after another (R116). -/

/-- The state in a transaction with the bytes `tx` when the responses `rx` have been received: it is in `XFER` until
the last of them, and then in `RELEASE`. -/
def duringTransaction (c : Command) (tx rx : List Byte) (s : State) : State :=
  { s with
    op := c
    txbuf := tx
    rxbuf := rx
    idx := rx.length
    sel := .asserted
    phase := if rx.length = tx.length then .release else .xfer
    result := .okNone
    rst := s.rst.drop (rx.length + 1)
    answers := s.answers.drop rx.length
    bus := s.bus ++ [.select] ++ exchanges tx rx }

/-- With `rst` released two steps longer than there are responses, the next step of the transaction is no reset. -/
theorem rstAsserted_duringTransaction {c : Command} {tx rx : List Byte} {s : State} (h : NoReset (rx.length + 2) s) :
    rstAsserted (duringTransaction c tx rx s) = false :=
  (noReset_succ (k := 0) (noReset_drop (j := rx.length + 1) h rfl)).1

/-- The exchanges with one response more. -/
theorem exchanges_concat {rx : List Byte} {b : Byte} (r : Byte) :
    ∀ {tx : List Byte}, tx[rx.length]? = some b →
      exchanges tx (rx ++ [r]) = exchanges tx rx ++ [.exchange b r] := by
  induction rx with
  | nil =>
    intro tx hb
    cases tx with
    | nil => cases hb
    | cons b' tx =>
      cases hb
      simp [exchanges]
  | cons r' rx ih =>
    intro tx hb
    cases tx with
    | nil => cases hb
    | cons b' tx => exact congrArg (BusEvent.exchange b' r' :: ·) (ih hb)

/-- `SELECT` begins the exchanges of a transaction that has a byte to send. -/
theorem step_afterAccept {c : Command} {tx : List Byte} {s : State} (htx : 0 < tx.length)
    (hrst : rstAsserted s = false) : step (afterAccept c tx s) = .next (duringTransaction c tx [] s) := by
  rw [step_select (s := afterAccept c tx s) rfl hrst]
  simp [duringTransaction, afterAccept, tick, exchanges, htx.ne]

/-- An answered exchange adds its response. -/
theorem step_duringTransaction {c : Command} {tx rx : List Byte} {s : State} {b r : Byte}
    (hb : tx[rx.length]? = some b) (hr : chipAnswers b (duringTransaction c tx rx s) = some r)
    (hrst : rstAsserted (duringTransaction c tx rx s) = false) :
    step (duringTransaction c tx rx s) = .next (duringTransaction c tx (rx ++ [r]) s) := by
  obtain ⟨hlt, -⟩ := List.getElem?_eq_some_iff.mp hb
  rw [step_xfer (if_neg hlt.ne) hrst, xferStep_ok (s := tick (duringTransaction c tx rx s)) hb hr]
  simp [recordExchange, dropAnswer, tick, duringTransaction, exchanges_concat r hb]

/-- After the last response the select signal is released and the result is the command's. -/
theorem step_duringTransaction_last {c : Command} {tx rx : List Byte} {s : State} {r : Result}
    (hlen : rx.length = tx.length) (hr : busResult c rx = some r)
    (hrst : rstAsserted (duringTransaction c tx rx s) = false) :
    step (duringTransaction c tx rx s) =
      .next (afterTransaction c tx rx (exchanges tx rx) r tx.length (tx.length + 2) s) := by
  rw [step_release (if_pos hlen) hrst]
  simp [releaseStep, duringTransaction, tick, isErr, hr, complete, releaseSelect, afterTransaction, hlen]

/-- While the CHIP answers with the bytes `rx`, the run exchanges them one by one. -/
theorem run_exchanges {c : Command} {tx : List Byte} {s : State} (htx : 0 < tx.length) (rx : List Byte) :
    ∀ rest, rx.length ≤ tx.length → s.answers = rx.map some ++ rest → NoReset (rx.length + 1) s →
      run (rx.length + 1) (afterAccept c tx s) = .next (duringTransaction c tx rx s) := by
  induction rx using List.reverseRecOn with
  | nil =>
    intro rest _ _ hrst
    exact (run_one _).trans (step_afterAccept htx (noReset_succ hrst).1)
  | append_singleton rx r ih =>
    intro rest hlen hanswers hrst
    rw [List.length_append, List.length_singleton] at hlen hrst ⊢
    have hb : tx[rx.length]? = some tx[rx.length] := List.getElem?_eq_getElem (by omega)
    have hr : chipAnswers tx[rx.length] (duringTransaction c tx rx s) = some r := by
      simp [chipAnswers, duringTransaction, hanswers]
    rw [run_add (ih (some r :: rest) (by omega) (by simp [hanswers]) (noReset_mono hrst (by omega))), run_one,
      step_duringTransaction hb hr (rstAsserted_duringTransaction hrst)]

/-- A command that is accepted with the bytes `tx` wherever `pre` holds, and whose result is `r`, runs as a bus
command. -/
theorem runsOnBus_of_layout {pre : State → Prop} {i : Instr} {tx : List Byte} {r : List Byte → Result}
    (hlayout : ∀ s, pre s → acceptedLayout s.params i.command = some tx)
    (hresult : ∀ rx, rx.length = tx.length → busResult i.command rx = some (r rx)) : RunsOnBus pre i tx r := by
  intro s hp hpre
  refine ⟨by rw [exec_idle i hp, commandEffect_of_layout (hlayout s hpre)], ?_⟩
  intro rx rest hlen hanswers hrst
  have htx : 0 < tx.length := wireLayout_length_pos (wireLayout_of_acceptedLayout (hlayout s hpre))
  rw [← hlen] at hrst
  have hrun := run_exchanges (c := i.command) htx rx rest hlen.le hanswers (noReset_mono hrst (by omega))
  have hlast := step_duringTransaction_last hlen (hresult rx hlen) (rstAsserted_duringTransaction hrst)
  rw [← hlen, run_add hrun 1, run_one, hlast, hlen]

/-- Two instructions of the same command, in whatever formats, run alike (log 1). -/
theorem runsOnBus_of_command_eq {pre : State → Prop} {i j : Instr} {tx : List Byte} {r : List Byte → Result}
    (hij : i.command = j.command) (h : RunsOnBus pre i tx r) : RunsOnBus pre j tx r := by
  intro s hp hpre
  rw [← exec_portInstr j, ← hij, exec_portInstr i]
  exact h s hp hpre

/-! The transactions of the bus commands (R81 to R85, R101). -/

/-- Settles O27. -/
theorem strobeSendsCodeAndFiller : Obligations.StrobeSendsCodeAndFiller :=
  fun _ hlow hhigh => runsOnBus_of_layout (fun _ _ => if_pos ⟨hlow, hhigh⟩) fun _ _ => rfl

/-- Settles O31: both formats name the same command. -/
theorem writeSingleSendsAddressAndValue : Obligations.WriteSingleSendsAddressAndValue := by
  intro addr value
  have hport := runsOnBus_of_layout (pre := fun _ => True) (i := .writeSingle addr value) (r := fun _ => .okNone)
    (fun _ _ => rfl) fun _ _ => rfl
  exact ⟨hport, runsOnBus_of_command_eq rfl hport⟩

/-- The result of a single read is the second of its two responses (R83). -/
theorem busResult_readSingle (addr : Addr) {rx : List Byte} (h : rx.length = 2) :
    busResult (.readSingle addr) rx = some (.okByte (rx.getD 1 0x00#8)) := by
  simp [busResult, h]

/-- Settles O32: both formats name the same command. -/
theorem readSingleReturnsSecondByte : Obligations.ReadSingleReturnsSecondByte := by
  intro addr
  have hport := runsOnBus_of_layout (pre := fun _ => True) (i := .readSingle addr) (fun _ _ => rfl)
    fun _ => busResult_readSingle addr
  exact ⟨hport, runsOnBus_of_command_eq rfl hport⟩

/-- Settles O33: both formats name the same command. -/
theorem writeBurstSendsHeaderAndData : Obligations.WriteBurstSendsHeaderAndData := by
  intro addr data
  have hport := runsOnBus_of_layout (pre := fun _ => True) (i := .writeBurst addr data) (r := fun _ => .okNone)
    (fun _ _ => rfl) fun _ _ => rfl
  exact ⟨hport, runsOnBus_of_command_eq rfl hport⟩

/-- A burst read whose sums all fit a byte is accepted under either `BURST_ADDR_OVERFLOW` (R127). -/
theorem acceptedLayout_readBurst_of_fits {addr : Addr} {length : Nat} (p : Params)
    (h : addr.toNat + 8 * length ≤ 255) :
    acceptedLayout p (.readBurst addr length) = wireLayout (.readBurst addr length) :=
  if_neg fun hrejected => Nat.not_lt.mpr h ((burstRejected_iff p addr length).mp hrejected).1

/-- Settles O34: both formats name the same command. -/
theorem readBurstSendsAddressBytes : Obligations.ReadBurstSendsAddressBytes := by
  intro addr length h
  have hport := runsOnBus_of_layout (pre := fun _ => True) (i := .readBurst addr length) (r := .okBytes)
    (fun s _ => acceptedLayout_readBurst_of_fits s.params h) fun _ _ => rfl
  exact ⟨hport, runsOnBus_of_command_eq rfl hport⟩

/-- Settles O5: each is accepted with its wire layout, and the two layouts are the same bytes. -/
theorem strobeAndZeroWriteShareWireBytes : Obligations.StrobeAndZeroWriteShareWireBytes :=
  fun code s hp hlow hhigh => ⟨_, _, (strobeSendsCodeAndFiller code hlow hhigh s hp trivial).1,
    ((writeSingleSendsAddressAndValue code 0x00#8).1 s hp trivial).1, rfl, rfl, rfl, rfl⟩

/-- Settles O46: at rest the select signal is released, so the failure ends the command at once. -/
theorem reservedCommandFailsAtOnce : Obligations.ReservedCommandFailsAtOnce := by
  rintro s ⟨hp, hsel⟩
  rw [exec_idle .reserved7 hp]
  exact congrArg Host.Outcome.next (raise_released .illegalCommand (s := latch .reserved7 s) hsel)

/-! The address bytes of READ_BURST (R126). -/

/-- The mode bits `11` stand above the address bits of a burst read's byte and leave them alone. -/
theorem or_readBurst_fields (x : Byte) :
    (x ||| 0xC0#8).extractLsb' 0 3 = x.extractLsb' 0 3 ∧ (x ||| 0xC0#8).extractLsb' 3 3 = x.extractLsb' 3 3 ∧
      (x ||| 0xC0#8).extractLsb' 6 2 = 0b11#2 := by
  revert x; decide

/-- The low three bits of the address stay in every byte. -/
theorem burstByte_extract_low (addr : Addr) (k : Nat) :
    (burstByte addr k).extractLsb' 0 3 = addr.extractLsb' 0 3 := by
  obtain ⟨hlow, -, -⟩ := or_readBurst_fields (BitVec.ofNat 8 (addr.toNat + 8 * k))
  refine hlow.trans (BitVec.eq_of_toNat_eq ?_)
  simp only [BitVec.extractLsb'_toNat, BitVec.toNat_ofNat, Nat.shiftRight_zero]
  omega

/-- Bits 5:3 count up modulo 8. -/
theorem burstByte_extract_high (addr : Addr) (k : Nat) :
    ((burstByte addr k).extractLsb' 3 3).toNat = ((addr.extractLsb' 3 3).toNat + k) % 8 := by
  obtain ⟨-, hhigh, -⟩ := or_readBurst_fields (BitVec.ofNat 8 (addr.toNat + 8 * k))
  refine (congrArg BitVec.toNat hhigh).trans ?_
  simp only [BitVec.extractLsb'_toNat, BitVec.toNat_ofNat, Nat.shiftRight_eq_div_pow]
  omega

/-- A sum that fits a byte is not reduced (R126). -/
theorem burstByte_toNat {addr : Addr} {k : Nat} (h : addr.toNat + 8 * k ≤ 255) :
    (burstByte addr k).toNat = (addr.toNat + 8 * k) ||| 0xC0 := by
  have hsum : burstSum addr k % 2 ^ 8 = addr.toNat + 8 * k := Nat.mod_eq_of_lt (Nat.lt_succ_of_le h)
  rw [burstByte, BitVec.toNat_or, BitVec.toNat_ofNat, hsum]
  rfl

theorem burstBytes_getElem? {length k : Nat} (addr : Addr) (h : k ≤ length) :
    (burstBytes addr length)[k]? = some (burstByte addr k) := by
  simp [burstBytes, Nat.lt_succ_of_le h]

/-- Settles O37: `TXBUF` is the wire layout, the bytes of R126. -/
theorem burstAddressSequence : Obligations.BurstAddressSequence := by
  intro addr length s t hp hexec hselect
  rw [exec_idle _ hp] at hexec
  cases hexec
  have htx : burstBytes addr length = _ := Option.some.inj (txbuf_of_select hselect)
  rw [← htx]
  refine ⟨burstBytes_length addr length, by rw [burstBytes_eq_cons]; rfl, fun k hk => ?_⟩
  obtain ⟨-, -, hmode⟩ := or_readBurst_fields (BitVec.ofNat 8 (burstSum addr k))
  exact ⟨burstByte addr k, burstBytes_getElem? addr hk, burstByte_extract_low addr k, hmode,
    fun hfits => ⟨burstByte_toNat hfits, burstByte_extract_high addr k⟩⟩

/-! No step faults (R101, R116, R249). -/

/-- As many responses as bytes sent give a result (R101). -/
theorem busResult_of_layout {c : Command} {tx rx : List Byte} (h : wireLayout c = some tx)
    (hlen : rx.length = tx.length) : ∃ r, busResult c rx = some r := by
  cases c with
  | strobe | writeSingle | writeBurst | readBurst => exact ⟨_, rfl⟩
  | readSingle addr =>
    cases h
    exact ⟨_, busResult_readSingle addr hlen⟩
  | frameTx | decodeRx | reserved7 => cases h

/-- With a byte left `XFER` does not fault. -/
theorem xferStep_ne_fault {s : State} (hidx : s.idx < s.txbuf.length) (f : Fault) : xferStep s ≠ .fault f := by
  have hb := List.getElem?_eq_getElem hidx
  cases hr : chipAnswers s.txbuf[s.idx] s with
  | some r => simp [xferStep_ok hb hr]
  | none => simp [xferStep_fail hb hr]

/-- Settles O20, by the phases: the invariant leaves a byte in `XFER` and a failure or every response in `RELEASE`. -/
theorem invariantRulesOutFaults : Obligations.InvariantRulesOutFaults := by
  intro s f hs
  cases hrst : rstAsserted s with
  | true => simp [step_of_reset hrst]
  | false =>
    cases hp : s.phase with
    | idle =>
      cases hport : s.port with
      | none => simp [step_hostTurn hp hport hrst]
      | some w =>
        cases hdecode : decode w with
        | instr i => simp [step_instr hp hrst hport hdecode, exec_idle i (s := takePort (tick s)) hp]
        | rejected e => simp [step_undecodable hp hrst hport hdecode]
    | select => simp [step_select hp hrst]
    | xfer =>
      obtain ⟨-, -, hidx, -⟩ := (framerInv_xfer hp).mp hs
      rw [step_xfer hp hrst]
      exact xferStep_ne_fault (s := tick s) hidx f
    | release =>
      obtain ⟨-, ⟨hop, -⟩, hfail | ⟨hok, -, hrx⟩⟩ := (framerInv_release hp).mp hs
      · simp [step_release hp hrst, releaseStep, hfail, isErr]
      · obtain ⟨r, hr⟩ := busResult_of_layout hop hrx
        simp [step_release hp hrst, releaseStep, hok, isErr, hr]
    | done => simp [step_done hp hrst]

/-! The headers of the sequences vouched for (R95, R237, R251). -/

/-- The first byte of a command that may not strobe is the header of an address outside the fourteen codes. -/
theorem header_of_not_mayStrobe {c : Command} {b : Byte} {tx : List Byte} (hc : mayStrobe c = false)
    (h : wireLayout c = some (b :: tx)) : ∃ addr m, b = encodeHeader addr m ∧ isStrobeCode addr = false := by
  cases c with
  | strobe => cases hc
  | writeSingle addr value =>
    cases h
    exact ⟨addr, .writeSingle, (encodeHeader_writeSingle addr).symm, hc⟩
  | readSingle addr =>
    cases h
    exact ⟨addr, .readSingle, rfl, hc⟩
  | writeBurst addr data =>
    cases h
    exact ⟨addr, .writeBurst, rfl, hc⟩
  | readBurst addr length =>
    have hbytes : burstBytes addr length = b :: tx := Option.some.inj h
    rw [burstBytes_eq_cons] at hbytes
    exact ⟨addr, .readBurst, (List.cons.inj hbytes).1.symm, hc⟩
  | frameTx | decodeRx | reserved7 => cases h

/-- The low six bits of that header lie outside `0x30` to `0x3D` (R95). -/
theorem header_outside_of_not_mayStrobe {c : Command} {b : Byte} {tx : List Byte} (hc : mayStrobe c = false)
    (h : wireLayout c = some (b :: tx)) : b.toNat % 64 < 0x30 ∨ 0x3D < b.toNat % 64 := by
  obtain ⟨addr, m, rfl, haddr⟩ := header_of_not_mayStrobe hc h
  have hout := (isStrobeCode_iff addr).not.mp (Bool.eq_false_iff.mp haddr)
  rw [encodeHeader_toNat_mod]
  omega

/-- A command of an APPLY_CONFIG is the write of one of the table's rows. -/
theorem command_of_applyConfigOps {p : Params} {h : HostState} {profile : Option RadioMode}
    {table : List (Addr × Byte)} {op : HostOp} {i : Instr} (hop : op ∈ applyConfigOps profile table)
    (hcmd : hostCommand p h op = some i) : ∃ row ∈ table, i = .writeSingle row.1 row.2 := by
  simp only [applyConfigOps, List.mem_append, List.mem_map, List.mem_singleton] at hop
  obtain ⟨row, hrow, rfl⟩ | rfl := hop
  · exact ⟨row, hrow, (Option.some.inj hcmd).symm⟩
  · cases hcmd

/-- A command of a loader's sequence is the write of one of its rows. -/
theorem command_of_loaderOps {p : Params} {h : HostState} {part : LinkPart} {rows : List (Addr × Byte)} {op : HostOp}
    {i : Instr} (hop : op ∈ loaderOps part rows) (hcmd : hostCommand p h op = some i) :
    ∃ row ∈ rows, i = .writeSingle row.1 row.2 := by
  simp only [loaderOps, List.mem_append, List.mem_map, List.mem_singleton] at hop
  obtain ⟨row, hrow, rfl⟩ | rfl := hop
  · exact ⟨row, hrow, (Option.some.inj hcmd).symm⟩
  · cases hcmd

/-- The write of a row of a table without strobes may not strobe. -/
theorem not_mayStrobe_of_row {table : List (Addr × Byte)} {i : Instr} (htable : tableWithoutStrobes table = true)
    (hi : ∃ row ∈ table, i = .writeSingle row.1 row.2) : mayStrobe i.command = false := by
  obtain ⟨row, hrow, rfl⟩ := hi
  exact (Bool.not_eq_true' _).mp (List.all_eq_true.mp htable row hrow)

/-- The frequency word's writes go to the three registers of the plan (R181). -/
theorem tableWithoutStrobes_freqRows {plan : FreqPlan} (w : BitVec 24)
    (h : ([FreqByte.high, .middle, .low].all fun b => !isStrobeCode (freqAddr plan b)) = true) :
    tableWithoutStrobes (freqRows plan w) = true := by
  have hall (b : FreqByte) : (!isStrobeCode (freqAddr plan b)) = true :=
    List.all_eq_true.mp h b (by cases b <;> decide)
  refine List.all_eq_true.mpr fun row hrow => ?_
  obtain ⟨b, -, rfl⟩ := List.mem_map.mp hrow
  exact hall b

/-- Every command of a sequence vouched for is one that may not strobe, unless the sequence is a path or a status
read. -/
theorem not_mayStrobe_of_vouched {p : Params} {profiles : Profiles} {q : HostSeq} {op : HostOp} {h : HostState}
    {i : Instr} (hq : vouchedOrdering p profiles q = true) (hpath : ∀ mode, ¬IsPathOf mode q)
    (hstate : q ≠ .readState) (hbytes : q ≠ .readTxBytes) (hop : op ∈ expand p profiles q)
    (hcmd : hostCommand p h op = some i) : mayStrobe i.command = false := by
  cases q with
  | command j =>
    cases List.mem_singleton.mp hop
    cases hcmd
    exact (Bool.not_eq_true' _).mp hq
  | applyConfig | applyProfile => exact not_mayStrobe_of_row hq (command_of_applyConfigOps hop hcmd)
  | setFrequency targetHz offsetHz =>
    simp only [expand, setFrequencyOps] at hop
    split at hop
    · cases List.mem_singleton.mp hop
      cases hcmd
    · exact not_mayStrobe_of_row (tableWithoutStrobes_freqRows _ hq) (command_of_loaderOps hop hcmd)
  | setSyncWord => exact not_mayStrobe_of_row hq (command_of_loaderOps hop hcmd)
  | setPacketLength n =>
    have htable : tableWithoutStrobes [(p.pktlenAddr, n)] = true := (Bool.and_true _).trans hq
    exact not_mayStrobe_of_row htable (command_of_loaderOps hop hcmd)
  | loadPowerRamp table =>
    simp only [expand, List.mem_cons, List.not_mem_nil, or_false] at hop
    obtain rfl | rfl := hop
    · cases hcmd
      exact (Bool.not_eq_true' _).mp hq
    · cases hcmd
  | readState => exact absurd rfl hstate
  | readTxBytes => exact absurd rfl hbytes
  | waitPin level =>
    simp only [expand, List.mem_cons, List.not_mem_nil, or_false] at hop
    obtain rfl | rfl := hop <;> cases hcmd
  | rxPath packetLength => exact absurd (.inl ⟨rfl, packetLength, rfl⟩) (hpath .rx)
  | txPath payload sync => exact absurd (.inr ⟨rfl, payload, sync, rfl⟩) (hpath .tx)
  | recover | recoverProfile | waitIdle => cases hq

/-- A path is vouched for only with its profile (R236). -/
theorem vouched_profile_of_path {p : Params} {profiles : Profiles} {q : HostSeq} {mode : RadioMode}
    (hpath : IsPathOf mode q) (hq : vouchedOrdering p profiles q = true) :
    vouchedOrdering p profiles (.applyProfile mode) = true := by
  obtain ⟨rfl, packetLength, rfl⟩ | ⟨rfl, payload, sync, rfl⟩ := hpath
  · exact hq
  · exact hq

/-- The application of a profile is no path. -/
theorem not_isPathOf_applyProfile (mode m : RadioMode) : ¬IsPathOf mode (.applyProfile m) := by
  rintro (⟨-, packetLength, h⟩ | ⟨-, payload, sync, h⟩)
  · cases h
  · cases h

/-- Settles O54: a path's profile is vouched for with the path, and no command of a sequence vouched for may strobe. -/
theorem vouchedSequencesSendNoStrobe : Obligations.VouchedSequencesSendNoStrobe := by
  intro p profiles q hq sequence hseq op hop h i hcmd b tx htx
  refine header_outside_of_not_mayStrobe ?_ htx
  obtain ⟨rfl, hpath, hstate, hbytes⟩ | ⟨mode, hpath, rfl⟩ := hseq
  · exact not_mayStrobe_of_vouched hq hpath hstate hbytes hop hcmd
  · exact not_mayStrobe_of_vouched (vouched_profile_of_path hpath hq) (not_isPathOf_applyProfile · mode) nofun nofun
      hop hcmd

end Sys2Proof.Machine
end

