-- ==== Sys2Proof/Proofs/BusTransaction.lean ====
section
/-! SUPPORT. The statements of the family spec/40_bus_transaction.md: the sequencer's step in each phase, and a whole
transaction, whose two ends (every byte answered, or one exchange failed) are those of the primitive TRANSACT. -/

namespace Sys2Proof.Machine

open Sys2Proof.Safety

/-! The sequencer's step in each phase (R116). -/

/-- After a failed transfer `RELEASE` keeps the failure. -/
theorem releaseStep_err {s : State} {f : Failure} (h : s.result = .err f) :
    releaseStep s = .next { releaseSelect s with phase := .done } := by
  simp [releaseStep, isErr, h]

/-- After a complete transfer `RELEASE` takes the command's result from `RXBUF` (R101). -/
theorem releaseStep_ok {s : State} {r : Result} (herr : isErr s.result = false) (hr : busResult s.op s.rxbuf = some r) :
    releaseStep s = .next (complete r (releaseSelect s)) := by
  simp [releaseStep, herr, hr]

/-- Settles O12, phase by phase. -/
theorem sequencerStepsByPhase : Obligations.SequencerStepsByPhase := by
  intro s hrst
  refine ⟨fun hp => step_select hp hrst, fun b r hp hb hr => ?_, fun b hp hsel hb hr => ?_, fun f hp hf => ?_,
    fun r hp herr hr => ?_⟩
  · rw [step_xfer hp hrst, xferStep_ok (s := tick s) hb hr]
    rfl
  · rw [step_xfer hp hrst, xferStep_fail (s := tick s) hb hr,
      raise_asserted _ (s := recordBroken b (dropAnswer (tick s))) hsel]
    rfl
  · rw [step_release hp hrst, releaseStep_err (s := tick s) hf]
    rfl
  · rw [step_release hp hrst, releaseStep_ok (s := tick s) herr hr]
    rfl

/-! A failed exchange within a transaction (R114). -/

/-- An instruction that began a transaction is in the state after its acceptance, with its wire layout in `TXBUF`. -/
theorem eq_afterAccept_of_select {i : Instr} {s t : State} (hp : s.phase = .idle) (hexec : exec i s = .next t)
    (hselect : t.phase = .select) :
    wireLayout i.command = some t.txbuf ∧ t = afterAccept i.command t.txbuf s := by
  rw [exec_idle i hp] at hexec
  cases hexec
  have hlayout := txbuf_of_select hselect
  exact ⟨hlayout, commandEffect_of_layout ((acceptedLayout_of_select hselect).trans hlayout)⟩

/-- The state in `RELEASE` after the exchange of the byte `b` failed, the one after the responses `rx`. -/
def brokenTransaction (c : Command) (tx rx : List Byte) (b : Byte) (s : State) : State :=
  { duringTransaction c tx rx s with
    phase := .release
    result := .err .transportFailure
    rst := s.rst.drop (rx.length + 2)
    answers := s.answers.drop (rx.length + 1)
    bus := s.bus ++ [.select] ++ exchanges tx rx ++ [.broken b] }

/-- An exchange that fails raises TransportFailure. -/
theorem step_duringTransaction_fail {c : Command} {tx rx : List Byte} {s : State} {b : Byte}
    (hb : tx[rx.length]? = some b) (hr : chipAnswers b (duringTransaction c tx rx s) = none)
    (hrst : rstAsserted (duringTransaction c tx rx s) = false) :
    step (duringTransaction c tx rx s) = .next (brokenTransaction c tx rx b s) := by
  obtain ⟨hlt, -⟩ := List.getElem?_eq_some_iff.mp hb
  rw [step_xfer (if_neg hlt.ne) hrst, xferStep_fail (s := tick (duringTransaction c tx rx s)) hb hr,
    raise_asserted _ (s := recordBroken b (dropAnswer (tick (duringTransaction c tx rx s)))) rfl]
  simp [recordBroken, dropAnswer, tick, duringTransaction, brokenTransaction]

/-- After a failed exchange the select signal is released and the failure is the result. -/
theorem step_brokenTransaction {c : Command} {tx rx : List Byte} {s : State} {b : Byte}
    (hrst : NoReset (rx.length + 3) s) :
    step (brokenTransaction c tx rx b s) =
      .next (afterTransaction c tx rx (exchanges tx rx ++ [.broken b]) (.err .transportFailure) (rx.length + 1)
        (rx.length + 3) s) := by
  have hrst' : NoReset 1 (brokenTransaction c tx rx b s) := noReset_drop (j := rx.length + 2) hrst rfl
  rw [step_release rfl (noReset_succ hrst').1, releaseStep_err rfl]
  simp [releaseSelect, tick, duringTransaction, brokenTransaction, afterTransaction]

/-- Settles O17: the answered bytes are exchanged one by one, then one exchange fails and `RELEASE` keeps the
failure. -/
theorem transportFailureEndsTheCommand : Obligations.TransportFailureEndsTheCommand := by
  intro i s t rx rest hp hexec hselect hlen hanswers hrst
  obtain ⟨-, ht⟩ := eq_afterAccept_of_select hp hexec hselect
  generalize t.txbuf = tx at *
  subst ht
  have hb : tx[rx.length]? = some (tx.getD rx.length 0x00#8) := by simp [hlen]
  have hr (b : Byte) : chipAnswers b (duringTransaction i.command tx rx s) = none := by
    simp [chipAnswers, duringTransaction, hanswers]
  have hrun := run_exchanges (c := i.command) (Nat.zero_lt_of_lt hlen) rx _ hlen.le hanswers
    (noReset_mono hrst (by omega))
  have hfail := step_duringTransaction_fail hb (hr _) (rstAsserted_duringTransaction (noReset_mono hrst (by omega)))
  rw [run_add hrun 2, run_succ_next hfail, run_one, step_brokenTransaction hrst]

/-! The primitive TRANSACT (R110, R111). -/

/-- The bus in a transaction with the bytes `tx` when the responses `rx` have been received. -/
def onBus (tx rx : List Byte) (s : State) : State :=
  { s with
    sel := .asserted
    answers := s.answers.drop rx.length
    bus := s.bus ++ [.select] ++ exchanges tx rx }

/-- The CHIP answers the sequencer as it answers the primitive: it sees the bus alone. -/
theorem chipAnswers_duringTransaction (c : Command) {tx rx : List Byte} {b : Byte} {s : State} :
    chipAnswers b (duringTransaction c tx rx s) = chipAnswers b (onBus tx rx s) := rfl

/-- `rx` are the CHIP's answers to the first bytes of `tx`. -/
inductive Answered (tx : List Byte) (s : State) : List Byte → Prop where
  | none : Answered tx s []
  | more {rx : List Byte} {b r : Byte} (h : Answered tx s rx) (hb : tx[rx.length]? = some b)
    (hr : chipAnswers b (onBus tx rx s) = some r) : Answered tx s (rx ++ [r])

/-- The two ends of the exchange of bytes: every byte is answered, or one exchange fails. -/
inductive BusXferEnds (tx : List Byte) (s : State) : Option (List Byte) × State → Prop where
  | answered {rx : List Byte} (h : Answered tx s rx) (hlen : rx.length = tx.length) :
    BusXferEnds tx s (some rx, onBus tx rx s)
  | broken {rx : List Byte} {b : Byte} (h : Answered tx s rx) (hb : tx[rx.length]? = some b)
    (hr : chipAnswers b (onBus tx rx s) = none) :
    BusXferEnds tx s (none, recordBroken b (dropAnswer (onBus tx rx s)))

/-- The exchange of the bytes still to be sent, after the responses `rx`. -/
theorem busXfer_ends {tx : List Byte} {s : State} : ∀ {rest rx : List Byte}, tx.drop rx.length = rest →
    rx.length ≤ tx.length → Answered tx s rx → BusXferEnds tx s (busXfer rest rx (onBus tx rx s)) := by
  intro rest
  induction rest with
  | nil =>
    intro rx hrest hlen h
    exact .answered h (hlen.antisymm (List.drop_eq_nil_iff.mp hrest))
  | cons b rest ih =>
    intro rx hrest hlen h
    have hb : tx[rx.length]? = some b := by
      rw [← List.head?_drop, hrest, List.head?_cons]
    cases hr : chipAnswers b (onBus tx rx s) with
    | none =>
      simp only [busXfer, hr]
      exact .broken h hb hr
    | some r =>
      have hnext : { dropAnswer (onBus tx rx s) with bus := (onBus tx rx s).bus ++ [.exchange b r] } =
          onBus tx (rx ++ [r]) s := by
        simp [onBus, dropAnswer, exchanges_concat r hb]
      simp only [busXfer, hr, hnext]
      refine ih ?_ ?_ (.more h hb hr)
      · rw [List.length_append, ← List.drop_drop, hrest]
        rfl
      · obtain ⟨hlt, -⟩ := List.getElem?_eq_some_iff.mp hb
        simpa using hlt

/-- TRANSACT is such an exchange and then the release of the select signal (R111). -/
theorem transact_ends (tx : List Byte) (s : State) :
    ∃ e, BusXferEnds tx s e ∧ transact tx s = (e.1, releaseSelect e.2) := by
  have hstart : { s with sel := .asserted, bus := s.bus ++ [.select] } = onBus tx [] s := by
    simp [onBus, exchanges]
  refine ⟨busXfer tx [] (onBus tx [] s), busXfer_ends rfl (Nat.zero_le _) .none, ?_⟩
  simp only [transact, hstart]

/-! The sequencer's run through a whole transaction (R112, R116). -/

/-- `k` steps lead from `s` to `t`, and the select signal is asserted in every state before `t`. -/
def SelectedRun (k : Nat) (s t : State) : Prop :=
  run k s = .next t ∧ ∀ j, j < k → ∃ v, run j s = .next v ∧ v.sel = .asserted

/-- Such a run goes on while the select signal is asserted. -/
theorem SelectedRun.succ {k : Nat} {s t u : State} (h : SelectedRun k s t) (hsel : t.sel = .asserted)
    (hstep : step t = .next u) : SelectedRun (k + 1) s u := by
  obtain ⟨hrun, hasserted⟩ := h
  refine ⟨by rw [run_add hrun 1, run_one, hstep], fun j hj => ?_⟩
  obtain hlt | rfl := Nat.lt_succ_iff_lt_or_eq.mp hj
  · exact hasserted j hlt
  · exact ⟨t, hrun, hsel⟩

/-- While the CHIP answers, the run exchanges the bytes one by one. -/
theorem selectedRun_of_answered (c : Command) {tx rx : List Byte} {s : State} (htx : 0 < tx.length)
    (h : Answered tx s rx) (hrst : NoReset (rx.length + 1) s) :
    SelectedRun (rx.length + 1) (afterAccept c tx s) (duringTransaction c tx rx s) := by
  induction h with
  | none =>
    have hstart : SelectedRun 0 (afterAccept c tx s) (afterAccept c tx s) := ⟨rfl, nofun⟩
    exact hstart.succ rfl (step_afterAccept htx (noReset_succ hrst).1)
  | more h hb hr ih =>
    rw [List.length_append, List.length_singleton] at hrst ⊢
    exact (ih (noReset_mono hrst (by omega))).succ rfl
      (step_duringTransaction hb ((chipAnswers_duringTransaction c).trans hr) (rstAsserted_duringTransaction hrst))

/-- With every byte answered the run ends with the command's result of the responses. -/
theorem selectedRun_answered {c : Command} {tx rx : List Byte} {s : State} {r : Result} (htx : 0 < tx.length)
    (h : Answered tx s rx) (hlen : rx.length = tx.length) (hr : busResult c rx = some r)
    (hrst : NoReset (tx.length + 2) s) :
    SelectedRun (tx.length + 2) (afterAccept c tx s)
      (afterTransaction c tx rx (exchanges tx rx) r tx.length (tx.length + 2) s) := by
  have hrun := selectedRun_of_answered c htx h (noReset_mono hrst (by omega))
  rw [← hlen] at hrst
  have hlast := hrun.succ rfl (step_duringTransaction_last hlen hr (rstAsserted_duringTransaction hrst))
  rwa [hlen] at hlast

/-- With a failed exchange the run ends with TransportFailure. -/
theorem selectedRun_broken (c : Command) {tx rx : List Byte} {s : State} {b : Byte} (h : Answered tx s rx)
    (hb : tx[rx.length]? = some b) (hr : chipAnswers b (onBus tx rx s) = none) (hrst : NoReset (tx.length + 2) s) :
    SelectedRun (rx.length + 3) (afterAccept c tx s)
      (afterTransaction c tx rx (exchanges tx rx ++ [.broken b]) (.err .transportFailure) (rx.length + 1)
        (rx.length + 3) s) := by
  obtain ⟨hlt, -⟩ := List.getElem?_eq_some_iff.mp hb
  have hrun := selectedRun_of_answered c (Nat.zero_lt_of_lt hlt) h (noReset_mono hrst (by omega))
  have hfail := hrun.succ rfl (step_duringTransaction_fail hb ((chipAnswers_duringTransaction c).trans hr)
    (rstAsserted_duringTransaction (noReset_mono hrst (by omega))))
  exact hfail.succ rfl (step_brokenTransaction (noReset_mono hrst (by omega)))

/-- Everything a transaction can come to, with `rst` released: every byte is answered, or one exchange fails; the
primitive TRANSACT then ends the same way. -/
theorem transaction_ends {c : Command} {tx : List Byte} {s : State} (hlayout : wireLayout c = some tx)
    (hrst : NoReset (tx.length + 2) s) :
    (∃ rx r, rx.length = tx.length ∧ busResult c rx = some r ∧
      transact tx s = (some rx, releaseSelect (onBus tx rx s)) ∧
      SelectedRun (tx.length + 2) (afterAccept c tx s)
        (afterTransaction c tx rx (exchanges tx rx) r tx.length (tx.length + 2) s)) ∨
    (∃ rx b, tx[rx.length]? = some b ∧
      transact tx s = (none, releaseSelect (recordBroken b (dropAnswer (onBus tx rx s)))) ∧
      SelectedRun (rx.length + 3) (afterAccept c tx s)
        (afterTransaction c tx rx (exchanges tx rx ++ [.broken b]) (.err .transportFailure) (rx.length + 1)
          (rx.length + 3) s)) := by
  obtain ⟨e, hends, htransact⟩ := transact_ends tx s
  cases hends with
  | @answered rx h hlen =>
    obtain ⟨r, hr⟩ := busResult_of_layout hlayout hlen
    exact .inl ⟨rx, r, hlen, hr, htransact,
      selectedRun_answered (wireLayout_length_pos hlayout) h hlen hr hrst⟩
  | @broken rx b h hb hr => exact .inr ⟨rx, b, hb, htransact, selectedRun_broken c h hb hr hrst⟩

/-- Settles O14: both ends of the transaction are the primitive's. -/
theorem sequencerAgreesWithTransact : Obligations.SequencerAgreesWithTransact := by
  intro i s t hp hexec hselect hrst
  obtain ⟨hlayout, ht⟩ := eq_afterAccept_of_select hp hexec hselect
  generalize t.txbuf = tx at *
  subst ht
  obtain ⟨rx, r, hlen, hr, htransact, hrun, -⟩ | ⟨rx, b, hb, htransact, hrun, -⟩ := transaction_ends hlayout hrst
  · refine ⟨tx.length + 2, _, le_rfl, hrun, rfl, rfl, ?_⟩
    rw [htransact]
    refine ⟨rfl, congrArg s.answers.drop hlen.symm, nofun, fun rx' hrx' => ?_⟩
    cases hrx'
    exact ⟨hlen, hr⟩
  · obtain ⟨hlt, -⟩ := List.getElem?_eq_some_iff.mp hb
    refine ⟨rx.length + 3, _, by omega, hrun, rfl, rfl, ?_⟩
    rw [htransact]
    exact ⟨by simp [afterTransaction, onBus], by simp [afterTransaction, onBus], fun _ => rfl, nofun⟩

/-! The events of a select window (R112). -/

theorem exchanges_length {tx rx : List Byte} (h : rx.length ≤ tx.length) : (exchanges tx rx).length = rx.length := by
  simp [exchanges, h]

/-- The exchanges send the bytes in index order, one for each response. -/
theorem exchanges_outByte {rx : List Byte} :
    ∀ {tx : List Byte}, rx.length ≤ tx.length →
      (exchanges tx rx).map outByte = (tx.take rx.length).map some := by
  induction rx with
  | nil => simp [exchanges]
  | cons r rx ih =>
    intro tx h
    cases tx with
    | nil => simp at h
    | cons b tx => exact congrArg (some b :: ·) (ih (Nat.le_of_succ_le_succ h))

/-- A failed exchange sends the byte after those answered (log 19). -/
theorem exchanges_broken_outByte {tx rx : List Byte} {b : Byte} (hb : tx[rx.length]? = some b) :
    (exchanges tx rx ++ [BusEvent.broken b]).map outByte = (tx.take (rx.length + 1)).map some := by
  obtain ⟨hlt, -⟩ := List.getElem?_eq_some_iff.mp hb
  rw [List.map_append, exchanges_outByte hlt.le, List.take_add_one, hb, List.map_append]
  rfl

/-- Settles O15: the window of the run holds the exchanges, and after a failure the failed one. -/
theorem oneSelectWindowPerTransaction : Obligations.OneSelectWindowPerTransaction := by
  intro i s t hp hexec hselect hrst
  obtain ⟨hlayout, ht⟩ := eq_afterAccept_of_select hp hexec hselect
  generalize t.txbuf = tx at *
  subst ht
  obtain ⟨rx, r, hlen, -, -, hrun, hasserted⟩ | ⟨rx, b, hb, -, hrun, hasserted⟩ := transaction_ends hlayout hrst
  · have hcount : (exchanges tx rx).length = rx.length := exchanges_length hlen.le
    refine ⟨_, _, exchanges tx rx, hrun, rfl, rfl, rfl, ?_, fun _ => hcount.trans hlen, hasserted⟩
    rw [hcount, exchanges_outByte hlen.le]
  · obtain ⟨hlt, -⟩ := List.getElem?_eq_some_iff.mp hb
    refine ⟨_, _, exchanges tx rx ++ [.broken b], hrun, rfl, rfl, rfl, ?_, nofun, hasserted⟩
    rw [exchanges_broken_outByte hb, List.length_append, exchanges_length hlt.le]
    rfl

/-! The end of every command (R249). -/

/-- A transaction ends within two steps more than it has bytes, with a result the command can have. -/
theorem transaction_ends_bounded {c : Command} {tx : List Byte} {s : State} (hlayout : wireLayout c = some tx)
    (hrst : NoReset (tx.length + 2) s) :
    ∃ k u, k ≤ tx.length + 2 ∧ run k (afterAccept c tx s) = .next u ∧ u.phase = .done ∧ u.sel = .released ∧
      resultFits c u.result := by
  obtain ⟨rx, r, hlen, hr, -, hrun, -⟩ | ⟨rx, b, hb, -, hrun, -⟩ := transaction_ends hlayout hrst
  · exact ⟨_, _, le_rfl, hrun, rfl, rfl, resultFits_busResult hlayout hlen hr⟩
  · obtain ⟨hlt, -⟩ := List.getElem?_eq_some_iff.mp hb
    exact ⟨_, _, by omega, hrun, rfl, rfl, resultFits_transportFailure hlayout⟩

/-- Settles O16: a command starts a transaction, or it is in `DONE` at once. -/
theorem everyCommandEndsInBoundedSteps : Obligations.EveryCommandEndsInBoundedSteps := by
  rintro i s t ⟨hp, hsel⟩ hexec hrst
  rw [exec_idle i hp] at hexec
  cases hexec
  obtain ⟨tx, hlayout, h⟩ | ⟨f, hf, -, h⟩ | ⟨bits, r, hr, -, -, h⟩ := commandEffect_cases i.command s
  · have haccepted : acceptedLayout s.params i.command = some tx :=
      (acceptedLayout_of_select (congrArg State.phase h)).trans hlayout
    rw [haccepted] at hrst ⊢
    rw [h, startTransaction_eq]
    exact transaction_ends_bounded hlayout hrst
  · rw [h, raise_released f (s := latch i.command s) hsel]
    exact ⟨0, _, Nat.zero_le _, rfl, rfl, hsel, hf⟩
  · rw [h]
    exact ⟨0, _, Nat.zero_le _, rfl, rfl, hsel, hr⟩

end Sys2Proof.Machine
end

