-- ==== Sys2Proof/Proofs/RegisterAccess.lean ====
section
/-! SUPPORT. The statements of the family spec/41_register_access.md: READ_BURST under each `BURST_ADDR_OVERFLOW`. Whether
it is rejected (R127) decides between the failure at acceptance and the transaction. -/

namespace Sys2Proof.Machine

open Sys2Proof.Config
open Sys2Proof.Safety

/-! When READ_BURST is rejected (R127). -/

theorem burstRejected_of_wrap {p : Params} (addr : Addr) (length : Nat) (h : p.burstAddrOverflow = .wrap) :
    burstRejected p addr length = false := by
  simp [burstRejected, h]

/-- Under `fault` the sums decide alone. -/
theorem burstRejected_eq_false_iff_of_fault {p : Params} (addr : Addr) (length : Nat)
    (h : p.burstAddrOverflow = .fault) : burstRejected p addr length = false ↔ addr.toNat + 8 * length ≤ 255 := by
  rw [← Bool.not_eq_true, burstRejected_iff]
  simp [h]

/-! What an accepted READ_BURST does, rejected or not (R127). -/

theorem acceptedLayout_readBurst {p : Params} {addr : Addr} {length : Nat} (h : burstRejected p addr length = false) :
    acceptedLayout p (.readBurst addr length) = some (burstBytes addr length) :=
  if_neg (Bool.eq_false_iff.mp h)

theorem commandEffect_readBurst_of_rejected {addr : Addr} {length : Nat} {s : State}
    (h : burstRejected s.params addr length = true) :
    commandEffect (.readBurst addr length) s =
      raise (.burstAddressOverflow length) (latch (.readBurst addr length) s) := by
  simp only [commandEffect, startReadBurst, h]

theorem commandEffect_readBurst_of_not_rejected {addr : Addr} {length : Nat} {s : State}
    (h : burstRejected s.params addr length = false) :
    commandEffect (.readBurst addr length) s = afterAccept (.readBurst addr length) (burstBytes addr length) s :=
  commandEffect_of_layout (acceptedLayout_readBurst h)

/-- READ_BURST starts a transaction exactly where it is not rejected. -/
theorem commandEffect_readBurst_select_iff {addr : Addr} {length : Nat} {s : State} :
    (commandEffect (.readBurst addr length) s).phase = .select ↔ burstRejected s.params addr length = false := by
  cases h : burstRejected s.params addr length with
  | true =>
    rw [commandEffect_readBurst_of_rejected h, raise_phase]
    split <;> simp
  | false => simp [commandEffect_readBurst_of_not_rejected h, afterAccept]

/-- A byte of a burst read is its sum modulo 256 with the mode bits (R127). -/
theorem burstBytes_eq_wrapped (addr : Addr) (length : Nat) :
    burstBytes addr length =
      (List.range (length + 1)).map fun k => BitVec.ofNat 8 ((addr.toNat + 8 * k) % 256) ||| 0xC0#8 := by
  refine List.map_congr_left fun k _ => congrArg (· ||| 0xC0#8) (BitVec.eq_of_toNat_eq ?_)
  simp only [burstSum, burstStride, BitVec.toNat_ofNat]
  omega

/-! The statements. -/

/-- Settles O35: under `wrap` nothing is rejected, and the bytes of the wire layout are the sums modulo 256. -/
theorem readBurstWrapsWhereItMay : Obligations.ReadBurstWrapsWhereItMay := by
  intro addr length
  rw [← burstBytes_eq_wrapped]
  have hport : RunsOnBus (fun s => s.params.burstAddrOverflow = .wrap) (.readBurst addr length)
      (burstBytes addr length) .okBytes :=
    runsOnBus_of_layout (fun _ hwrap => acceptedLayout_readBurst (burstRejected_of_wrap addr length hwrap))
      fun _ _ => rfl
  exact ⟨hport, runsOnBus_of_command_eq rfl hport⟩

/-- Settles O36: at rest the select signal is released, so the failure under `fault` ends the command at once. -/
theorem burstAddressOverflowIsRejected : Obligations.BurstAddressOverflowIsRejected := by
  rintro addr length s ⟨hp, hsel⟩ hover
  have hwire := exec_portInstr (.wireReadBurst addr length) s
  refine ⟨fun hfault => ⟨?_, hwire.symm⟩, fun hwrap => ?_⟩
  · rw [exec_idle _ hp]
    have hrejected := (burstRejected_iff s.params addr length).mpr ⟨hover, hfault⟩
    exact congrArg Host.Outcome.next ((commandEffect_readBurst_of_rejected hrejected).trans
      (raise_released _ (s := latch (.readBurst addr length) s) hsel))
  · have hport : exec (.readBurst addr length) s =
        .next (afterAccept (.readBurst addr length) (burstBytes addr length) s) := by
      rw [exec_idle _ hp]
      exact congrArg Host.Outcome.next
        (commandEffect_readBurst_of_not_rejected (burstRejected_of_wrap addr length hwrap))
    exact ⟨_, hport, hwire.symm.trans hport, rfl, rfl, burstBytes_length addr length⟩

/-- Settles O38: the start of the transaction is the bound `addr + 8 * length ≤ 255` on the sums, solved for the
length. -/
theorem longestBurstFromAnAddress : Obligations.LongestBurstFromAnAddress := by
  rintro addr length s ⟨hp, -⟩ hfault
  have haddr : addr.toNat < 64 := addr.isLt
  calc (∃ t, exec (.readBurst addr length) s = .next t ∧ t.phase = .select)
      ↔ (commandEffect (.readBurst addr length) s).phase = .select := by simp [exec_idle _ hp, Instr.command]
    _ ↔ addr.toNat + 8 * length ≤ 255 :=
        commandEffect_readBurst_select_iff.trans (burstRejected_eq_false_iff_of_fault addr length hfault)
    _ ↔ length ≤ (255 - addr.toNat) / 8 := by omega

end Sys2Proof.Machine
end

