-- ==== Sys2Proof/Proofs/Strobes.lean ====
section
/-! SUPPORT. The statements of the family spec/42_strobes.md. The code decides between the failure at acceptance and the
transaction (R141), and a named strobe is STROBE with its code (R142 to R155). -/

namespace Sys2Proof.Machine

open Sys2Proof.Config
open Sys2Proof.Safety

/-! STROBE with a code outside the fourteen (R141). -/

theorem commandEffect_strobe_of_illegal {code : Addr} (s : State) (h : isStrobeCode code = false) :
    commandEffect (.strobe code) s = raise (.illegalStrobe code) (latch (.strobe code) s) :=
  if_neg (Bool.eq_false_iff.mp h)

/-- Settles O28: at rest the select signal is released, so the failure ends the command at once; a code of the range
starts the transaction of O27. -/
theorem illegalStrobeIsRejected : Obligations.IllegalStrobeIsRejected := by
  rintro code s ⟨hp, hsel⟩
  refine ⟨fun houtside => ?_, fun ⟨hlow, hhigh⟩ => ?_⟩
  · have hillegal : isStrobeCode code = false := by
      rw [Bool.eq_false_iff, ne_eq, isStrobeCode_iff]
      omega
    rw [exec_idle _ hp]
    exact congrArg Host.Outcome.next ((commandEffect_strobe_of_illegal s hillegal).trans
      (raise_released _ (s := latch (.strobe code) s) hsel))
  · exact ⟨_, (strobeSendsCodeAndFiller code hlow hhigh s hp trivial).1, rfl⟩

/-! The named strobes (R142 to R155). -/

/-- A named strobe is STROBE with the code that names it. -/
theorem command_of_namedStrobe {code : Addr} {i : Instr} (h : namedStrobe code = some i) :
    i.command = .strobe code := by
  have key : ∀ code : Addr, (namedStrobe code).all fun i => decide (i.command = .strobe code) := by decide
  simpa [h] using key code

/-- Only the fourteen codes name a strobe. -/
theorem isStrobeCode_of_namedStrobe {code : Addr} {i : Instr} (h : namedStrobe code = some i) :
    isStrobeCode code = true := by
  rw [← Bool.not_eq_false, ← namedStrobe_none_iff, h]
  nofun

/-- A named strobe sends its code and the filler and returns both response bytes (R81). -/
theorem runsOnBus_of_namedStrobe (code : Addr) {i : Instr} (h : namedStrobe code = some i) :
    RunsOnBus (fun _ => True) i [code.setWidth 8, 0x00#8] .okBytes := by
  obtain ⟨hlow, hhigh⟩ := (isStrobeCode_iff code).mp (isStrobeCode_of_namedStrobe h)
  exact runsOnBus_of_command_eq (i := .strobe code) (command_of_namedStrobe h).symm
    (strobeSendsCodeAndFiller code hlow hhigh)

/-- Settles O29: each is the strobe its code names. -/
theorem namedStrobesResetToIdle : Obligations.NamedStrobesResetToIdle :=
  ⟨runsOnBus_of_namedStrobe 0x30#6 rfl, runsOnBus_of_namedStrobe 0x31#6 rfl, runsOnBus_of_namedStrobe 0x32#6 rfl,
    runsOnBus_of_namedStrobe 0x33#6 rfl, runsOnBus_of_namedStrobe 0x34#6 rfl, runsOnBus_of_namedStrobe 0x35#6 rfl,
    runsOnBus_of_namedStrobe 0x36#6 rfl⟩

/-- Settles O30: each is the strobe its code names. -/
theorem namedStrobes37ToNop : Obligations.NamedStrobes37ToNop :=
  ⟨runsOnBus_of_namedStrobe 0x37#6 rfl, runsOnBus_of_namedStrobe 0x38#6 rfl, runsOnBus_of_namedStrobe 0x39#6 rfl,
    runsOnBus_of_namedStrobe 0x3A#6 rfl, runsOnBus_of_namedStrobe 0x3B#6 rfl, runsOnBus_of_namedStrobe 0x3C#6 rfl,
    runsOnBus_of_namedStrobe 0x3D#6 rfl⟩

end Sys2Proof.Machine
end

