-- ==== Sys2Proof/Proofs/PacketFramer.lean ====
section
/-! SUPPORT. The statements of the family spec/43_packet_framer.md. What FRAME_TX and DECODE_RX do is said once for each
check of R162, R163 and R168; a frame is then read as the bytes it packs (R165), and unpacking gives its bits back
(R170). -/

namespace Sys2Proof.Machine

open Sys2Proof.Safety

/-! The bits of bytes and of the sync word (R13, R55, R56). -/

/-- The bits of a byte by their position, the earlier the more significant. -/
theorem bits8_getElem? (b : Byte) {m : Nat} (h : m < 8) : (bits8 b)[m]? = some (b.getLsbD (7 - m)) := by
  have hmap : bits8 b = (List.range 8).map fun k => b.getLsbD (7 - k) := rfl
  simp [hmap, h]

theorem bits16_eq_map (w : SyncWord) : bits16 w = (List.range 16).map fun k => w.getLsbD (15 - k) := by
  simp [bits16, bits8, List.range_succ]

/-- The bits of byte `k` are the `k`-th group of eight (R165). -/
theorem unpackBytes_group {bs : List Byte} : ∀ {k : Nat} {b : Byte}, bs[k]? = some b →
    ((unpackBytes bs).drop (8 * k)).take 8 = bits8 b := by
  induction bs with
  | nil => nofun
  | cons c bs ih =>
    rintro (_ | k) b h
    · obtain rfl : c = b := by simpa using h
      exact List.take_left (l₁ := bits8 c) (l₂ := unpackBytes bs)
    · have hdrop : (unpackBytes (c :: bs)).drop (8 * (k + 1)) = (unpackBytes bs).drop (8 * k) := by
        rw [Nat.mul_succ, Nat.add_comm]
        exact List.drop_length_add_append (l₁ := bits8 c) (8 * k)
      rw [hdrop, ih (by simpa using h)]

/-- Bit `m` of group `j` is bit `7 - m` of byte `j` (R165). -/
theorem unpackBytes_bit {bs : List Byte} {j m : Nat} {b : Byte} (h : bs[j]? = some b) (hm : m < 8) :
    (unpackBytes bs)[8 * j + m]? = some (b.getLsbD (7 - m)) := by
  rw [← bits8_getElem? b hm, ← unpackBytes_group h, List.getElem?_take_of_lt hm, List.getElem?_drop]

/-- Byte `k` of whole bytes packed holds the `k`-th group of eight bits (R165). -/
theorem packBits_group {l : List Bit} {n k : Nat} (h : l.length = 8 * n) (hk : k < n) :
    ((packBits l)[k]?).map bits8 = some ((l.drop (8 * k)).take 8) := by
  obtain ⟨bs, hn, rfl⟩ := exists_unpackBytes h
  have hbyte : bs[k]? = some bs[k] := List.getElem?_eq_getElem (hn ▸ hk)
  rw [packBits_unpackBytes, unpackBytes_group hbyte, hbyte, Option.map_some]

/-- Bit `7 - m` of byte `j` of whole bytes packed is bit `8j + m` (R165). -/
theorem packBits_bit {l : List Bit} {n j m : Nat} (h : l.length = 8 * n) (hj : j < n) (hm : m < 8) :
    ((packBits l)[j]?).map (fun b => b.getLsbD (7 - m)) = l[8 * j + m]? := by
  obtain ⟨bs, hn, rfl⟩ := exists_unpackBytes h
  have hbyte : bs[j]? = some bs[j] := List.getElem?_eq_getElem (hn ▸ hj)
  rw [packBits_unpackBytes, unpackBytes_bit hbyte hm, hbyte, Option.map_some]

/-! The frame as bits and as bytes (R160, R165). -/

/-- The bits of a frame, with the padding and the sync word written out. -/
theorem frameBits_eq (payload : List Bit) (sync : SyncWord) :
    frameBits payload sync =
      (List.replicate ((496 - payload.length) / 8) [true, false, true, false, true, false, true, false]).flatten ++
        (List.range 16).map (fun k => sync.getLsbD (15 - k)) ++ payload := by
  rw [frameBits, bits16_eq_map]
  rfl

/-- The padding is the bits of bytes `0xAA`. -/
theorem padding_eq_unpackBytes (n : Nat) : padding n = unpackBytes (List.replicate n 0xAA#8) := by
  rw [padding, unpackBytes, List.flatMap_replicate]
  rfl

/-- The bytes of a frame: `0xAA` through the padding, the two bytes of the sync word, the bytes of the payload. -/
theorem packBits_frameBits (payload : List Bit) (sync : SyncWord) :
    packBits (frameBits payload sync) =
      List.replicate ((496 - payload.length) / 8) 0xAA#8 ++ [sync.extractLsb' 8 8, sync.extractLsb' 0 8] ++
        packBits payload := by
  have hsync : bits16 sync = unpackBytes [sync.extractLsb' 8 8, sync.extractLsb' 0 8] := rfl
  rw [frameBits, paddingBytes_eq, padding_eq_unpackBytes, hsync, ← unpackBytes_append, packBits_unpackBytes_append]

theorem packBits_frameBits_length {payload : List Bit} (sync : SyncWord) (h : payload.length ≤ 496)
    (h8 : payload.length % 8 = 0) : (packBits (frameBits payload sync)).length = 64 :=
  packBits_length (frameBits_length sync h h8)

/-- Unpacking an accepted frame gives the bits that were packed (R170). -/
theorem unpackBytes_frame {payload : List Bit} (sync : SyncWord) (h : payload.length ≤ 496)
    (h8 : payload.length % 8 = 0) : unpackBytes (packBits (frameBits payload sync)) = frameBits payload sync :=
  unpackBytes_packBits (n := 64) (frameBits_length sync h h8)

/-- The payload stands behind the padding and the sixteen bits of the sync word. -/
theorem frameBits_drop (payload : List Bit) (sync : SyncWord) :
    (frameBits payload sync).drop (8 * ((496 - payload.length) / 8) + 16) = payload :=
  List.drop_left' (by simp [paddingBytes_eq])

/-! FRAME_TX and DECODE_RX by the outcome of their checks (R160 to R163, R167, R168). -/

/-- At rest the select signal is released, so a failure at acceptance ends the command at once (R213). -/
theorem exec_of_raise_atRest {i : Instr} {f : Failure} {s : State} (hs : AtRest s)
    (h : commandEffect i.command s = raise f (latch i.command s)) :
    exec i s = .next { s with op := i.command, result := .err f, phase := .done } := by
  obtain ⟨hp, hsel⟩ := hs
  rw [exec_idle i hp, h]
  exact congrArg Host.Outcome.next (raise_released f (s := latch i.command s) hsel)

theorem commandEffect_frameTx_of_long {payload : List Bit} (sync : SyncWord) (s : State) (h : 496 < payload.length) :
    commandEffect (.frameTx payload sync) s =
      raise (.frameOverflow payload.length) (latch (.frameTx payload sync) s) :=
  if_pos ((frameOverflows_iff _).mpr h)

/-- The check of the alignment comes after the check of the length (R162, R163). -/
theorem commandEffect_frameTx_of_misaligned {payload : List Bit} (sync : SyncWord) (s : State)
    (h : payload.length ≤ 496) (h8 : payload.length % 8 ≠ 0) :
    commandEffect (.frameTx payload sync) s =
      raise (.frameNotByteAligned payload.length) (latch (.frameTx payload sync) s) :=
  (if_neg ((frameOverflows_iff _).not.mpr (by omega))).trans (if_pos ((frameMisaligned_iff _).mpr h8))

/-- An accepted payload is framed in one step (R160). -/
theorem exec_frameTx_of_accepted {payload : List Bit} (sync : SyncWord) {s : State} (hp : s.phase = .idle)
    (h : payload.length ≤ 496) (h8 : payload.length % 8 = 0) :
    exec (.frameTx payload sync) s =
      .next (complete (.okFrame (packBits (frameBits payload sync)) 64)
        (setBits (frameBits payload sync) (latch (.frameTx payload sync) s))) := by
  have hlong := (frameOverflows_iff payload.length).not.mpr (by omega)
  have hpart := (frameMisaligned_iff payload.length).not.mpr (by omega)
  rw [exec_idle _ hp, Instr.command, commandEffect, if_neg hlong, if_neg hpart, frameBits_length sync h h8]

/-- DECODE_RX drops the status byte and unpacks the rest in one step (R167). -/
theorem exec_decodeRx_cons (status : Byte) (body : List Byte) {s : State} (hp : s.phase = .idle) :
    exec (.decodeRx (status :: body)) s =
      .next (complete (.okBits (unpackBytes body))
        (setBits (unpackBytes body) (latch (.decodeRx (status :: body)) s))) := by
  rw [exec_idle _ hp]
  rfl

/-! The statements. -/

/-- Settles O39: the bit buffer is `frameBits` with its padding and sync word written out. -/
theorem frameTxBuildsTheFrame : Obligations.FrameTxBuildsTheFrame := fun payload sync _ hp h h8 =>
  ⟨frameBits payload sync, frameBits_eq payload sync, frameBits_length sync h h8, packBits_frameBits_length sync h h8,
    exec_frameTx_of_accepted sync hp h h8⟩

/-- Settles O40: the frame is the bytes of `packBits_frameBits`, whose groups of bits are the bit buffer and whose end
packs the payload. -/
theorem frameByteLayout : Obligations.FrameByteLayout := by
  intro payload sync s hp h h8
  refine ⟨_, _, exec_frameTx_of_accepted sync hp h h8, rfl, packBits_frameBits_length sync h h8,
    fun k hk => packBits_group (frameBits_length sync h h8) hk, ?_⟩
  rw [packBits_frameBits]
  refine ⟨fun k hk => ?padding, ?high, ?low, fun j m hj hm => ?body⟩
  case padding => simp [List.getElem?_append, hk]
  case high => simp
  case low => simp
  case body =>
    rw [List.getElem?_append_right (by simp), ← packBits_bit (n := payload.length / 8) (by omega) hj hm]
    simp

/-- Settles O43: the bits of `unpackBytes`, most significant first. -/
theorem decodeRxReturnsTheBits : Obligations.DecodeRxReturnsTheBits := fun status body _ hp =>
  ⟨unpackBytes body, rfl, unpackBytes_length body, exec_decodeRx_cons status body hp⟩

/-- Settles O45: DECODE_RX unpacks what FRAME_TX packed. -/
theorem frameRoundTrip : Obligations.FrameRoundTrip := by
  intro status payload sync s v hps hpv h h8
  have hdecode := exec_decodeRx_cons status (packBits (frameBits payload sync)) hpv
  rw [unpackBytes_frame sync h h8] at hdecode
  exact ⟨_, _, _, exec_frameTx_of_accepted sync hps h h8, rfl, hdecode, rfl, frameBits_eq payload sync,
    frameBits_drop payload sync⟩

/-- Settles O41: the check of the length comes first. -/
theorem frameOverflowIsRejectedFirst : Obligations.FrameOverflowIsRejectedFirst := fun _ sync s hs h =>
  exec_of_raise_atRest hs (commandEffect_frameTx_of_long sync s h)

/-- Settles O42: padding and sync word are whole bytes, so the payload alone decides. -/
theorem frameNotByteAlignedIsRejected : Obligations.FrameNotByteAlignedIsRejected := fun _ sync s hs h =>
  ⟨by omega, fun h8 => exec_of_raise_atRest hs (commandEffect_frameTx_of_misaligned sync s h h8)⟩

/-- Settles O44: nothing is decoded where there is no status byte. -/
theorem emptyBurstIsRejected : Obligations.EmptyBurstIsRejected := fun _ hs =>
  exec_of_raise_atRest hs rfl

end Sys2Proof.Machine
end

