-- ==== Sys2Proof/Proofs/HostObligations.lean ====
section
/-! SUPPORT. Of the family spec/44_host_sequences.md, what every step keeps of the HOST: it does not use a CHIP whose
configuration is in doubt (R183, R239), and it is in a path only under that path's profile and after R235's preparation
(R236). What a step can do to the HOST's lines is said once, in `HostMove`. -/

namespace Sys2Proof.Machine

open Sys2Proof.Config
open Sys2Proof.Safety

/-! The block's steps leave the HOST alone (R5 a); only its own turn and the taking of a result change it. -/

@[simp] theorem commandEffect_host (c : Command) (s : State) : (commandEffect c s).host = s.host := by
  obtain ⟨_, -, h⟩ | ⟨_, -, -, h⟩ | ⟨_, _, -, -, -, h⟩ := commandEffect_cases c s
  · rw [h, startTransaction_host]
  · rw [h, raise_host, latch_host]
  · rw [h, complete_host, setBits_host, latch_host]

theorem xferStep_host {s t : State} (h : xferStep s = .next t) : t.host = s.host := by
  obtain ⟨b, -, ⟨r, -, rfl⟩ | ⟨-, rfl⟩⟩ := xferStep_cases h
  · rw [recordExchange_host, dropAnswer_host]
  · rw [raise_host, recordBroken_host, dropAnswer_host]

theorem releaseStep_host {s t : State} (h : releaseStep s = .next t) : t.host = s.host := by
  obtain ⟨-, rfl⟩ | ⟨-, r, -, rfl⟩ := releaseStep_cases h
  · exact releaseSelect_host s
  · rw [complete_host, releaseSelect_host]

/-- A step leaves the HOST as it is, is its turn, or is the taking of a result. -/
theorem step_host_cases {s t : State} (h : step s = .next t) :
    t.host = s.host ∨ t.host = (hostTurn (tick s)).host ∨ ∃ r, t.host = hostTake r s.host := by
  obtain ⟨-, rfl⟩ | ⟨-, ⟨hp, w, i, -, -, hexec⟩ | ⟨-, -, rfl⟩ | ⟨-, rfl⟩ | ⟨-, hxfer⟩ | ⟨-, hrelease⟩ | ⟨-, rfl⟩⟩ :=
    step_cases h
  · exact .inl rfl
  · rw [exec_idle i (s := takePort (tick s)) hp] at hexec
    cases hexec
    exact .inl (commandEffect_host i.command _)
  · exact .inr (.inl rfl)
  · exact .inl rfl
  · exact .inl (xferStep_host (s := tick s) hxfer)
  · exact .inl (releaseStep_host (s := tick s) hrelease)
  · exact .inr (.inr ⟨_, rfl⟩)

/-! What a step can do to the HOST's lines. -/

/-- The trust, the mode in force and the preparation are the same. -/
structure SameConfig (h t : HostState) : Prop where
  trust : t.trust = h.trust
  mode : t.mode = h.mode
  prepared : t.prepared = h.prepared

/-- Two lines that are the same poll, but for the reads still allowed. -/
inductive SamePoll : HostOp → HostOp → Prop where
  | idle (m n : Nat) : SamePoll (.pollIdle m) (.pollIdle n)
  | drained (m n : Nat) : SamePoll (.pollDrained m) (.pollDrained n)
  | pin (level : Bool) (m n : Nat) : SamePoll (.pollPin level m) (.pollPin level n)

/-- `ops` are the lines left when the line `op` before `rest` was done: a poll may have to be done once more. -/
def LeavesLines (op : HostOp) (rest ops : List HostOp) : Prop :=
  ops = rest ∨ ∃ again, SamePoll op again ∧ ops = again :: rest

/-- What one step can make of a HOST's lines and of what it knows of the CHIP's configuration. -/
inductive HostMove (h t : HostState) : Prop where
  /-- The lines stay. -/
  | stays (hconfig : SameConfig h t) (hops : t.ops = h.ops)
  /-- The sequence is given up: its command cannot be presented, or its poll timed out. -/
  | givesUp (hconfig : SameConfig h t) (hops : t.ops = [])
  /-- The sequence `q` begins. -/
  | begins (p : Params) (q : HostSeq) (hconfig : SameConfig h t) (hmay : mayBegin h.trust h.prepared q = true)
    (hswitch : switchNeeded h.mode q = none) (hops : t.ops = expand p h.profiles q)
  /-- The profile of a path's mode is to be applied before it. -/
  | switches (q : HostSeq) (mode : RadioMode) (table : List (Addr × Byte)) (hconfig : SameConfig h t)
    (hmay : mayBegin h.trust h.prepared q = true) (hswitch : switchNeeded h.mode q = some mode)
    (hops : t.ops = applyConfigOps (some mode) table)
  /-- A line failed. -/
  | fails (op : HostOp) (htrust : t.trust = trustAfterFailure op h.trust) (hops : t.ops = [])
  /-- A line is done, which is not the end of a configuration sequence. -/
  | succeeds (op : HostOp) (rest : List HostOp) (hat : h.ops = op :: rest)
    (htrust : t.trust = trustAfterSuccess op h.trust) (hmode : t.mode = modeAfterSuccess op h.mode)
    (hprepared : t.prepared = preparedAfterSuccess op h.prepared) (hops : LeavesLines op rest t.ops)
  /-- A table is written whole. -/
  | configDone (profile : Option RadioMode) (rest : List HostOp) (hat : h.ops = .configDone profile :: rest)
    (htrust : t.trust = trustAfterTable h.trust) (hops : t.ops = rest)
  /-- A parameter is set. -/
  | loaderDone (part : LinkPart) (rest : List HostOp) (hat : h.ops = .loaderDone part :: rest)
    (htrust : t.trust = h.trust) (hops : t.ops = rest)

/-- Only an `S_RESET` changes how far the HOST may use the CHIP. -/
theorem trustAfterSuccess_of_noReset {op : HostOp} (h : lineResetsChip op = false) (t : ConfigTrust) :
    trustAfterSuccess op t = t := by
  simp [trustAfterSuccess, h]

/-- A line that is no `S_RESET` leaves what the HOST knows of the configuration. -/
theorem HostMove.of_sameConfig {h t : HostState} {op : HostOp} {rest : List HostOp} (hat : h.ops = op :: rest)
    (hreset : lineResetsChip op = false) (hconfig : SameConfig h t) (hops : LeavesLines op rest t.ops) :
    HostMove h t := by
  obtain ⟨htrust, hmode, hprepared⟩ := hconfig
  refine .succeeds op rest hat ?_ ?_ ?_ hops
  · rw [trustAfterSuccess_of_noReset hreset, htrust]
  · simp [modeAfterSuccess, hreset, hmode]
  · simp [preparedAfterSuccess, hreset, hprepared]

theorem beginSeq_move (p : Params) (q : HostSeq) (queue : List HostSeq) (h : HostState) :
    HostMove h (beginSeq p q queue h) := by
  obtain ⟨hmay, hswitch, hbegin⟩ | ⟨mode, hmay, hswitch, hbegin⟩ | ⟨-, hbegin⟩ := beginSeq_cases p q queue h
  · rw [hbegin]
    exact .begins p q ⟨rfl, rfl, rfl⟩ hmay hswitch rfl
  · rw [hbegin]
    exact .switches q mode _ ⟨rfl, rfl, rfl⟩ hmay hswitch rfl
  · rw [hbegin]
    exact .stays ⟨rfl, rfl, rfl⟩ rfl

/-- A line without a command: a poll goes on or times out, a delay or a report is done, or a configuration sequence
ends. -/
theorem hostLocal_move {op : HostOp} {rest : List HostOp} {s : State} (hat : s.host.ops = op :: rest)
    (hcmd : hostCommand s.params s.host op = none) : HostMove s.host (hostLocal op rest s).host := by
  cases op with
  | pollIdle n | pollDrained n =>
    cases n with
    | zero => exact .givesUp ⟨rfl, rfl, rfl⟩ rfl
    | succ n => cases hcmd
  | pollPin level n =>
    cases n with
    | zero => exact .givesUp ⟨rfl, rfl, rfl⟩ rfl
    | succ n =>
      simp only [hostLocal]
      split
      · exact .of_sameConfig hat rfl ⟨rfl, rfl, rfl⟩ (.inl rfl)
      · exact .of_sameConfig hat rfl ⟨rfl, rfl, rfl⟩ (.inr ⟨_, .pin level (n + 1) n, rfl⟩)
  | configDone profile => exact .configDone profile rest hat rfl rfl
  | loaderDone part => exact .loaderDone part rest hat rfl rfl
  | settle | report => exact .of_sameConfig hat rfl ⟨rfl, rfl, rfl⟩ (.inl rfl)
  | _ => cases hcmd

theorem hostTurn_move (s : State) : HostMove s.host (hostTurn s).host := by
  obtain ⟨h, -⟩ | ⟨-, -, q, queue, -, h⟩ | ⟨-, op, rest, hat, ⟨hcmd, h⟩ | ⟨i, -, ⟨-, h⟩ | ⟨-, h⟩⟩⟩ := hostTurn_cases s
  · rw [h]
    exact .stays ⟨rfl, rfl, rfl⟩ rfl
  · rw [h]
    exact beginSeq_move s.params q queue s.host
  · rw [h]
    exact hostLocal_move hat hcmd
  · rw [h]
    exact .stays ⟨rfl, rfl, rfl⟩ rfl
  · rw [h]
    exact .givesUp ⟨rfl, rfl, rfl⟩ rfl

/-- With a result that is no failure the line is done, or its poll is done once more. -/
theorem hostTake_ok_move {h : HostState} {op : HostOp} {rest : List HostOp} {r : Result} (hwait : h.waiting = true)
    (hat : h.ops = op :: rest) (hr : isErr r = false) : HostMove h (hostTake r h) := by
  rw [hostTake_ok hwait hat hr]
  obtain ⟨htrust, -, -, hmode, hprepared, hops⟩ := afterResult_cases op r
    { h with
      taken := some r, ops := rest, waiting := false, trust := trustAfterSuccess op h.trust,
      mode := modeAfterSuccess op h.mode, prepared := preparedAfterSuccess op h.prepared }
  refine .succeeds op rest hat htrust hmode hprepared ?_
  obtain hops | ⟨n, rfl, hops⟩ | ⟨n, rfl, hops⟩ := hops
  · exact .inl hops
  · exact .inr ⟨_, .idle n (n - 1), hops⟩
  · exact .inr ⟨_, .drained n (n - 1), hops⟩

theorem hostTake_move (r : Result) (h : HostState) : HostMove h (hostTake r h) := by
  cases hwait : h.waiting with
  | false =>
    rw [hostTake_idle hwait]
    exact .stays ⟨rfl, rfl, rfl⟩ rfl
  | true =>
    cases hat : h.ops with
    | nil =>
      have htake : hostTake r h = { h with taken := some r, waiting := false } := by simp [hostTake, hwait, hat]
      rw [htake]
      exact .stays ⟨rfl, rfl, rfl⟩ rfl
    | cons op rest =>
      cases r with
      | err f =>
        rw [hostTake_err hwait hat]
        exact .fails op rfl rfl
      | _ => exact hostTake_ok_move hwait hat rfl

theorem step_hostMove {s t : State} (h : step s = .next t) : HostMove s.host t.host := by
  obtain hhost | hhost | ⟨r, hhost⟩ := step_host_cases h
  · rw [hhost]
    exact .stays ⟨rfl, rfl, rfl⟩ rfl
  · rw [hhost]
    exact hostTurn_move (tick s)
  · rw [hhost]
    exact hostTake_move r s.host

/-! No use of a CHIP whose configuration is in doubt (R183, R239). -/

/-- Nothing to do is no use of the CHIP. -/
theorem linesWhileInDoubt_nil (t : ConfigTrust) : LinesWhileInDoubt t [] := by
  cases t with
  | trusted => trivial
  | needsReset | needsTable => exact .inl rfl

/-- An APPLY_CONFIG is at a row, or at its end. -/
theorem applyConfigOps_eq_cons {profile : Option RadioMode} {table : List (Addr × Byte)} {op : HostOp}
    {rest : List HostOp} (h : op :: rest = applyConfigOps profile table) :
    (op = .configDone profile ∧ rest = []) ∨
      ∃ addr value rows, op = .configWrite addr value ∧ rest = applyConfigOps profile rows := by
  cases table with
  | nil => exact .inl (List.cons.inj h)
  | cons row rows => exact .inr ⟨row.1, row.2, rows, List.cons.inj h⟩

/-- The first line of those the HOST may have to do in doubt, and the lines after it. -/
theorem linesWhileInDoubt_cons {t : ConfigTrust} {op : HostOp} {rest : List HostOp} (ht : t ≠ .trusted)
    (h : LinesWhileInDoubt t (op :: rest)) :
    (∃ i, op = .command i ∧ rest = []) ∨
      (∃ profile table, op = .loader .sReset ∧ rest = applyConfigOps profile table) ∨
      (t = .needsTable ∧ ((∃ profile, op = .configDone profile ∧ rest = []) ∨
        ∃ addr value profile rows, op = .configWrite addr value ∧ rest = applyConfigOps profile rows)) := by
  cases t with
  | trusted => exact absurd rfl ht
  | needsReset =>
    obtain hnil | ⟨i, -, hone⟩ | ⟨profile, table, hrecover⟩ := h
    · cases hnil
    · exact .inl ⟨i, List.cons.inj hone⟩
    · exact .inr (.inl ⟨profile, table, List.cons.inj hrecover⟩)
  | needsTable =>
    obtain hnil | ⟨i, -, hone⟩ | ⟨profile, table, hrecover⟩ | ⟨profile, table, happly⟩ := h
    · cases hnil
    · exact .inl ⟨i, List.cons.inj hone⟩
    · exact .inr (.inl ⟨profile, table, List.cons.inj hrecover⟩)
    · refine .inr (.inr ⟨rfl, ?_⟩)
      obtain hdone | ⟨addr, value, rows, hrow⟩ := applyConfigOps_eq_cons happly
      · exact .inl ⟨profile, hdone⟩
      · exact .inr ⟨addr, value, profile, rows, hrow⟩

/-- Whatever the HOST begins in doubt is of those lines. -/
theorem linesWhileInDoubt_expand {t : ConfigTrust} {prep : Preparation} {q : HostSeq} (p : Params) (profiles : Profiles)
    (h : mayBegin t prep q = true) : LinesWhileInDoubt t (expand p profiles q) := by
  cases t with
  | trusted => trivial
  | needsReset =>
    cases q with
    | command i => exact .inr (.inl ⟨i, by simpa [mayBegin] using h, rfl⟩)
    | recover table => exact .inr (.inr ⟨none, table, rfl⟩)
    | recoverProfile mode => exact .inr (.inr ⟨some mode, _, rfl⟩)
    | _ => simp [mayBegin] at h
  | needsTable =>
    cases q with
    | command i => exact .inr (.inl ⟨i, by simpa [mayBegin] using h, rfl⟩)
    | recover table => exact .inr (.inr (.inl ⟨none, table, rfl⟩))
    | recoverProfile mode => exact .inr (.inr (.inl ⟨some mode, _, rfl⟩))
    | applyConfig table => exact .inr (.inr (.inr ⟨none, table, rfl⟩))
    | applyProfile mode => exact .inr (.inr (.inr ⟨some mode, _, rfl⟩))
    | _ => simp [mayBegin] at h

/-- With no doubt a command's success brings none. -/
theorem trustAfterSuccess_trusted (op : HostOp) : trustAfterSuccess op .trusted = .trusted := by
  simp [trustAfterSuccess]

/-- After an `S_RESET` any APPLY_CONFIG may follow. -/
theorem linesWhileInDoubt_afterReset {t : ConfigTrust} (profile : Option RadioMode) (table : List (Addr × Byte)) :
    LinesWhileInDoubt (trustAfterSuccess (.loader .sReset) t) (applyConfigOps profile table) := by
  cases t with
  | trusted => trivial
  | needsReset | needsTable => exact .inr (.inr (.inr ⟨profile, table, rfl⟩))

/-- The lines after one that was done are again of those. -/
theorem linesWhileInDoubt_rest {t : ConfigTrust} {op : HostOp} {rest : List HostOp}
    (h : LinesWhileInDoubt t (op :: rest)) : LinesWhileInDoubt (trustAfterSuccess op t) rest := by
  by_cases ht : t = .trusted
  · rw [ht, trustAfterSuccess_trusted]
    trivial
  · obtain ⟨i, rfl, rfl⟩ | ⟨profile, table, rfl, rfl⟩ | ⟨rfl, ⟨profile, rfl, rfl⟩ |
      ⟨addr, value, profile, rows, rfl, rfl⟩⟩ := linesWhileInDoubt_cons ht h
    · exact linesWhileInDoubt_nil _
    · exact linesWhileInDoubt_afterReset profile table
    · exact linesWhileInDoubt_nil _
    · exact .inr (.inr (.inr ⟨profile, rows, rfl⟩))

/-- In doubt the HOST polls nothing. -/
theorem trusted_of_poll {t : ConfigTrust} {op again : HostOp} {rest : List HostOp} (hpoll : SamePoll op again)
    (h : LinesWhileInDoubt t (op :: rest)) : t = .trusted := by
  by_contra ht
  obtain ⟨i, rfl, -⟩ | ⟨profile, table, rfl, -⟩ | ⟨-, ⟨profile, rfl, -⟩ | ⟨addr, value, profile, rows, rfl, -⟩⟩ :=
    linesWhileInDoubt_cons ht h <;> cases hpoll

/-- A line that is done leaves lines of those, also where it is a poll that goes on. -/
theorem linesWhileInDoubt_leavesLines {t : ConfigTrust} {op : HostOp} {rest ops : List HostOp}
    (h : LinesWhileInDoubt t (op :: rest)) (hops : LeavesLines op rest ops) :
    LinesWhileInDoubt (trustAfterSuccess op t) ops := by
  obtain rfl | ⟨again, hpoll, -⟩ := hops
  · exact linesWhileInDoubt_rest h
  · rw [trusted_of_poll hpoll h, trustAfterSuccess_trusted]
    trivial

/-- A whole table leaves lines of those, since it ends the doubt where an `S_RESET` came before it. -/
theorem linesWhileInDoubt_afterTable {t : ConfigTrust} {profile : Option RadioMode} {rest : List HostOp}
    (h : LinesWhileInDoubt t (.configDone profile :: rest)) : LinesWhileInDoubt (trustAfterTable t) rest := by
  cases t with
  | trusted | needsTable => trivial
  | needsReset => exact linesWhileInDoubt_rest h

/-- Before a path's profile the configuration is in no doubt. -/
theorem trusted_of_switchNeeded {h : HostState} {q : HostSeq} {mode : RadioMode}
    (hmay : mayBegin h.trust h.prepared q = true) (hswitch : switchNeeded h.mode q = some mode) :
    h.trust = .trusted :=
  ((mayBegin_path (switchNeeded_iff.mp hswitch).1).mp hmay).1

theorem HostMove.keeps_linesWhileInDoubt {h t : HostState} (hmove : HostMove h t)
    (hlines : LinesWhileInDoubt h.trust h.ops) : LinesWhileInDoubt t.trust t.ops := by
  cases hmove with
  | stays hconfig hops =>
    rw [hops, hconfig.trust]
    exact hlines
  | givesUp hconfig hops =>
    rw [hops]
    exact linesWhileInDoubt_nil _
  | begins p q hconfig hmay hswitch hops =>
    rw [hops, hconfig.trust]
    exact linesWhileInDoubt_expand p h.profiles hmay
  | switches q mode table hconfig hmay hswitch hops =>
    rw [hconfig.trust, trusted_of_switchNeeded hmay hswitch]
    trivial
  | fails op htrust hops =>
    rw [hops]
    exact linesWhileInDoubt_nil _
  | succeeds op rest hat htrust hmode hprepared hops =>
    rw [hat] at hlines
    rw [htrust]
    exact linesWhileInDoubt_leavesLines hlines hops
  | configDone profile rest hat htrust hops =>
    rw [hat] at hlines
    rw [htrust, hops]
    exact linesWhileInDoubt_afterTable hlines
  | loaderDone part rest hat htrust hops =>
    rw [hat] at hlines
    rw [htrust, hops, ← trustAfterSuccess_of_noReset (op := .loaderDone part) rfl h.trust]
    exact linesWhileInDoubt_rest hlines

/-! A path only under its profile and after R235's preparation (R236). -/

/-- What `PathInv` says of the HOST. -/
def PathLines (h : HostState) : Prop :=
  (∀ op ∈ h.ops, lineMode op = none) ∨
  ∃ mode, h.mode = some mode ∧ h.prepared = ⟨true, true, true, true, true⟩ ∧
    ∀ op ∈ h.ops, (lineMode op = none ∨ lineMode op = some mode) ∧ keepsProfile op = true

/-- A HOST with nothing to do is in no path. -/
theorem pathLines_of_nil {h : HostState} (hops : h.ops = []) : PathLines h := by
  refine .inl fun op hop => ?_
  rw [hops] at hop
  cases hop

/-- The lines of a table belong to no path. -/
theorem lineMode_applyConfigOps {profile : Option RadioMode} {table : List (Addr × Byte)} {op : HostOp}
    (h : op ∈ applyConfigOps profile table) : lineMode op = none := by
  simp only [applyConfigOps, List.mem_append, List.mem_map, List.mem_singleton] at h
  obtain ⟨row, -, rfl⟩ | rfl := h <;> rfl

/-- Nor do those of a loader's sequence. -/
theorem lineMode_loaderOps {part : LinkPart} {rows : List (Addr × Byte)} {op : HostOp}
    (h : op ∈ loaderOps part rows) : lineMode op = none := by
  simp only [loaderOps, List.mem_append, List.mem_map, List.mem_singleton] at h
  obtain ⟨row, -, rfl⟩ | rfl := h <;> rfl

theorem lineMode_setFrequencyOps {p : Params} {targetHz : Nat} {offsetHz : Int} {op : HostOp}
    (h : op ∈ setFrequencyOps p targetHz offsetHz) : lineMode op = none := by
  unfold setFrequencyOps at h
  split at h
  · cases List.mem_singleton.mp h
    rfl
  · exact lineMode_loaderOps h

/-- The lines of a sequence that is no path belong to none. -/
theorem lineMode_expand_of_not_path {p : Params} {profiles : Profiles} {q : HostSeq} (hq : pathMode q = none) :
    ∀ op ∈ expand p profiles q, lineMode op = none := by
  cases q with
  | applyConfig | applyProfile => exact fun op => lineMode_applyConfigOps
  | recover | recoverProfile => exact List.forall_mem_cons.mpr ⟨rfl, fun op => lineMode_applyConfigOps⟩
  | setFrequency => exact fun op => lineMode_setFrequencyOps
  | setSyncWord | setPacketLength => exact fun op => lineMode_loaderOps
  | rxPath | txPath => cases hq
  | command | loadPowerRamp | readState | readTxBytes | waitIdle | waitPin =>
    simp [expand, waitIdleOps, lineMode]

/-- The lines of a path belong to it or to none, and leave the profile in force. -/
theorem lines_expand_of_path {p : Params} {profiles : Profiles} {q : HostSeq} {mode : RadioMode}
    (hq : pathMode q = some mode) :
    ∀ op ∈ expand p profiles q, (lineMode op = none ∨ lineMode op = some mode) ∧ keepsProfile op = true := by
  cases q with
  | rxPath packetLength =>
    cases hq
    simp [expand, rxPathOps, waitIdleOps, lineMode, keepsProfile]
  | txPath payload sync =>
    cases hq
    simp [expand, txPathOps, waitIdleOps, lineMode, keepsProfile]
  | _ => cases hq

/-- A sequence begun is a path under its profile and after the preparation, or no path. -/
theorem pathLines_of_begins {p : Params} {q : HostSeq} {h t : HostState} (hconfig : SameConfig h t)
    (hmay : mayBegin h.trust h.prepared q = true) (hswitch : switchNeeded h.mode q = none)
    (hops : t.ops = expand p h.profiles q) : PathLines t := by
  obtain ⟨-, hmode, hprepared⟩ := hconfig
  rw [PathLines, hops, hmode, hprepared]
  cases hq : pathMode q with
  | none => exact .inl (lineMode_expand_of_not_path hq)
  | some mode =>
    have hforce : h.mode = some mode := by
      by_contra hne
      rw [switchNeeded_iff.mpr ⟨hq, hne⟩] at hswitch
      cases hswitch
    exact .inr ⟨mode, hforce, ((mayBegin_path hq).mp hmay).2, lines_expand_of_path hq⟩

/-- The same poll belongs to the same path. -/
theorem SamePoll.lineMode_eq {op again : HostOp} (h : SamePoll op again) : lineMode again = lineMode op := by
  cases h <;> rfl

theorem SamePoll.keepsProfile_again {op again : HostOp} (h : SamePoll op again) : keepsProfile again = true := by
  cases h <;> rfl

/-- What holds of the lines before holds of the lines left. -/
theorem forall_leavesLines {P : HostOp → Prop} {op : HostOp} {rest ops : List HostOp} (hops : LeavesLines op rest ops)
    (hpoll : ∀ again, SamePoll op again → P op → P again) (h : ∀ x ∈ op :: rest, P x) : ∀ x ∈ ops, P x := by
  obtain ⟨hop, hrest⟩ := List.forall_mem_cons.mp h
  obtain rfl | ⟨again, hagain, rfl⟩ := hops
  · exact hrest
  · exact List.forall_mem_cons.mpr ⟨hpoll again hagain hop, hrest⟩

/-- A line that leaves the profile in force is no `S_RESET`. -/
theorem lineResetsChip_of_keepsProfile {op : HostOp} (h : keepsProfile op = true) : lineResetsChip op = false := by
  cases op with
  | command | loader => cases h
  | _ => rfl

/-- A line done leaves a path under its profile. -/
theorem pathLines_of_succeeds {op : HostOp} {rest : List HostOp} {h t : HostState} (hat : h.ops = op :: rest)
    (hmode : t.mode = modeAfterSuccess op h.mode) (hprepared : t.prepared = preparedAfterSuccess op h.prepared)
    (hops : LeavesLines op rest t.ops) (hlines : PathLines h) : PathLines t := by
  rw [PathLines, hat] at hlines
  obtain hnone | ⟨mode, hforce, hready, hpath⟩ := hlines
  · exact .inl (forall_leavesLines hops (fun again hagain => hagain.lineMode_eq.trans) hnone)
  · obtain ⟨-, hkeeps⟩ := hpath op List.mem_cons_self
    have hreset := lineResetsChip_of_keepsProfile hkeeps
    refine .inr ⟨mode, ?_, ?_, forall_leavesLines hops (fun again hagain hop => ?_) hpath⟩
    · simp [hmode, modeAfterSuccess, hreset, hforce]
    · simp [hprepared, preparedAfterSuccess, hreset, hready]
    · rw [hagain.lineMode_eq]
      exact ⟨hop.1, hagain.keepsProfile_again⟩

/-- A line that may change the profile in force is a line of no path, and so are those after it. -/
theorem pathLines_of_not_keepsProfile {op : HostOp} {rest : List HostOp} {h t : HostState} (hat : h.ops = op :: rest)
    (hop : keepsProfile op = false) (hops : t.ops = rest) (hlines : PathLines h) : PathLines t := by
  rw [PathLines, hat] at hlines
  obtain hnone | ⟨mode, -, -, hpath⟩ := hlines
  · rw [PathLines, hops]
    exact .inl (List.forall_mem_cons.mp hnone).2
  · obtain ⟨-, hkeeps⟩ := hpath op List.mem_cons_self
    rw [hop] at hkeeps
    cases hkeeps

theorem HostMove.keeps_pathLines {h t : HostState} (hmove : HostMove h t) (hlines : PathLines h) : PathLines t := by
  cases hmove with
  | stays hconfig hops =>
    obtain ⟨-, hmode, hprepared⟩ := hconfig
    rw [PathLines, hops, hmode, hprepared]
    exact hlines
  | givesUp hconfig hops => exact pathLines_of_nil hops
  | begins p q hconfig hmay hswitch hops => exact pathLines_of_begins hconfig hmay hswitch hops
  | switches q mode table hconfig hmay hswitch hops =>
    rw [PathLines, hops]
    exact .inl fun op => lineMode_applyConfigOps
  | fails op htrust hops => exact pathLines_of_nil hops
  | succeeds op rest hat htrust hmode hprepared hops => exact pathLines_of_succeeds hat hmode hprepared hops hlines
  | configDone profile rest hat htrust hops => exact pathLines_of_not_keepsProfile hat rfl hops hlines
  | loaderDone part rest hat htrust hops => exact pathLines_of_not_keepsProfile hat rfl hops hlines

/-- Where a packet is still to be read, the pin has the meaning it has under the RX profile (R236). -/
theorem pinMeansPacket_of_readPacket {h : HostState} {packetLength : Nat} (hlines : PathLines h)
    (hop : .readPacket packetLength ∈ h.ops) : pinMeansPacket h = true := by
  obtain hnone | ⟨mode, hforce, -, hpath⟩ := hlines
  · cases hnone _ hop
  · obtain ⟨hmode | hmode, -⟩ := hpath _ hop
    · cases hmode
    · rw [pinMeansPacket, hforce, ← hmode]
      rfl

/-! An `S_RESET` of the HOST (R232, R235). -/

/-- After an `S_RESET` no profile is in force, and of the preparation only the known state is done. -/
theorem hostTake_chipReset {h : HostState} {r : Result} {op : HostOp} {rest : List HostOp} (hwait : h.waiting = true)
    (hat : h.ops = op :: rest) (hreset : lineResetsChip op = true) (hr : isErr r = false) :
    (hostTake r h).mode = none ∧ (hostTake r h).prepared = ⟨true, false, false, false, false⟩ := by
  rw [hostTake_ok hwait hat hr]
  obtain ⟨-, -, -, hmode, hprepared, -⟩ := afterResult_cases op r
    { h with
      taken := some r, ops := rest, waiting := false, trust := trustAfterSuccess op h.trust,
      mode := modeAfterSuccess op h.mode, prepared := preparedAfterSuccess op h.prepared }
  rw [hmode, hprepared]
  simp [modeAfterSuccess, preparedAfterSuccess, hreset, Preparation.nothing]

/-! The statement. -/

theorem step_doubtInv {s t : State} (h : step s = .next t) (hs : DoubtInv s) : DoubtInv t :=
  (step_hostMove h).keeps_linesWhileInDoubt hs

theorem step_pathInv {s t : State} (h : step s = .next t) (hs : PathInv s) : PathInv t :=
  (step_hostMove h).keeps_pathLines hs

/-- Settles O53, by what a step can do to the HOST's lines. -/
theorem stepKeepsHostObligations : Obligations.StepKeepsHostObligations := by
  refine ⟨trivial, pathLines_of_nil rfl, fun s t h => ⟨step_doubtInv h, step_pathInv h⟩,
    fun s _ => pinMeansPacket_of_readPacket, fun h r op rest i hwait hat hop hi hr => ?_⟩
  refine hostTake_chipReset hwait hat ?_ hr
  obtain rfl | rfl := hop <;> exact decide_eq_true hi

end Sys2Proof.Machine
end

