-- ==== Sys2Proof/Proofs/HostTurns.lean ====
section
/-! SUPPORT. Of the family spec/44_host_sequences.md, the statements about one step and about an operand: which
sequences begin (R235, R236, R239), how a table's failure and a poll end (R180, R193), and the frequency word
(R181). -/

namespace Sys2Proof.Machine

open Sys2Proof.Config
open Sys2Proof.Safety

/-! The HOST's turn by what it has to do. -/

/-- With no line left the HOST goes on to the next sequence. -/
theorem hostTurn_begin {s : State} {q : HostSeq} {queue : List HostSeq} (hwait : s.host.waiting = false)
    (hops : s.host.ops = []) (hqueue : s.host.queue = q :: queue) :
    hostTurn s = setHost (beginSeq s.params q queue s.host) s := by
  simp [hostTurn, hwait, hops, hqueue]

/-- A line without a command is done in the HOST's turn. -/
theorem hostTurn_local {s : State} {op : HostOp} {rest : List HostOp} (hwait : s.host.waiting = false)
    (hops : s.host.ops = op :: rest) (hcmd : hostCommand s.params s.host op = none) :
    hostTurn s = hostLocal op rest s := by
  simp [hostTurn, hwait, hops, hcmd]

/-! The three beginnings of a sequence (R235, R236, R239). -/

theorem beginSeq_begins (p : Params) {q : HostSeq} (queue : List HostSeq) {h : HostState}
    (hmay : mayBegin h.trust h.prepared q = true) (hswitch : switchNeeded h.mode q = none) :
    beginSeq p q queue h = { h with queue := queue, ops := expand p h.profiles q } := by
  simp [beginSeq, hmay, hswitch]

theorem beginSeq_switches (p : Params) {q : HostSeq} (queue : List HostSeq) {h : HostState} {mode : RadioMode}
    (hmay : mayBegin h.trust h.prepared q = true) (hswitch : switchNeeded h.mode q = some mode) :
    beginSeq p q queue h =
      { h with queue := q :: queue, ops := applyConfigOps (some mode) (profileFor h.profiles mode) } := by
  simp [beginSeq, hmay, hswitch, modeSwitch, expand]

theorem beginSeq_withheld (p : Params) {q : HostSeq} (queue : List HostSeq) {h : HostState}
    (hmay : mayBegin h.trust h.prepared q = false) :
    beginSeq p q queue h = { h with queue := queue, reports := h.reports ++ [.withheld q] } := by
  simp [beginSeq, hmay]

/-- No beginning changes what the HOST knows of the configuration. -/
theorem beginSeq_sameConfig (p : Params) (q : HostSeq) (queue : List HostSeq) (h : HostState) :
    SameConfig h (beginSeq p q queue h) := by
  obtain ⟨-, -, hbegin⟩ | ⟨mode, -, -, hbegin⟩ | ⟨-, hbegin⟩ := beginSeq_cases p q queue h
  all_goals
    rw [hbegin]
    exact ⟨rfl, rfl, rfl⟩

theorem beginSeq_waiting (p : Params) (q : HostSeq) (queue : List HostSeq) (h : HostState) :
    (beginSeq p q queue h).waiting = h.waiting := by
  obtain ⟨-, -, hbegin⟩ | ⟨mode, -, -, hbegin⟩ | ⟨-, hbegin⟩ := beginSeq_cases p q queue h <;> rw [hbegin]

/-! When which of them comes. -/

theorem isPathOf_iff (mode : RadioMode) (q : HostSeq) : IsPathOf mode q ↔ pathMode q = some mode := by
  cases q <;> simp [IsPathOf, pathMode, eq_comm]

theorem switchNeeded_eq_none_iff (mode : Option RadioMode) (q : HostSeq) :
    switchNeeded mode q = none ↔ ∀ m, pathMode q = some m → mode = some m := by
  simp [switchNeeded, Option.filter_eq_none_iff]

/-- Without doubt every sequence but a path may begin. -/
theorem mayBegin_trusted_other {q : HostSeq} (prep : Preparation) (h : pathMode q = none) :
    mayBegin .trusted prep q = true := by
  cases q with
  | rxPath | txPath => cases h
  | _ => rfl

/-- Without doubt a path may begin exactly after the whole preparation. -/
theorem mayBegin_trusted_iff (prep : Preparation) (q : HostSeq) :
    mayBegin .trusted prep q = true ↔ ∀ mode, IsPathOf mode q → prep = ⟨true, true, true, true, true⟩ := by
  simp only [isPathOf_iff]
  cases hq : pathMode q with
  | none => simp [mayBegin_trusted_other prep hq]
  | some mode => simp [mayBegin_path hq]

/-- The commands that do not use the CHIP (R116, last case). -/
theorem avoidsChip_iff (i : Instr) :
    avoidsChip i = true ↔
      (∃ payload sync, i.command = .frameTx payload sync) ∨ (∃ raw, i.command = .decodeRx raw) ∨
        i.command = .reserved7 := by
  unfold avoidsChip
  cases i.command <;> simp

/-- The sequences begun while the configuration is in doubt (R183, R239). -/
def BeginsInDoubt (t : ConfigTrust) (q : HostSeq) : Prop :=
  (∃ table, q = .recover table) ∨ (∃ mode, q = .recoverProfile mode) ∨
    (∃ i, q = .command i ∧
      (i.command = .strobe 0x30#6 ∨ (∃ payload sync, i.command = .frameTx payload sync) ∨
        (∃ raw, i.command = .decodeRx raw) ∨ i.command = .reserved7)) ∨
    (t = .needsTable ∧ ((∃ table, q = .applyConfig table) ∨ ∃ mode, q = .applyProfile mode))

theorem mayBegin_iff_of_doubt {t : ConfigTrust} (prep : Preparation) (q : HostSeq) (ht : t ≠ .trusted) :
    mayBegin t prep q = true ↔ BeginsInDoubt t q := by
  have htable : t ≠ .needsReset ↔ t = .needsTable := by
    cases t with
    | trusted => exact absurd rfl ht
    | needsReset | needsTable => simp
  cases q with
  | command i => simp [mayBegin, BeginsInDoubt, ht, isChipReset, avoidsChip_iff]
  | applyConfig | applyProfile => simp [mayBegin, BeginsInDoubt, htable]
  | _ => simp [mayBegin, BeginsInDoubt, ht]

/-- In doubt no path begins, so no mode is changed to. -/
theorem switchNeeded_of_doubt {t : ConfigTrust} {prep : Preparation} {q : HostSeq} (mode : Option RadioMode)
    (ht : t ≠ .trusted) (hmay : mayBegin t prep q = true) : switchNeeded mode q = none :=
  (switchNeeded_eq_none_iff mode q).mpr fun _ hq => absurd ((mayBegin_path hq).mp hmay).1 ht

/-- Settles O52: `mayBegin` and `switchNeeded` decide between the three beginnings. -/
theorem sequencesBeginAsDoubtAndPreparationAllow : Obligations.SequencesBeginAsDoubtAndPreparationAllow := by
  intro s q queue hp hport hrst hwait hops hqueue
  have hturn : hostTurn (tick s) = setHost (beginSeq s.params q queue s.host) (tick s) :=
    hostTurn_begin (s := tick s) hwait hops hqueue
  obtain ⟨htrust, hmode, hprepared⟩ := beginSeq_sameConfig s.params q queue s.host
  refine ⟨_, step_hostTurn hp hport hrst, ?_⟩
  rw [hturn]
  refine ⟨htrust, hmode, hprepared, hport, fun hdoubt => ?doubt, fun htrusted => ?trusted⟩
  case doubt =>
    have hmay := mayBegin_iff_of_doubt s.host.prepared q hdoubt
    by_cases hq : BeginsInDoubt s.host.trust q
    · rw [beginSeq_begins _ _ (hmay.mpr hq) (switchNeeded_of_doubt _ hdoubt (hmay.mpr hq))]
      exact ⟨rfl, fun _ => ⟨rfl, rfl⟩, fun hnot => absurd hq hnot⟩
    · rw [beginSeq_withheld _ _ (Bool.eq_false_iff.mpr (hmay.not.mpr hq))]
      exact ⟨rfl, fun hq' => absurd hq' hq, fun _ => ⟨hops, rfl⟩⟩
  case trusted =>
    have hmay := mayBegin_trusted_iff s.host.prepared q
    rw [← htrusted] at hmay
    refine ⟨fun hready => ?begins, fun mode hpath hprep => ?withheld, fun mode hpath hprep hforce => ?switches⟩
    case begins =>
      rw [beginSeq_begins _ _ (hmay.mpr fun m hm => (hready m hm).2)
        ((switchNeeded_eq_none_iff _ _).mpr fun m hm => (hready m ((isPathOf_iff m q).mpr hm)).1)]
      exact ⟨rfl, rfl, rfl⟩
    case withheld =>
      rw [beginSeq_withheld _ _ (Bool.eq_false_iff.mpr (hmay.not.mpr fun hall => hprep (hall mode hpath)))]
      exact ⟨rfl, hops, rfl⟩
    case switches =>
      rw [beginSeq_switches _ _ (hmay.mpr fun _ _ => hprep)
        (switchNeeded_iff.mpr ⟨(isPathOf_iff mode q).mp hpath, hforce⟩)]
      exact ⟨rfl, rfl, rfl⟩

/-! A table's failing row and a poll's end (R180, R193). -/

/-- Settles O50. -/
theorem failedConfigRowEndsTheTable : Obligations.FailedConfigRowEndsTheTable := by
  intro s addr value rest f hp hrst hresult hwait hops
  refine ⟨_, step_done hp hrst, ?_⟩
  rw [hresult, hostTake_err hwait hops]
  exact ⟨rfl, rfl, rfl, rfl, rfl⟩

theorem pollAgain_ops (isDone : Bool) (again : HostOp) (h : HostState) :
    (pollAgain isDone again h).ops = if isDone then h.ops else again :: h.ops := by
  cases isDone <;> rfl

/-- Settles O58, by the line the HOST is at: a poll with no read left, a read taken, a pin read. -/
theorem pollsAreBounded : Obligations.PollsAreBounded := by
  refine ⟨fun s op rest hp hport hrst hwait hops hpoll => ?timeout, fun r h n rest v hwait hr hv =>
    ⟨fun hops => ?idle, fun hops => ?drained⟩, fun s level seen n rest levels hp hport hrst hwait hops hpins => ?pin⟩
  case timeout =>
    refine ⟨_, step_hostTurn hp hport hrst, ?_⟩
    obtain rfl | rfl | rfl | rfl := hpoll <;> rw [hostTurn_local (s := tick s) hwait hops rfl] <;> exact ⟨rfl, rfl⟩
  case idle =>
    rw [hostTake_ok hwait hops hr]
    simp [afterResult, pollAgain_ops, hv, marcState_idle_iff]
  case drained =>
    rw [hostTake_ok hwait hops hr]
    simp [afterResult, pollAgain_ops, hv, txPending_zero_iff]
  case pin =>
    have hread : pinRead (tick s) = seen := by simp [pinRead, hpins]
    refine ⟨_, step_hostTurn hp hport hrst, ?_⟩
    rw [hostTurn_local (s := tick s) hwait hops rfl, hostLocal, hread]
    split <;> simp [dropPin, hpins]

/-! The frequency word (R181). -/

/-- A rounded quotient is within half a step of the exact one. -/
theorem roundDiv_nearest (rule : TieRule) (num : Nat) {den : Nat} (h : 0 < den) :
    2 * |(roundDiv rule num den : Int) * den - num| ≤ den := by
  have hdiv := Nat.div_add_mod num den
  have hlt := Nat.mod_lt num h
  have hcases := roundDiv_cases rule num h
  generalize num / den = q, num % den = r at *
  subst hdiv
  obtain ⟨hround, hr⟩ | ⟨hround, hr⟩ := hcases
  · have herror : (q : Int) * den - (den * q + r : Nat) = -r := by push_cast; ring
    rw [hround, herror, abs_neg, Nat.abs_cast]
    exact_mod_cast hr
  · have herror : ((q + 1 : Nat) : Int) * den - (den * q + r : Nat) = (den - r : Nat) := by
      push_cast [hlt.le]; ring
    rw [hround, herror, Nat.abs_cast]
    omega

/-- The three bytes of a 24-bit word rebuild it. -/
theorem freqByte_rebuild (w : BitVec 24) :
    w.toNat = 65536 * (freqByte w .high).toNat + 256 * (freqByte w .middle).toNat + (freqByte w .low).toNat := by
  have hlt := w.isLt
  simp only [freqByte, BitVec.extractLsb'_toNat, Nat.shiftRight_eq_div_pow]
  omega

/-- Settles O60: a word exists exactly where the frequency is not negative and its rounded quotient fits 24 bits. -/
theorem frequencyWordIsNearest : Obligations.FrequencyWordIsNearest := by
  intro p targetHz offsetHz hcrystal
  unfold frequencyWord
  by_cases hneg : (targetHz : Int) + offsetHz < 0
  · simp [hneg]
  · have hnear := roundDiv_nearest p.tieRule (((targetHz : Int) + offsetHz).toNat * 65536) hcrystal
    have hfreq : (((targetHz : Int) + offsetHz).toNat : Int) = targetHz + offsetHz :=
      Int.toNat_of_nonneg (not_lt.mp hneg)
    simp only [hneg, hcrystal.ne', or_self, if_false]
    push_cast [hfreq] at hnear
    generalize roundDiv p.tieRule (((targetHz : Int) + offsetHz).toNat * 65536) p.crystalHz = word at *
    refine ⟨fun w hw => ⟨?near, freqByte_rebuild w⟩, fun hnone => .inr ?large⟩
    case near =>
      simp only [Option.ite_none_right_eq_some, Option.some.injEq] at hw
      obtain ⟨hword, rfl⟩ := hw
      rw [BitVec.toNat_ofNat, Nat.mod_eq_of_lt hword]
      exact hnear
    case large =>
      have hword : 16777216 ≤ word := by simpa using hnone
      have hsteps : (16777216 : Int) * p.crystalHz ≤ word * p.crystalHz := by
        exact_mod_cast Nat.mul_le_mul_right p.crystalHz hword
      have hle := le_abs_self ((word : Int) * p.crystalHz - (targetHz + offsetHz) * 65536)
      linarith

end Sys2Proof.Machine
end

