-- ==== Sys2Proof/Proofs/HostRuns.lean ====
section
/-! SUPPORT. Of the family spec/44_host_sequences.md, the statements about whole sequences: each runs from rest to rest,
and its run is put together from the runs of its lines (`HostRun`). -/

namespace Sys2Proof.Machine

open Sys2Proof.Config
open Sys2Proof.Safety

/-! From rest to rest: what a stretch of the HOST's work comes to (log 12). -/

/-- The block is at rest with nothing presented and the HOST awaits no result: the next step is the HOST's turn. -/
structure Quiet (s : State) : Prop where
  atRest : AtRest s
  port : s.port = none
  waiting : s.host.waiting = false

/-- `k` steps lead from `s` to the quiet state `t`, in which the HOST's state is `h` and the CHIP's answers `left` are
left over; the bus has seen `events`. -/
structure HostRun (k : Nat) (s t : State) (h : HostState) (left : List (Option Byte)) (events : List BusEvent) :
    Prop where
  run : run k s = .next t
  quiet : Quiet t
  host : t.host = h
  answers : t.answers = left
  bus : t.bus = s.bus ++ events
  rst : t.rst = s.rst.drop k

/-- One stretch after another. -/
theorem HostRun.trans {j k : Nat} {s t u : State} {h h' : HostState} {left left' : List (Option Byte)}
    {events events' : List BusEvent} (first : HostRun j s t h left events) (second : HostRun k t u h' left' events') :
    HostRun (j + k) s u h' left' (events ++ events') where
  run := (run_add first.run k).trans second.run
  quiet := second.quiet
  host := second.host
  answers := second.answers
  bus := by rw [second.bus, first.bus, List.append_assoc]
  rst := by rw [second.rst, first.rst, List.drop_drop]

/-- With no reset in both stretches there is none in the second. -/
theorem HostRun.noReset {j k : Nat} {s t : State} {h : HostState} {left : List (Option Byte)}
    {events : List BusEvent} (first : HostRun j s t h left events) (hrst : NoReset (j + k) s) : NoReset k t :=
  noReset_drop hrst first.rst

/-- Doing nothing. -/
theorem HostRun.refl {s : State} (hs : Quiet s) : HostRun 0 s s s.host s.answers [] where
  run := rfl
  quiet := hs
  host := rfl
  answers := rfl
  bus := (List.append_nil _).symm
  rst := rfl

/-- A turn in which the HOST presents nothing. -/
theorem hostRun_turn {s : State} {h : HostState} (hs : Quiet s) (hrst : NoReset 1 s)
    (hturn : hostTurn (tick s) = setHost h (tick s)) (hwait : h.waiting = false) :
    HostRun 1 s (setHost h (tick s)) h s.answers [] where
  run := by
    obtain ⟨⟨hp, -⟩, hport, -⟩ := hs
    rw [run_one, step_hostTurn hp hport (noReset_succ hrst).1, hturn]
  quiet := ⟨hs.atRest, hs.port, hwait⟩
  host := rfl
  answers := rfl
  bus := (List.append_nil _).symm
  rst := List.drop_one.symm

/-- The turn in which the next sequence begins. -/
theorem hostRun_begin {s : State} {q : HostSeq} {queue : List HostSeq} {h : HostState} (hs : Quiet s)
    (hops : s.host.ops = []) (hqueue : s.host.queue = q :: queue) (hrst : NoReset 1 s)
    (hbegin : beginSeq s.params q queue s.host = h) : ∃ t, HostRun 1 s t h s.answers [] := by
  have hwait := hs.waiting
  rw [← hbegin]
  exact ⟨_, hostRun_turn hs hrst (hostTurn_begin (s := tick s) hwait hops hqueue)
    ((beginSeq_waiting _ _ _ _).trans hwait)⟩

/-- The turn of a line without a command. -/
theorem hostRun_local {s : State} {op : HostOp} {rest : List HostOp} {h : HostState} (hs : Quiet s)
    (hops : s.host.ops = op :: rest) (hcmd : hostCommand s.params s.host op = none) (hrst : NoReset 1 s)
    (hlocal : hostLocal op rest (tick s) = setHost h (tick s)) (hwait : h.waiting = false) :
    ∃ t, HostRun 1 s t h s.answers [] :=
  ⟨_, hostRun_turn hs hrst ((hostTurn_local (s := tick s) hs.waiting hops hcmd).trans hlocal) hwait⟩

/-- A stretch that has come to `DONE` goes on with the HOST's taking of the result. -/
theorem hostRun_done {k : Nat} {s u : State} {events : List BusEvent} (hrun : run k s = .next u)
    (hp : u.phase = .done) (hsel : u.sel = .released) (hport : u.port = none) (hbus : u.bus = s.bus ++ events)
    (hrst : u.rst = s.rst.drop k) (hnoReset : NoReset (k + 1) s)
    (hwait : (hostTake u.result u.host).waiting = false) :
    ∃ t, HostRun (k + 1) s t (hostTake u.result u.host) u.answers events := by
  have hstep := step_done hp (noReset_succ (k := 0) (noReset_drop hnoReset hrst)).1
  refine ⟨returnToIdle (setHost (hostTake u.result u.host) (tick u)),
    ⟨?_, ⟨⟨rfl, hsel⟩, hport, hwait⟩, rfl, rfl, hbus, ?_⟩⟩
  · rw [run_add hrun 1, run_one, hstep]
  · simp [hrst]

/-- The HOST as it is while it waits for the result of its line. -/
def awaiting (h : HostState) : HostState :=
  { h with waiting := true }

theorem afterResult_waiting (op : HostOp) (r : Result) (h : HostState) :
    (afterResult op r h).waiting = h.waiting := by
  obtain ⟨-, hwaiting, -⟩ := afterResult_cases op r h
  exact hwaiting

/-- The result a HOST awaits ends its wait. -/
theorem hostTake_awaiting {h : HostState} {op : HostOp} {rest : List HostOp} (hops : h.ops = op :: rest) (r : Result) :
    (hostTake r (awaiting h)).waiting = false := by
  cases r with
  | err f => rw [hostTake_err (h := awaiting h) rfl hops]
  | _ =>
    rw [hostTake_ok (h := awaiting h) rfl hops rfl, afterResult_waiting]

/-- A line whose command runs on the bus with the bytes `tx`, every exchange answered. -/
theorem hostRun_command {s : State} {op : HostOp} {rest : List HostOp} {i : Instr} {tx rx : List Byte}
    {r : List Byte → Result} {left : List (Option Byte)} (hs : Quiet s) (hops : s.host.ops = op :: rest)
    (hcmd : hostCommand s.params s.host op = some i) (hwf : i.command.wf = true)
    (hi : RunsOnBus (fun _ => True) i tx r) (hlen : rx.length = tx.length)
    (hanswers : s.answers = rx.map some ++ left) (hrst : NoReset (tx.length + 5) s) :
    ∃ t, HostRun (tx.length + 5) s t (hostTake (r rx) (awaiting s.host)) left (window tx rx) := by
  obtain ⟨⟨hp, -⟩, hport, hwait⟩ := hs
  have hpresent := (hostsCommandIsRun s op rest i hp hport hwait hops hcmd).1 hwf (noReset_mono hrst (by omega))
  obtain ⟨haccept, htransaction⟩ := hi { s with rst := s.rst.drop 2, host := awaiting s.host } hp trivial
  have hrest : NoReset (tx.length + 2) { s with rst := s.rst.drop 2, host := awaiting s.host } :=
    noReset_drop (j := 2) (s := s) (noReset_mono hrst (by omega)) rfl
  have hrun := (run_add (hpresent.trans haccept) (tx.length + 2)).trans (htransaction rx left hlen hanswers hrest)
  have hleft : s.answers.drop tx.length = left := by
    rw [hanswers]
    exact List.drop_left' ((List.length_map _).trans hlen)
  have hsteps : tx.length + 5 = 2 + (tx.length + 2) + 1 := by omega
  subst hleft
  rw [hsteps] at hrst ⊢
  exact hostRun_done hrun rfl rfl hport (by simp [afterTransaction, window]) (by simp [afterTransaction]) hrst
    (hostTake_awaiting hops _)

/-- A line whose command fails at its acceptance. -/
theorem hostRun_rejected {s : State} {op : HostOp} {rest : List HostOp} {i : Instr} {f : Failure} (hs : Quiet s)
    (hops : s.host.ops = op :: rest) (hcmd : hostCommand s.params s.host op = some i) (hwf : i.command.wf = true)
    (hi : ∀ u : State, AtRest u → exec i u = .next { u with op := i.command, result := .err f, phase := .done })
    (hrst : NoReset 3 s) : ∃ t, HostRun 3 s t (hostTake (.err f) (awaiting s.host)) s.answers [] := by
  obtain ⟨⟨hp, hsel⟩, hport, hwait⟩ := hs
  have hpresent := (hostsCommandIsRun s op rest i hp hport hwait hops hcmd).1 hwf (noReset_mono hrst (by omega))
  exact hostRun_done (hpresent.trans (hi _ ⟨hp, hsel⟩)) rfl hsel hport (List.append_nil _).symm rfl hrst
    (hostTake_awaiting hops _)
/-! The writes of the configuration loader (R180 to R182). -/

/-- The window of a transaction sends its bytes in index order. -/
theorem window_outBytes {tx rx : List Byte} (h : rx.length = tx.length) : (window tx rx).filterMap outByte = tx := by
  have hmap := exchanges_outByte h.le
  rw [h, List.take_length] at hmap
  have hall := congrArg (List.filterMap id) hmap
  rw [List.filterMap_map, List.filterMap_map] at hall
  rw [window, List.cons_append, List.filterMap_cons_none rfl, List.filterMap_append]
  simpa [List.filterMap_cons, outByte] using hall

/-- The line `op` writes with the instruction `i`: a row of a table, or a write of the loader outside APPLY_CONFIG. -/
inductive WriteLine : HostOp → Instr → Prop where
  | config (addr : Addr) (value : Byte) : WriteLine (.configWrite addr value) (.writeSingle addr value)
  | single (addr : Addr) (value : Byte) : WriteLine (.loader (.writeSingle addr value)) (.writeSingle addr value)
  | burst (addr : Addr) (data : List Byte) : WriteLine (.loader (.writeBurst addr data)) (.writeBurst addr data)

theorem WriteLine.hostCommand_eq {op : HostOp} {i : Instr} (h : WriteLine op i) (p : Params) (host : HostState) :
    hostCommand p host op = some i := by
  cases h <;> rfl

/-- A write that succeeded leaves the lines after it to do and everything else as it was. -/
theorem WriteLine.hostTake_eq {op : HostOp} {i : Instr} {rest : List HostOp} {h : HostState} (hline : WriteLine op i)
    (hops : h.ops = op :: rest) :
    hostTake .okNone (awaiting h) = { h with taken := some .okNone, ops := rest, waiting := false } := by
  have hreset : lineResetsChip op = false := by cases hline <;> simp [lineResetsChip, isChipReset, Instr.command]
  have hafter (g : HostState) : afterResult op .okNone g = g := by cases hline <;> rfl
  rw [hostTake_ok (h := awaiting h) rfl hops rfl, hafter]
  simp [awaiting, trustAfterSuccess_of_noReset hreset, modeAfterSuccess, preparedAfterSuccess, hreset]

/-- A write, every exchange answered. -/
theorem hostRun_write {s : State} {op : HostOp} {rest : List HostOp} {i : Instr} {tx rx : List Byte}
    {left : List (Option Byte)} (hs : Quiet s) (hops : s.host.ops = op :: rest) (hline : WriteLine op i)
    (hwf : i.command.wf = true) (hi : RunsOnBus (fun _ => True) i tx (fun _ => .okNone))
    (hlen : rx.length = tx.length) (hanswers : s.answers = rx.map some ++ left) (hrst : NoReset (tx.length + 5) s) :
    ∃ t, HostRun (tx.length + 5) s t { s.host with taken := some .okNone, ops := rest } left (window tx rx) := by
  have hrun := hostRun_command hs hops (hline.hostCommand_eq _ _) hwf hi hlen hanswers hrst
  rw [hline.hostTake_eq hops] at hrun
  have hwait := hs.waiting
  rwa [← hwait] at hrun

/-- The bytes of a register write (R82). -/
def rowBytes (row : Addr × Byte) : List Byte :=
  [row.1.setWidth 8, row.2]

/-- A register write, both exchanges answered. -/
theorem hostRun_row {s : State} {op : HostOp} {rest : List HostOp} {row : Addr × Byte} {a b : Byte}
    {left : List (Option Byte)} (hs : Quiet s) (hops : s.host.ops = op :: rest)
    (hline : WriteLine op (.writeSingle row.1 row.2)) (hanswers : s.answers = some a :: some b :: left)
    (hrst : NoReset 7 s) :
    ∃ t, HostRun 7 s t { s.host with taken := some .okNone, ops := rest } left (window (rowBytes row) [a, b]) :=
  hostRun_write (rx := [a, b]) hs hops hline rfl (writeSingleSendsAddressAndValue row.1 row.2).1 rfl hanswers hrst

/-- The rows of a table or of a loader's sequence, every exchange answered: seven steps a row. -/
theorem hostRun_rows {line : Addr × Byte → HostOp} (hline : ∀ row, WriteLine (line row) (.writeSingle row.1 row.2))
    {rest : List HostOp} {left : List (Option Byte)} (rows : List (Addr × Byte)) :
    ∀ {s : State} {rx : List Byte}, Quiet s → s.host.ops = rows.map line ++ rest → s.answers = rx.map some ++ left →
      rx.length = 2 * rows.length → NoReset (7 * rows.length) s →
      ∃ t taken events, HostRun (7 * rows.length) s t { s.host with taken := taken, ops := rest } left events ∧
        events.filterMap outByte = rows.flatMap rowBytes := by
  induction rows with
  | nil =>
    intro s rx hs hops hanswers hlen _
    obtain rfl := List.length_eq_zero_iff.mp hlen
    have hhost : { s.host with ops := rest } = s.host := by rw [← show s.host.ops = rest from hops]
    have hrun : HostRun 0 s s s.host s.answers [] := .refl hs
    rw [← hhost, show s.answers = left from hanswers] at hrun
    exact ⟨s, s.host.taken, [], hrun, rfl⟩
  | cons row rows ih =>
    intro s rx hs hops hanswers hlen hrst
    have hsteps : 7 * (row :: rows).length = 7 + 7 * rows.length := by simp only [List.length_cons]; omega
    rw [hsteps] at hrst ⊢
    match rx, hlen with
    | a :: b :: rx, hlen =>
      obtain ⟨u, hu⟩ := hostRun_row hs hops (hline row) hanswers (noReset_mono hrst (by omega))
      have hlen' : rx.length = 2 * rows.length := by simp only [List.length_cons] at hlen; omega
      obtain ⟨t, taken, events, ht, hevents⟩ := ih hu.quiet (congrArg HostState.ops hu.host) hu.answers hlen'
        (hu.noReset hrst)
      rw [hu.host] at ht
      refine ⟨t, taken, _, hu.trans ht, ?_⟩
      rw [List.filterMap_append, window_outBytes (tx := rowBytes row) (rx := [a, b]) rfl, hevents, List.flatMap_cons]

/-- A sequence of rows from its beginning to its last line. -/
theorem hostRun_rowSequence {line : Addr × Byte → HostOp}
    (hline : ∀ row, WriteLine (line row) (.writeSingle row.1 row.2)) {s : State} {q : HostSeq}
    {queue after : List HostSeq} {rows : List (Addr × Byte)} {last : HostOp} {rx : List Byte}
    {left : List (Option Byte)} (hs : Quiet s) (hops : s.host.ops = []) (hqueue : s.host.queue = q :: queue)
    (hbegin : beginSeq s.params q queue s.host = { s.host with queue := after, ops := rows.map line ++ [last] })
    (hanswers : s.answers = rx.map some ++ left) (hlen : rx.length = 2 * rows.length)
    (hrst : NoReset (1 + 7 * rows.length) s) :
    ∃ t taken events,
      HostRun (1 + 7 * rows.length) s t { s.host with taken := taken, queue := after, ops := [last] } left events ∧
        events.filterMap outByte = rows.flatMap rowBytes := by
  obtain ⟨u, hu⟩ := hostRun_begin hs hops hqueue (noReset_mono hrst (by omega)) hbegin
  obtain ⟨t, taken, events, ht, hevents⟩ := hostRun_rows hline rows hu.quiet (congrArg HostState.ops hu.host)
    (hu.answers.trans hanswers) hlen (hu.noReset hrst)
  rw [hu.host] at ht
  exact ⟨t, taken, events, hu.trans ht, hevents⟩

/-- A whole APPLY_CONFIG (R180). -/
theorem hostRun_applyConfig {s : State} {q : HostSeq} {queue after : List HostSeq} {profile : Option RadioMode}
    {table : List (Addr × Byte)} {rx : List Byte} {left : List (Option Byte)} (hs : Quiet s) (hops : s.host.ops = [])
    (hqueue : s.host.queue = q :: queue)
    (hbegin : beginSeq s.params q queue s.host = { s.host with queue := after, ops := applyConfigOps profile table })
    (hanswers : s.answers = rx.map some ++ left) (hlen : rx.length = 2 * table.length)
    (hrst : NoReset (7 * table.length + 2) s) :
    ∃ t taken events,
      HostRun (7 * table.length + 2) s t
          { s.host with
            taken := taken, queue := after, ops := [], reports := s.host.reports ++ [.success],
            trust := trustAfterTable s.host.trust, mode := modeAfterTable profile s.host.mode } left events ∧
        events.filterMap outByte = table.flatMap rowBytes := by
  have hsteps : 7 * table.length + 2 = 1 + 7 * table.length + 1 := by omega
  rw [hsteps] at hrst ⊢
  obtain ⟨u, taken, events, hu, hevents⟩ := hostRun_rowSequence (fun row => .config row.1 row.2) hs hops hqueue hbegin
    hanswers hlen (noReset_mono hrst (by omega))
  obtain ⟨t, ht⟩ := hostRun_local hu.quiet (congrArg HostState.ops hu.host) rfl (hu.noReset hrst) rfl hu.quiet.waiting
  rw [tick_host, hu.host, hu.answers] at ht
  exact ⟨t, taken, _, hu.trans ht, by rw [List.append_nil, hevents]⟩

/-- The end of a sequence of the configuration loader outside APPLY_CONFIG: the parameter is set. -/
theorem hostRun_loaderDone {s : State} {part : LinkPart} (hs : Quiet s) (hops : s.host.ops = [.loaderDone part])
    (hrst : NoReset 1 s) :
    ∃ t, HostRun 1 s t
      { s.host with
        ops := [], reports := s.host.reports ++ [.success], prepared := preparedAfterPart part s.host.prepared }
      s.answers [] :=
  hostRun_local hs hops rfl hrst rfl hs.waiting

/-- A whole sequence of register writes of the configuration loader outside APPLY_CONFIG (R181, R182). -/
theorem hostRun_loader {s : State} {q : HostSeq} {queue : List HostSeq} {part : LinkPart}
    {rows : List (Addr × Byte)} {rx : List Byte} {left : List (Option Byte)} (hs : Quiet s) (hops : s.host.ops = [])
    (hqueue : s.host.queue = q :: queue)
    (hbegin : beginSeq s.params q queue s.host = { s.host with queue := queue, ops := loaderOps part rows })
    (hanswers : s.answers = rx.map some ++ left) (hlen : rx.length = 2 * rows.length)
    (hrst : NoReset (7 * rows.length + 2) s) :
    ∃ t taken events,
      HostRun (7 * rows.length + 2) s t
          { s.host with
            taken := taken, queue := queue, ops := [], reports := s.host.reports ++ [.success],
            prepared := preparedAfterPart part s.host.prepared } left events ∧
        events.filterMap outByte = rows.flatMap rowBytes := by
  have hsteps : 7 * rows.length + 2 = 1 + 7 * rows.length + 1 := by omega
  rw [hsteps] at hrst ⊢
  obtain ⟨u, taken, events, hu, hevents⟩ := hostRun_rowSequence (fun row => .single row.1 row.2) hs hops hqueue hbegin
    hanswers hlen (noReset_mono hrst (by omega))
  obtain ⟨t, ht⟩ := hostRun_loaderDone hu.quiet (congrArg HostState.ops hu.host) (hu.noReset hrst)
  rw [hu.host, hu.answers] at ht
  exact ⟨t, taken, _, hu.trans ht, by rw [List.append_nil, hevents]⟩

/-! The statements about whole sequences. -/

/-- A whole table leaves no doubt, unless an `S_RESET` is still due (R239). -/
theorem trustAfterTable_of_ne {t : ConfigTrust} (h : t ≠ .needsReset) : trustAfterTable t = .trusted := by
  cases t with
  | needsReset => exact absurd rfl h
  | trusted | needsTable => rfl

/-- Settles O55: in each of the three cases the table's APPLY_CONFIG begins. -/
theorem applyConfigWritesTheTableInOrder : Obligations.ApplyConfigWritesTheTableInOrder := by
  intro s q table queue after mode rx rest hatRest hport hwait hops hqueue hcase hanswers hlen hrst
  obtain ⟨profile, hbegin, hmode, htrust⟩ : ∃ profile,
      beginSeq s.params q queue s.host = { s.host with queue := after, ops := applyConfigOps profile table } ∧
        modeAfterTable profile s.host.mode = mode ∧ s.host.trust ≠ .needsReset := by
    obtain ⟨rfl, htrust, rfl, rfl⟩ | ⟨m, rfl, htrust, rfl, rfl, rfl⟩ |
      ⟨m, hpath, htrust, hprepared, hmode, rfl, rfl, rfl⟩ := hcase
    · exact ⟨none, beginSeq_begins _ _ (decide_eq_true htrust) rfl, rfl, htrust⟩
    · exact ⟨some m, beginSeq_begins _ _ (decide_eq_true htrust) rfl, rfl, htrust⟩
    · have hpath := (isPathOf_iff m q).mp hpath
      exact ⟨some m, beginSeq_switches _ _ ((mayBegin_path hpath).mpr ⟨htrust, hprepared⟩)
        (switchNeeded_iff.mpr ⟨hpath, hmode⟩), rfl, by simp [htrust]⟩
  obtain ⟨t, taken, events, ht, hevents⟩ := hostRun_applyConfig ⟨hatRest, hport, hwait⟩ hops hqueue hbegin hanswers hlen
    hrst
  refine ⟨t, events, ht.run, ht.quiet.atRest, ht.quiet.port, ht.answers, ?_⟩
  rw [ht.host]
  exact ⟨hwait, rfl, rfl, hmode, rfl, trustAfterTable_of_ne htrust, rfl, ht.bus, hevents⟩

theorem beginSeq_setFrequency {s : State} {targetHz : Nat} {offsetHz : Int} (queue : List HostSeq)
    (htrust : s.host.trust = .trusted) :
    beginSeq s.params (.setFrequency targetHz offsetHz) queue s.host =
      { s.host with queue := queue, ops := setFrequencyOps s.params targetHz offsetHz } :=
  beginSeq_begins _ _ (decide_eq_true htrust) rfl

/-- Each byte of the frequency word is written once, in whatever order (D26). -/
theorem freqRows_perm (plan : FreqPlan) (w : BitVec 24) :
    (freqRows plan w).Perm
      [(plan.highAddr, w.extractLsb' 16 8), (plan.middleAddr, w.extractLsb' 8 8),
        (plan.lowAddr, w.extractLsb' 0 8)] := by
  have horder : (freqOrderBytes plan.order).Perm [.high, .middle, .low] := by
    cases plan.order <;> decide
  exact horder.map _

theorem syncRows_perm (plan : SyncPlan) (sync : SyncWord) :
    (syncRows plan sync).Perm [(plan.highAddr, sync.extractLsb' 8 8), (plan.lowAddr, sync.extractLsb' 0 8)] := by
  unfold syncRows
  split
  · exact .refl _
  · exact .swap _ _ _

/-- Settles O56: with a word, the three rows of `freqRows`; without one, the report alone. -/
theorem setFrequencyWritesEachByteOnce : Obligations.SetFrequencyWritesEachByteOnce := by
  intro s targetHz offsetHz queue hatRest hport hwait hops htrust hqueue
  have hs : Quiet s := ⟨hatRest, hport, hwait⟩
  have hbegin := beginSeq_setFrequency (targetHz := targetHz) (offsetHz := offsetHz) queue htrust
  refine ⟨fun w rx rest hword hanswers hlen hrst => ?word, fun hnone hrst => ?none⟩
  case word =>
    rw [setFrequencyOps, hword] at hbegin
    have hrows : (freqRows s.params.freqPlan w).length = 3 := (freqRows_perm _ w).length_eq
    obtain ⟨t, taken, events, ht, hevents⟩ := hostRun_loader hs hops hqueue hbegin hanswers (by rw [hrows, hlen])
      (by rwa [hrows])
    rw [hrows] at ht
    refine ⟨t, events, freqRows s.params.freqPlan w, ht.run, ht.quiet.atRest, ht.quiet.port, ht.answers, ?_⟩
    rw [ht.host]
    exact ⟨rfl, rfl, rfl, rfl, ht.bus, hevents, rfl, freqRows_perm _ w⟩
  case none =>
    rw [setFrequencyOps, hnone] at hbegin
    obtain ⟨u, hu⟩ := hostRun_begin hs hops hqueue (noReset_mono hrst (by omega)) hbegin
    obtain ⟨t, ht⟩ := hostRun_local hu.quiet (congrArg HostState.ops hu.host) rfl (hu.noReset hrst) rfl hu.quiet.waiting
    rw [tick_host, hu.host] at ht
    have hrun := hu.trans ht
    refine ⟨t, hrun.run, ht.quiet.atRest, ht.quiet.port, ht.answers.trans hu.answers,
      hrun.bus.trans (List.append_nil _), ?_⟩
    rw [ht.host]
    exact ⟨rfl, rfl, rfl, rfl⟩

/-- The power-ramp table: one burst of nine bytes (R182). -/
theorem hostRun_loadPowerRamp {s : State} {queue : List HostSeq} {table : Vector Byte 8} {rx : List Byte}
    {left : List (Option Byte)} (hs : Quiet s) (hops : s.host.ops = []) (htrust : s.host.trust = .trusted)
    (hqueue : s.host.queue = .loadPowerRamp table :: queue) (hanswers : s.answers = rx.map some ++ left)
    (hlen : rx.length = 9) (hrst : NoReset 16 s) :
    ∃ t taken,
      HostRun 16 s t
        { s.host with
          taken := taken, queue := queue, ops := [], reports := s.host.reports ++ [.success],
          prepared := { s.host.prepared with powerRamp := true } }
        left (window ((s.params.patableAddr.setWidth 8 ||| 0x40#8) :: table.toList) rx) := by
  have hbytes : ((s.params.patableAddr.setWidth 8 ||| 0x40#8) :: table.toList).length = 9 := by simp
  have hwf : (Instr.writeBurst s.params.patableAddr table.toList).command.wf = true := by
    simp [Instr.command, Command.wf, maxWBurst]
  have hbegin := beginSeq_begins s.params queue (q := .loadPowerRamp table) (decide_eq_true htrust) rfl
  obtain ⟨u, hu⟩ := hostRun_begin hs hops hqueue (noReset_mono hrst (by omega)) hbegin
  have hu' : NoReset 15 u := hu.noReset hrst
  obtain ⟨v, hv⟩ := hostRun_write hu.quiet (congrArg HostState.ops hu.host) (.burst _ _) hwf
    (writeBurstSendsHeaderAndData _ _).1 (hlen.trans hbytes.symm) (hu.answers.trans hanswers)
    (by rw [hbytes]; exact noReset_mono hu' (by omega))
  rw [hbytes, hu.host] at hv
  obtain ⟨t, ht⟩ := hostRun_loaderDone hv.quiet (congrArg HostState.ops hv.host) (hv.noReset hu')
  rw [hv.host, hv.answers] at ht
  have hrun := (hu.trans hv).trans ht
  rw [List.append_nil, List.nil_append] at hrun
  exact ⟨t, _, hrun⟩

/-- Settles O57. -/
theorem linkParametersAreWritten : Obligations.LinkParametersAreWritten := by
  intro s q queue rx rest hatRest hport hwait hops htrust hqueue hanswers hrst
  have hs : Quiet s := ⟨hatRest, hport, hwait⟩
  refine ⟨fun sync hq hlen => ?sync, fun n hq hlen => ?packetLength, fun table hq hlen => ?powerRamp⟩
  case sync =>
    subst hq
    have hrows : (syncRows s.params.syncPlan sync).length = 2 := (syncRows_perm _ sync).length_eq
    obtain ⟨t, taken, events, ht, hevents⟩ := hostRun_loader hs hops hqueue
      (beginSeq_begins _ _ (decide_eq_true htrust) rfl) hanswers (by rw [hrows, hlen]) (by rwa [hrows])
    rw [hrows] at ht
    refine ⟨t, events, syncRows s.params.syncPlan sync, ht.run, ht.quiet.atRest, ht.answers, ?_⟩
    rw [ht.host]
    exact ⟨rfl, rfl, rfl, rfl, ht.bus, hevents, syncRows_perm _ sync⟩
  case packetLength =>
    subst hq
    obtain ⟨t, taken, events, ht, hevents⟩ := hostRun_loader hs hops hqueue
      (beginSeq_begins _ _ (decide_eq_true htrust) rfl) hanswers hlen (noReset_mono hrst (by simp))
    refine ⟨t, events, ht.run, ht.quiet.atRest, ht.answers, ?_⟩
    rw [ht.host]
    exact ⟨rfl, rfl, rfl, rfl, ht.bus, hevents⟩
  case powerRamp =>
    subst hq
    obtain ⟨t, taken, ht⟩ := hostRun_loadPowerRamp hs hops htrust hqueue hanswers hlen hrst
    have hbytes : rx.length = ((s.params.patableAddr.setWidth 8 ||| 0x40#8) :: table.toList).length := by simp [hlen]
    refine ⟨t, exchanges ((s.params.patableAddr.setWidth 8 ||| 0x40#8) :: table.toList) rx, ht.run, ht.quiet.atRest,
      ht.answers, ?_⟩
    rw [ht.host]
    refine ⟨rfl, rfl, rfl, rfl, ?_, ?_⟩
    · rw [ht.bus]
      simp [window]
    · rw [exchanges_outByte hbytes.le, hbytes, List.take_length]

/-- A payload FRAME_TX rejects, and with which failure (R162, R163). -/
theorem exec_frameTx_of_rejected {payload : List Bit} (sync : SyncWord) {s : State} (hs : AtRest s)
    (h : payloadAccepted payload = false) :
    exec (.frameTx payload sync) s =
      .next { s with
        op := .frameTx payload sync
        result := .err (if 496 < payload.length then .frameOverflow payload.length
          else .frameNotByteAligned payload.length)
        phase := .done } := by
  split
  · rename_i hlong
    exact exec_of_raise_atRest hs (commandEffect_frameTx_of_long sync s hlong)
  · rename_i hshort
    have hpart : payload.length % 8 ≠ 0 := by
      intro h8
      simp [payloadAccepted, h8, not_lt.mp hshort] at h
    exact exec_of_raise_atRest hs (commandEffect_frameTx_of_misaligned sync s (not_lt.mp hshort) hpart)

/-- Settles O59: the path begins, and its first line fails at its acceptance. -/
theorem txPathSendsNothingForARejectedPayload : Obligations.TxPathSendsNothingForARejectedPayload := by
  intro s payload sync queue hatRest hport hwait hops htrust hmode hprepared hqueue hlen hpayload hrst
  have hbegin := beginSeq_begins s.params queue (q := .txPath payload sync) (h := s.host)
    ((mayBegin_path rfl).mpr ⟨htrust, hprepared⟩)
    ((switchNeeded_eq_none_iff _ _).mpr fun m hm => hmode.trans hm)
  obtain ⟨u, hu⟩ := hostRun_begin ⟨hatRest, hport, hwait⟩ hops hqueue (noReset_mono hrst (by omega)) hbegin
  have hline := congrArg HostState.ops hu.host
  obtain ⟨t, ht⟩ := hostRun_rejected hu.quiet hline rfl (decide_eq_true hlen)
    (fun v hv => exec_frameTx_of_rejected sync hv hpayload) (hu.noReset hrst)
  rw [hostTake_err (h := awaiting u.host) rfl hline, hu.host] at ht
  have hrun := hu.trans ht
  refine ⟨t, hrun.run, ht.quiet.atRest, hrun.bus.trans (List.append_nil _), ht.answers.trans hu.answers, ?_⟩
  rw [ht.host]
  exact ⟨rfl, rfl, rfl⟩

end Sys2Proof.Machine
end

