-- ==== Sys2Proof/Proofs/Exceptions.lean ====
section
/-! SUPPORT. The statements of the family spec/60_exceptions.md. Of the three ways a command can begin, only the failure
answers an error, and it keeps everything the command found (R212 to R214). -/

namespace Sys2Proof.Machine

/-! A failure at acceptance (R212 to R214). -/

/-- A command that begins with an error was rejected: a transaction begins with `ok`, and so does a completion without
the bus. No rejection is TransportFailure (R214). -/
theorem commandEffect_of_err {c : Command} {s : State} {f : Failure} (h : (commandEffect c s).result = .err f) :
    commandEffect c s = raise f (latch c s) ∧ f ≠ .transportFailure := by
  obtain ⟨tx, -, heq⟩ | ⟨f', -, hne, heq⟩ | ⟨bits, r, -, hr, -, heq⟩ := commandEffect_cases c s
  · rw [heq, startTransaction_result] at h
    nomatch h
  · rw [heq, raise_result] at h
    cases h
    exact ⟨heq, hne⟩
  · rw [heq, complete_result] at h
    rw [h] at hr
    nomatch hr

/-- Settles O48: the failure is the command's rejection, which at rest ends the command at once. -/
theorem operandCheckFailureIsPrecise : Obligations.OperandCheckFailureIsPrecise := by
  intro i s t f hs hexec herr
  obtain rfl : commandEffect i.command s = t := Host.Outcome.next.inj ((exec_idle i hs.1).symm.trans hexec)
  obtain ⟨hraise, hne⟩ := commandEffect_of_err herr
  exact ⟨Host.Outcome.next.inj (hexec.symm.trans (exec_of_raise_atRest hs hraise)), hne⟩

/-! The failure codes (R200). -/

theorem resultCode_of_not_isErr {r : Result} (h : isErr r = false) : resultCode r = 0 := by
  cases r with
  | err f => nomatch h
  | okNone | okByte | okBytes | okFrame | okBits => rfl

/-- Settles O47: every success has code 0, and each failure has its row's number in R200's table, whatever it
records. -/
theorem failureCodesAsNumbered : Obligations.FailureCodesAsNumbered :=
  ⟨fun _ => resultCode_of_not_isErr, rfl, rfl, rfl, fun _ => rfl, fun _ => rfl, fun _ => rfl, fun _ => rfl, rfl, rfl⟩

end Sys2Proof.Machine
end

section
/-! SUPPORT. The statement outside the spec's families: what the step does with a presented word that is no instruction,
which the port of R28 cannot carry (logs 2 and 12). -/

namespace Sys2Proof.Machine

/-- Settles O9: in `IDLE` the presented word is decoded before anything else happens, and the step passes on the
decoder's reason. -/
theorem stepRefusesUndecodableWord : Obligations.StepRefusesUndecodableWord :=
  fun _ _ _ hp hrst hport hdecode => step_undecodable hp hrst hport hdecode

end Sys2Proof.Machine
end
